-- ==== Sys2Proof/Word.lean ====
section
/-! DEFINITION. The widths of the values the block holds (00_scope.md R12, 30_encoding.md R80, R88). -/

namespace Sys2Proof

/-- A bus byte, a target address, a buffer byte, a requester identity, a port or controller index. -/
abbrev Byte := BitVec 8

/-- A length, the cursor, a fast-mode half period. -/
abbrev Half := BitVec 16

/-- A register value, a timeout in microseconds, a frequency in hertz, the ARG field. -/
abbrev Word := BitVec 32

/-- A command word or a response word. -/
abbrev Command := BitVec 64

end Sys2Proof
end

