-- ==== Sys2Proof/Syntax.lean ====
section
/-! DEFINITION. The commands of the opcode map (30_encoding.md R84), one constructor per row of
spec/opcode_table.json. Every operand is an unsigned field taken as it stands (R83). -/

namespace Sys2Proof

/-- A command. `req` is REQ, `port` and `ctrl` are IDX, `addr` is ADDR, `tx` and `rx` are TXLEN and RXLEN,
`us`, `hz` and `index` are ARG (30_encoding.md R80 to R83). -/
inductive Instr where
  | xfer    (req port addr : Byte) (tx rx : Half)
  | xferS   (req port addr : Byte) (tx rx : Half)
  | xferP   (req port addr : Byte) (tx rx : Half)
  | xferSP  (req port addr : Byte) (tx rx : Half)
  | setto   (req port : Byte) (us : Word)
  | setfreq (req ctrl : Byte) (hz : Word)
  | clkchg  (req : Byte) (hz : Word)
  | busbusy (req ctrl : Byte)
  | lines   (req port : Byte)
  | rdreg   (req ctrl : Byte) (index : Word)
  | abort   (req ctrl : Byte)
  | reset   (req ctrl : Byte)
  | recover (req ctrl : Byte)
  deriving DecidableEq, Repr, Inhabited

/-- The REQ field of a command (30_encoding.md R80). -/
def Instr.requester : Instr → Byte
  | .xfer r _ _ _ _ | .xferS r _ _ _ _ | .xferP r _ _ _ _ | .xferSP r _ _ _ _ => r
  | .setto r _ _ | .setfreq r _ _ | .clkchg r _ | .busbusy r _ | .lines r _ | .rdreg r _ _ => r
  | .abort r _ | .reset r _ | .recover r _ => r

/-- The controller a command of format C names (30_encoding.md R82). -/
def Instr.formatC : Instr → Option Byte
  | .setfreq _ c _ | .busbusy _ c | .rdreg _ c _ | .abort _ c | .reset _ c | .recover _ c => some c
  | .xfer .. | .xferS .. | .xferP .. | .xferSP .. | .setto .. | .clkchg .. | .lines .. => none

/-- The register index of RDREG (30_encoding.md R83). -/
def Instr.registerIndex : Instr → Option Word
  | .rdreg _ _ k => some k
  | .xfer .. | .xferS .. | .xferP .. | .xferSP .. | .setto .. | .setfreq .. | .clkchg .. => none
  | .busbusy .. | .lines .. | .abort .. | .reset .. | .recover .. => none

end Sys2Proof
end

