-- ==== Sys2Proof/WellFormed.lean ====
section
/-! DEFINITION. When a command is well-formed: the check of its own fields that decoding makes (30_encoding.md R86,
the RDREG index), and the checks against the counts of the block (R86, the format C index; R87, REQ). A port number
is checked by no rule of decoding (40_commands.md R112 handles it). -/

namespace Sys2Proof

/-- The RDREG index names a register (10_state.md R49, 30_encoding.md R86). -/
def Instr.indexNamed (i : Instr) : Bool :=
  match i.registerIndex with
  | some k => decide (k.toNat < 9)
  | none => true

/-- REQ names a requester (30_encoding.md R87). -/
def Instr.requesterNamed (numReq : Nat) (i : Instr) : Bool :=
  decide (i.requester ≠ 0 ∧ i.requester.toNat ≤ numReq)

/-- A format C index names a controller (30_encoding.md R86). -/
def Instr.ctrlNamed (numCtrl : Nat) (i : Instr) : Bool :=
  match i.formatC with
  | some c => decide (c.toNat < numCtrl)
  | none => true

/-- Well-formed as an encoding: what a decoded command satisfies whatever the counts of the block are. -/
def Instr.wellFormed (i : Instr) : Bool := i.indexNamed

/-- Legal for a block with these counts (30_encoding.md R86, R87, R92). -/
def Instr.legal (numReq numCtrl : Nat) (i : Instr) : Bool :=
  i.wellFormed && i.requesterNamed numReq && i.ctrlNamed numCtrl

end Sys2Proof
end

