-- ==== Sys2Proof/Decode.lean ====
section
/-! DEFINITION. Decoding and encoding of command words (30_encoding.md R80 to R92, R96). -/

namespace Sys2Proof

/-! ## Fields of a command word (R80) -/

/-- OP, bits[7:0]. -/
def opField (w : Command) : Byte := w.extractLsb' 0 8
/-- REQ, bits[15:8]. -/
def reqField (w : Command) : Byte := w.extractLsb' 8 8
/-- IDX, bits[23:16]. -/
def idxField (w : Command) : Byte := w.extractLsb' 16 8
/-- ADDR, bits[31:24]. -/
def addrField (w : Command) : Byte := w.extractLsb' 24 8
/-- ARG, bits[63:32]. -/
def argField (w : Command) : Word := w.extractLsb' 32 32
/-- TXLEN, bits[47:32]. -/
def txLenField (w : Command) : Half := w.extractLsb' 32 16
/-- RXLEN, bits[63:48]. -/
def rxLenField (w : Command) : Half := w.extractLsb' 48 16

/-! ## The opcode map (R84) -/

/-- The rows of the opcode map. -/
inductive Opcode where
  | xfer | xferS | xferP | xferSP | setto | setfreq | clkchg
  | busbusy | lines | rdreg | abort | reset | recover
  deriving DecidableEq, Repr, Inhabited

/-- The value of OP of a row (R84). -/
def Opcode.byte : Opcode → Byte
  | .xfer => 0x10 | .xferS => 0x11 | .xferP => 0x12 | .xferSP => 0x13
  | .setto => 0x20 | .setfreq => 0x21 | .clkchg => 0x22
  | .busbusy => 0x30 | .lines => 0x31 | .rdreg => 0x32
  | .abort => 0x40 | .reset => 0x41 | .recover => 0x42

/-- The row that a value of OP selects; none where R84 has no row (R86). -/
def Opcode.ofByte (b : Byte) : Option Opcode :=
  if b = 0x10 then some .xfer else if b = 0x11 then some .xferS
  else if b = 0x12 then some .xferP else if b = 0x13 then some .xferSP
  else if b = 0x20 then some .setto else if b = 0x21 then some .setfreq
  else if b = 0x22 then some .clkchg else if b = 0x30 then some .busbusy
  else if b = 0x31 then some .lines else if b = 0x32 then some .rdreg
  else if b = 0x40 then some .abort else if b = 0x41 then some .reset
  else if b = 0x42 then some .recover else none

/-- Why a word is no legal encoding (R86), or a byte list no word (R96). -/
inductive DecodeError where
  /-- Fewer than eight bytes: a decoder always consumes 64 bits (R96). -/
  | truncated
  /-- OP has no row in the opcode map. -/
  | unknownOpcode
  /-- ADDR must be 0 in formats C, P and G (R85). -/
  | addrReserved
  /-- IDX must be 0 in format G (R85). -/
  | idxReserved
  /-- ARG must be 0 for BUSBUSY, LINES, ABORT, RESET and RECOVER (R85). -/
  | argReserved
  /-- The RDREG index is 9 or more (R86). -/
  | registerIndex
  deriving DecidableEq, Repr

/-- The reserved fields of a row are zero and its register index names a register (R85, R86); the first that fails. -/
def reservedError (op : Opcode) (w : Command) : Option DecodeError :=
  match op with
  | .xfer | .xferS | .xferP | .xferSP => none
  | .setto | .setfreq => if addrField w ≠ 0 then some .addrReserved else none
  | .clkchg =>
    if addrField w ≠ 0 then some .addrReserved else if idxField w ≠ 0 then some .idxReserved else none
  | .busbusy | .lines | .abort | .reset | .recover =>
    if addrField w ≠ 0 then some .addrReserved else if argField w ≠ 0 then some .argReserved else none
  | .rdreg =>
    if addrField w ≠ 0 then some .addrReserved
    else if 9 ≤ (argField w).toNat then some .registerIndex else none

/-- The command of a row, its operands taken from the fields as they stand (R81, R82, R83). -/
def assemble (op : Opcode) (w : Command) : Instr :=
  match op with
  | .xfer => .xfer (reqField w) (idxField w) (addrField w) (txLenField w) (rxLenField w)
  | .xferS => .xferS (reqField w) (idxField w) (addrField w) (txLenField w) (rxLenField w)
  | .xferP => .xferP (reqField w) (idxField w) (addrField w) (txLenField w) (rxLenField w)
  | .xferSP => .xferSP (reqField w) (idxField w) (addrField w) (txLenField w) (rxLenField w)
  | .setto => .setto (reqField w) (idxField w) (argField w)
  | .setfreq => .setfreq (reqField w) (idxField w) (argField w)
  | .clkchg => .clkchg (reqField w) (argField w)
  | .busbusy => .busbusy (reqField w) (idxField w)
  | .lines => .lines (reqField w) (idxField w)
  | .rdreg => .rdreg (reqField w) (idxField w) (argField w)
  | .abort => .abort (reqField w) (idxField w)
  | .reset => .reset (reqField w) (idxField w)
  | .recover => .recover (reqField w) (idxField w)

/-- Decoding of one word: R92 steps 2 and 3, less the checks that need the counts of the block. -/
def decodeWord (w : Command) : Except DecodeError Instr :=
  match Opcode.ofByte (opField w) with
  | none => .error .unknownOpcode
  | some op =>
    match reservedError op w with
    | some e => .error e
    | none => .ok (assemble op w)

/-! ## Bytes (20_memory.md R66): command words, response words and register values are serialised low byte first, and
nothing switches the order -/

/-- Byte `k` of a word: bits[8k+7:8k]. The one place where the byte order is decided. -/
def byteOf {n : Nat} (w : BitVec n) (k : Nat) : Byte := w.extractLsb' (8 * k) 8

/-- The four bytes of a 32-bit register value. -/
def bytesOfRegister (v : Word) : List Byte := [byteOf v 0, byteOf v 1, byteOf v 2, byteOf v 3]

/-- A 32-bit register value from its four bytes. -/
def registerOfBytes (b0 b1 b2 b3 : Byte) : Word := b3 ++ (b2 ++ (b1 ++ b0))

/-- A 64-bit word, a command or a response, from its eight bytes. -/
def wordOfBytes (b0 b1 b2 b3 b4 b5 b6 b7 : Byte) : Command :=
  b7 ++ (b6 ++ (b5 ++ (b4 ++ (b3 ++ (b2 ++ (b1 ++ b0))))))

/-- The eight bytes of a 64-bit word, a command or a response. -/
def bytesOfWord (w : Command) : List Byte :=
  [byteOf w 0, byteOf w 1, byteOf w 2, byteOf w 3, byteOf w 4, byteOf w 5, byteOf w 6, byteOf w 7]

/-- Decoding of a byte list: one command of 64 bits and the bytes after it (R96). -/
def decode : List Byte → Except DecodeError (Instr × List Byte)
  | b0 :: b1 :: b2 :: b3 :: b4 :: b5 :: b6 :: b7 :: rest =>
    match decodeWord (wordOfBytes b0 b1 b2 b3 b4 b5 b6 b7) with
    | .ok i => .ok (i, rest)
    | .error e => .error e
  | _ => .error .truncated

/-- The command word of an instruction of the opcode table whose bits, numbered as the table numbers them, are `w`;
bits at and above `nbits` are 0. -/
def tableWord (nbits w : Nat) : Command := BitVec.ofNat 64 (w % 2 ^ nbits)

/-- What the decoder reads from an instruction of the opcode table. -/
def decodeTableWord (nbits w : Nat) : Option Instr :=
  match decode (bytesOfWord (tableWord nbits w)) with
  | .ok (i, _) => some i
  | .error _ => none

/-! ## Encoding (R80 to R82) -/

/-- A word from its five fields. -/
def packArg (op : Opcode) (req idx addr : Byte) (arg : Word) : Command :=
  arg ++ (addr ++ (idx ++ (req ++ op.byte)))

/-- A word of format X (R81): ARG is RXLEN over TXLEN. -/
def packX (op : Opcode) (req port addr : Byte) (tx rx : Half) : Command :=
  packArg op req port addr (rx ++ tx)

/-- The command word of a command (R81, R82). -/
def encodeWord : Instr → Command
  | .xfer r p a tx rx => packX .xfer r p a tx rx
  | .xferS r p a tx rx => packX .xferS r p a tx rx
  | .xferP r p a tx rx => packX .xferP r p a tx rx
  | .xferSP r p a tx rx => packX .xferSP r p a tx rx
  | .setto r p us => packArg .setto r p 0 us
  | .setfreq r c hz => packArg .setfreq r c 0 hz
  | .clkchg r hz => packArg .clkchg r 0 0 hz
  | .busbusy r c => packArg .busbusy r c 0 0
  | .lines r p => packArg .lines r p 0 0
  | .rdreg r c k => packArg .rdreg r c 0 k
  | .abort r c => packArg .abort r c 0 0
  | .reset r c => packArg .reset r c 0 0
  | .recover r c => packArg .recover r c 0 0

/-- The bytes of a command as the command port serialises them (20_memory.md R66). -/
def encode (i : Instr) : List Byte := bytesOfWord (encodeWord i)

end Sys2Proof
end

