-- ==== Sys2Proof/Config.lean ====
section
/-! DEFINITION. The named parameters of the block (00_scope.md R9 to R11), the events an agent may bring
about (00_scope.md R8), and the free values. The parameters are a field of State that no step writes, so a
statement about every state is a statement about every choice of them. -/

namespace Sys2Proof

/-- TIMEOUT_MODEL (60_exceptions.md R273, R274). -/
inductive TimeoutModel where
  | anyTime
  | stuckOnly
  deriving DecidableEq, Repr, Inhabited

/-- LINES_MODEL (60_exceptions.md R275). -/
inductive LinesModel where
  | free
  | idleWhenNotBusy
  deriving DecidableEq, Repr, Inhabited

/-- INVALID_PORT (40_commands.md R112). -/
inductive InvalidPort where
  | refuse
  | illegal
  deriving DecidableEq, Repr, Inhabited

/-- Who steps when the list `events` of State is empty: any agent, by a free value (00_scope.md R8), or the
eager schedule of the worked programs (92_eei_decisions.md D57). -/
inductive Schedule where
  | anyOrder
  | eager
  deriving DecidableEq, Repr, Inhabited

/-- One port of PORT_MAP (00_scope.md R10): its controller, whether it touches the mux, its pin pair. -/
structure PortEntry where
  ctrl   : Nat
  muxed  : Bool
  pinset : Bool
  deriving DecidableEq, Repr, Inhabited

/-- One entry of FAST_CAL_TABLE (00_scope.md R11): the pair of frequencies and the half periods. -/
structure CalEntry where
  clock  : Word
  target : Word
  tLow   : Half
  tHigh  : Half
  deriving DecidableEq, Repr, Inhabited

/-- The parameters of 00_scope.md R9 to R11. NUM_PORTS is the length of `portMap` and NUM_CTRL that of
`targetHzReset`. -/
structure Params where
  bufBytes         : Nat
  numReq           : Nat
  portMap          : List PortEntry
  defaultTimeoutUs : Word
  fastCalTable     : List CalEntry
  clockHzReset     : Word
  targetHzReset    : List Word
  timeoutModel     : TimeoutModel
  linesModel       : LinesModel
  invalidPort      : InvalidPort
  schedule         : Schedule
  deriving DecidableEq, Repr, Inhabited

/-- NUM_CTRL (00_scope.md R9). -/
def Params.numCtrl (p : Params) : Nat := p.targetHzReset.length

/-- NUM_PORTS (00_scope.md R9). -/
def Params.numPorts (p : Params) : Nat := p.portMap.length

/-- The ranges 00_scope.md R9 and R10 give the parameters, and FAST_CAL_TABLE a partial function (R11). -/
def Params.wf (p : Params) : Bool :=
  decide (1 ≤ p.numCtrl ∧ p.numCtrl ≤ 255) && decide (1 ≤ p.numPorts ∧ p.numPorts ≤ 255)
    && decide (1 ≤ p.numReq ∧ p.numReq ≤ 255) && decide (1 ≤ p.bufBytes ∧ p.bufBytes ≤ 65535)
    && p.portMap.all (fun e => decide (e.ctrl < p.numCtrl))
    && decide ((p.fastCalTable.map (fun e => (e.clock, e.target))).Nodup)

/-- What one agent may do as the next step (00_scope.md R8). `c` is a controller, `r` a requester. -/
inductive Event where
  /-- Requester `r` sends the command word `w` (40_commands.md R110). -/
  | command (r : Byte) (w : Command)
  /-- Requester `r` reads one byte of a buffer (20_memory.md R62). -/
  | bufRead (r : Byte) (addr : Word)
  /-- Requester `r` writes one byte of a buffer (20_memory.md R62). -/
  | bufWrite (r : Byte) (addr : Word) (v : Byte)
  /-- `Orch[c]` takes its step other than an expiry (40_commands.md R122, 43_recovery.md R231, R234). -/
  | orch (c : Nat)
  /-- The transfer timeout of controller `c` fires (40_commands.md R123). -/
  | timeout (c : Nat)
  /-- The poll window of an abort or reset of controller `c` ends (43_recovery.md R232, R234). -/
  | windowExpiry (c : Nat)
  /-- `Seq[c]` takes its step (41_sequencer.md R160). -/
  | seq (c : Nat)
  /-- `Eng[c]` takes its step (41_sequencer.md R180). -/
  | eng (c : Nat)
  /-- `Env` raises a bus error on controller `c` (41_sequencer.md R187). -/
  | busError (c : Nat)
  /-- `Env` sets the stretch flag of controller `c` (41_sequencer.md R188). -/
  | setStretch (c : Nat)
  deriving DecidableEq, Repr, Inhabited

/-- POLL_WINDOW_MS (00_scope.md R11). No rule measures it (92_eei_decisions.md D9). -/
def Config.pollWindowMs : Nat := 35

/-- FREE VALUE: what `Env` answers at a draw that State's list `draws` does not give (log 5). -/
opaque Config.freeDraw : Nat → Byte

/-- FREE VALUE: which agent steps next where State's list `events` does not say (log 3). -/
opaque Config.freeEvent : Nat → Event

/-- DESIGN CHOICE (log 6): what a buffer byte that nothing has written reads as; 70_reset_and_hazards.md R290
says any value. -/
def Config.unlistedByte : Byte := 0

/-- DESIGN CHOICE (log 1, 2): the parameters State.reset takes: those of the start state S0 of
95_test_vectors.md, with TIMEOUT_MODEL the "safe default" of 92_eei_decisions.md D8. -/
def Params.s0 : Params where
  bufBytes := 16
  numReq := 2
  portMap := [{ ctrl := 0, muxed := false, pinset := false }]
  defaultTimeoutUs := 25000
  fastCalTable := []
  clockHzReset := 15000000
  targetHzReset := [100000]
  timeoutModel := .anyTime
  linesModel := .idleWhenNotBusy
  invalidPort := .illegal
  schedule := .anyOrder

end Sys2Proof
end

