-- ==== Sys2Proof/Machine/Timing.lean ====
section
/-! DEFINITION. The timing configurator (42_timing.md): the clock divider and the fast-mode half periods. -/

namespace Sys2Proof.Machine

/-- The timing registers of a controller (10_state.md R43). -/
structure Timing where
  targetHz   : Word
  divLo      : Byte
  divHi      : Byte
  fastEn     : Bool
  tLow       : Half
  tHigh      : Half
  timingWarn : Bool
  deriving DecidableEq, Repr, Inhabited

/-- What `program_timing` answers (42_timing.md R217): nothing to write, a calibrated pair, or the divider value with
the fallback warning. -/
inductive TimingResult where
  | invalid
  | calibrated (tLow tHigh : Half)
  | divider (d : Half) (warn : Bool)
  deriving DecidableEq, Repr

/-- A target over 100 kHz is fast (42_timing.md R211). -/
def isFast (target : Word) : Bool := decide (100000 < target.toNat)

/-- The divider value, exact on naturals and rounded toward zero (42_timing.md R212). -/
def dividerValue (clock target : Word) : Nat := clock.toNat / (4 * target.toNat)

/-- FAST_CAL_TABLE at a pair of frequencies (00_scope.md R11; log 20). -/
def calibration (table : List CalEntry) (clock target : Word) : Option CalEntry :=
  table.find? (fun e => decide (e.clock = clock ∧ e.target = target))

/-- The divider path (42_timing.md R213, R215, R216). -/
def programDivider (clock target : Word) : TimingResult :=
  if dividerValue clock target = 0 ∨ 0xFFFF < dividerValue clock target then .invalid
  else .divider (BitVec.ofNat 16 (dividerValue clock target)) (isFast target)

/-- `program_timing(clock, target)` (42_timing.md R217). -/
def programTiming (table : List CalEntry) (clock target : Word) : TimingResult :=
  if target = 0 then .invalid
  else if isFast target then
    match calibration table clock target with
    | some e => .calibrated e.tLow e.tHigh
    | none => programDivider clock target
  else programDivider clock target

/-- The fields a result writes (42_timing.md R213 to R217); the others keep their values. -/
def TimingResult.write (r : TimingResult) (t : Timing) : Timing :=
  match r with
  | .invalid => t
  | .calibrated tl th => { t with tLow := tl, tHigh := th, fastEn := true, timingWarn := false }
  | .divider d warn =>
    { t with divLo := d.extractLsb' 0 8, divHi := d.extractLsb' 8 8, fastEn := false, timingWarn := warn }

/-- The result is Ok: something was programmed. -/
def TimingResult.isOk (r : TimingResult) : Bool :=
  match r with
  | .invalid => false
  | .calibrated .. | .divider .. => true

/-- A fallback logs TIMING_FALLBACK (42_timing.md R215). -/
def TimingResult.logs (r : TimingResult) : Bool :=
  match r with
  | .invalid | .calibrated .. => false
  | .divider _ warn => warn

/-- The timing registers before initialisation programs them (42_timing.md R220). -/
def Timing.unprogrammed (target : Word) : Timing where
  targetHz := target
  divLo := 0
  divHi := 0
  fastEn := false
  tLow := 0
  tHigh := 0
  timingWarn := false

end Sys2Proof.Machine
end

