-- ==== Sys2Proof/Machine/State.lean ====
section
/-! DEFINITION. The state of the block, everything spec/10_state.md and 70_reset_and_hazards.md R290 name, and the state
right after reset and initialisation (R290, R291). -/

namespace Sys2Proof.Machine

/-! ## Names -/

/-- `operation_state` (10_state.md R24). The reserved code 7 is no value of the type (R55; log 18). -/
inductive OpState where
  | idle | start | write | read | repeatStart | writeSuspended | readSuspended
  deriving DecidableEq, Repr, Inhabited

/-- The error kinds (60_exceptions.md R261), with the result code IllegalCommand, which occurs in responses only. -/
inductive Kind where
  | ok | channelOccupied | busFrequencyInvalid | busError | noAddressMatch
  | readOverflow | timeout | moduleBusy | busBusy | illegalCommand
  deriving DecidableEq, Repr, Inhabited

/-- A bus action in the engine queue (10_state.md R41). -/
inductive BusAction where
  | start
  | send (v : Byte)
  | stop
  deriving DecidableEq, Repr, Inhabited

/-- An acknowledge bit (41_sequencer.md R161). -/
inductive Ack where
  | ack | nack
  deriving DecidableEq, Repr, Inhabited

/-- What a LOG symbol records (41_sequencer.md R161). -/
inductive LogKind where
  | abortTimeout | linesNotIdle | timingFallback
  deriving DecidableEq, Repr, Inhabited

/-- A symbol of the bus trace (41_sequencer.md R161). -/
inductive TraceSym where
  | s
  | sr
  | w (v : Byte) (a : Ack)
  | r (v : Byte) (a : Ack)
  | p
  | berr
  | unwedge
  | log (k : LogKind)
  deriving DecidableEq, Repr, Inhabited

/-- The direction of the current phase on the bus (10_state.md R42). -/
inductive Mode where
  | tx | rx
  deriving DecidableEq, Repr, Inhabited

/-- `orch_phase` (10_state.md R46). -/
inductive OrchPhase where
  | free | preRecover | wait | postRecover | cmdRecover
  deriving DecidableEq, Repr, Inhabited

/-- `rec_phase` (10_state.md R46). -/
inductive RecPhase where
  | none | abortWait | resetWait
  deriving DecidableEq, Repr, Inhabited

/-- The operands of a transfer after its port is resolved (40_commands.md R111): START and STOP flags, lengths, address. -/
structure TransferArgs where
  fs   : Bool
  fp   : Bool
  tx   : Half
  rx   : Half
  addr : Byte
  deriving DecidableEq, Repr, Inhabited

/-- The command an orchestrator runs (log 11). -/
inductive Running where
  | none
  | transfer (x : TransferArgs)
  | abort
  | reset
  | recover
  deriving DecidableEq, Repr, Inhabited

/-! ## The state of a controller -/

/-- The controller record (10_state.md R21 to R29). -/
structure Record where
  flagStart     : Bool
  flagStop      : Bool
  txLen         : Half
  rxLen         : Half
  cursor        : Half
  opState       : OpState
  targetAddress : Byte
  errorCode     : Kind
  owner         : Byte
  timeoutUs     : Word
  waitBudgetUs  : Word
  deriving DecidableEq, Repr, Inhabited

/-- The status flags of the bus controller and the state of its engine (10_state.md R34 to R42). -/
structure Bus where
  nackArmed  : Bool
  busErr     : Bool
  nackFlag   : Bool
  stretch    : Bool
  busy       : Bool
  rdy        : Bool
  enabled    : Bool
  eq         : List BusAction
  data       : Byte
  rxPending  : Bool
  afterStart : Bool
  mode       : Mode
  deriving DecidableEq, Repr, Inhabited

/-- The bookkeeping of the orchestrator (10_state.md R46), and the command it runs (log 11). -/
structure Orch where
  phase         : OrchPhase
  recPhase      : RecPhase
  recPrior      : Kind
  timedOut      : Bool
  curReq        : Byte
  curPort       : Byte
  abortSoftFail : Bool
  linesNotIdle  : Bool
  cmd           : Running
  deriving DecidableEq, Repr, Inhabited

/-- A controller (10_state.md R20 to R46). -/
structure Ctrl where
  record : Record
  pinSet : Bool
  ie     : Bool
  done   : Bool
  bus    : Bus
  timing : Timing
  orch   : Orch
  trace  : List TraceSym
  deriving DecidableEq, Repr, Inhabited

/-- What the block holds for a requester (10_state.md R47), and the responses delivered to it, oldest first
(00_scope.md R19). -/
structure Requester where
  outstanding : Bool
  responses   : List Command
  deriving DecidableEq, Repr, Inhabited

/-- The buffer space (20_memory.md R60): the bytes that differ from what an unlisted address reads as, addresses
strictly rising. -/
abbrev Memory := List Host.Cell

/-- The state of the block. Requester r is at index r - 1 of `reqs`, controller c at index c of `ctrls`. `events`, `draws`
and `freeCount` are the model's: the schedule, the answers of `Env`, and the counter of the free values (log 3, 5). -/
structure State where
  params    : Params
  clockHz   : Word
  ctrls     : List Ctrl
  reqs      : List Requester
  mem       : Memory
  events    : List Event
  draws     : List Byte
  freeCount : Nat
  deriving DecidableEq, Repr, Inhabited

/-! ## Why a step stops -/

/-- The cases the spec calls unreachable and treats as `fault` (93_implementation_defined.md). All are safe. -/
inductive Fault where
  /-- The sequencer in Read with `cursor >= rx_len` or in Write with `cursor > tx_len` (41_sequencer.md R173). Safe. -/
  | sequencerUnreachable
  /-- Arming in a state other than Idle, WriteSuspended or ReadSuspended (40_commands.md R126). Safe. -/
  | armUnreachable
  /-- A phase of the orchestrator that no rule gives (10_state.md R55). Safe. -/
  | phaseUnreachable
  /-- The sequencer forms an address outside the buffer space (20_memory.md R60). Safe. -/
  | bufferAddress
  /-- PORT_MAP names no controller, against 00_scope.md R10. Safe. -/
  | portMapBroken
  deriving DecidableEq, Repr

/-- The inputs a model does not accept (`refuse` in 93_implementation_defined.md). All are safe. -/
inductive Refusal where
  /-- An instruction whose arm of `exec` is not written yet. -/
  | notModelled (mnemonic : String)
  /-- REQ is 0 or exceeds NUM_REQ (30_encoding.md R87). Safe. -/
  | badRequester
  /-- REQ differs from the requester that sent the word (30_encoding.md R87). Safe. -/
  | senderMismatch
  /-- A second command of a requester with one outstanding (10_state.md R47). Safe. -/
  | commandOutstanding
  /-- A port number out of range with INVALID_PORT = REFUSE (40_commands.md R112). Safe. -/
  | invalidPort
  /-- A requester's access outside its own buffers, or while its command is outstanding (20_memory.md R60, R62). Safe. -/
  | bufferAccess
  deriving DecidableEq, Repr

/-- The outcome of a step. -/
abbrev Result := Host.Outcome State Fault Refusal

/-! ## Reset (70_reset_and_hazards.md R290, R291) -/

/-- A controller after reset and initialisation, given its target frequency. -/
def Ctrl.resetFor (p : Params) (target : Word) : Ctrl where
  record :=
    { flagStart := false, flagStop := false, txLen := 0, rxLen := 0, cursor := 0, opState := .idle,
      targetAddress := 0, errorCode := .ok, owner := 0, timeoutUs := p.defaultTimeoutUs, waitBudgetUs := 0 }
  pinSet := false
  ie := false
  done := false
  bus :=
    { nackArmed := false, busErr := false, nackFlag := false, stretch := false, busy := false, rdy := false,
      enabled := true, eq := [], data := 0, rxPending := false, afterStart := false, mode := .tx }
  timing := (programTiming p.fastCalTable p.clockHzReset target).write (Timing.unprogrammed target)
  orch :=
    { phase := .free, recPhase := .none, recPrior := .ok, timedOut := false, curReq := 0, curPort := 0,
      abortSoftFail := false, linesNotIdle := false, cmd := .none }
  trace := if (programTiming p.fastCalTable p.clockHzReset target).logs then [.log .timingFallback] else []

/-- The block after reset and initialisation, for any parameters, any buffer contents, any schedule and any
environment. -/
def State.resetWith (p : Params) (mem : Memory) (events : List Event) (draws : List Byte) (count : Nat) : State where
  params := p
  clockHz := p.clockHzReset
  ctrls := p.targetHzReset.map (Ctrl.resetFor p)
  reqs := List.replicate p.numReq { outstanding := false, responses := [] }
  mem := mem
  events := events
  draws := draws
  freeCount := count

/-- The machine right after reset (log 1, 2, 6, 7). -/
def State.reset : State := State.resetWith Params.s0 [] [] [] 0

end Sys2Proof.Machine
end

