-- ==== Sys2Proof/Machine/Ops.lean ====
section
/-! DEFINITION. The shared operations: the buffer memory, the lists of State, what Env draws, the engine queue and the
trace, responses, and the fault row of the sequencer (the block's only way of taking an error, 60_exceptions.md R260)
with the response beside it (R268). -/

namespace Sys2Proof.Machine

/-! ## Memory: one-byte accesses (20_memory.md R67, R68) -/

/-- The byte at an address. -/
def Memory.read (m : Memory) (a : Nat) : Byte :=
  match m with
  | [] => Config.unlistedByte
  | (b, v) :: t => if a = b then v else Memory.read t a

/-- The list without an address. -/
def Memory.erase (m : Memory) (a : Nat) : Memory := m.filter (fun c => c.1 ≠ a)

/-- The list with an entry put before the first higher address. -/
def Memory.insert (m : Memory) (a : Nat) (v : Byte) : Memory :=
  match m with
  | [] => [(a, v)]
  | (b, w) :: t => if a < b then (a, v) :: (b, w) :: t else (b, w) :: Memory.insert t a v

/-- The memory with one byte written; an entry that reads as an unlisted address does is not listed. -/
def Memory.write (m : Memory) (a : Nat) (v : Byte) : Memory :=
  if v = Config.unlistedByte then m.erase a else (m.erase a).insert a v

/-- The canonical form: addresses strictly rising, no entry equal to what an unlisted address reads as. -/
def Memory.wf (m : Memory) : Bool :=
  decide (m.Pairwise (fun x y => x.1 < y.1)) && m.all (fun c => decide (c.2 ≠ Config.unlistedByte))

/-! ## The lists of State -/

/-- Controller `c`. -/
def State.ctrl? (s : State) (c : Nat) : Option Ctrl := s.ctrls[c]?

/-- The state with controller `c` replaced. -/
def State.setCtrl (s : State) (c : Nat) (k : Ctrl) : State := { s with ctrls := s.ctrls.set c k }

/-- Requester `r`; identity 0 is none (10_state.md R27). -/
def State.req? (s : State) (r : Byte) : Option Requester :=
  if r = 0 then none else s.reqs[r.toNat - 1]?

/-- The state with requester `r` changed by `f`. -/
def State.modifyReq (s : State) (r : Byte) (f : Requester → Requester) : State :=
  if r = 0 then s else { s with reqs := s.reqs.modify (r.toNat - 1) f }

/-- `outstanding[r] <- 1` (40_commands.md R110). -/
def State.setOutstanding (s : State) (r : Byte) : State :=
  s.modifyReq r (fun q => { q with outstanding := true })

/-! ## Codes (30_encoding.md R88, R90, R91) -/

/-- The code of an error kind, as RESULT gives it (60_exceptions.md R261). -/
def Kind.code : Kind → Byte
  | .ok => 0 | .channelOccupied => 1 | .busFrequencyInvalid => 2 | .busError => 3 | .noAddressMatch => 4
  | .readOverflow => 5 | .timeout => 6 | .moduleBusy => 7 | .busBusy => 8 | .illegalCommand => 15

/-- A response word: RESULT in bits[7:0], DATA in bits[63:32], the rest 0 (30_encoding.md R88). -/
def responseWord (res : Kind) (data : Word) : Command := data ++ (0#24 ++ res.code)

/-- The bytes of a response as the response port serialises them (20_memory.md R66). -/
def encodeResponse (res : Kind) (data : Word) : List Byte := bytesOfWord (responseWord res data)

/-- The 10-bit value of a bus action (30_encoding.md R90). -/
def BusAction.code : BusAction → BitVec 10
  | .start => 0x100
  | .stop => 0x200
  | .send v => v.setWidth 10

/-- The acknowledge bit of a trace symbol: 0 ACK, 1 NACK (30_encoding.md R91). -/
def Ack.bit : Ack → BitVec 1
  | .ack => 0
  | .nack => 1

/-- The log kind in a LOG symbol (30_encoding.md R91). -/
def LogKind.code : LogKind → Byte
  | .abortTimeout => 1 | .linesNotIdle => 2 | .timingFallback => 3

/-- The 16-bit value of a trace symbol (30_encoding.md R91). -/
def TraceSym.code : TraceSym → BitVec 16
  | .s => 0x1000
  | .sr => 0x2000
  | .w v a => 3#4 ++ (0#3 ++ (a.bit ++ v))
  | .r v a => 4#4 ++ (0#3 ++ (a.bit ++ v))
  | .p => 0x5000
  | .berr => 0x6000
  | .unwedge => 0x7000
  | .log k => 8#4 ++ (0#4 ++ k.code)

/-! ## Draws of Env (00_scope.md R14; log 5, 21) -/

/-- One draw: the next answer in `draws`, else a free value. -/
def State.draw (s : State) : Byte × State :=
  match s.draws with
  | d :: rest => (d, { s with draws := rest })
  | [] => (Config.freeDraw s.freeCount, { s with freeCount := s.freeCount + 1 })

/-- A drawn acknowledge bit (41_sequencer.md R182): bit 0, 1 is NACK. -/
def drawnAck (d : Byte) : Ack := if d.getLsbD 0 then .nack else .ack

/-- A drawn `pin_set` (43_recovery.md R233): bit 0. -/
def drawnPin (d : Byte) : Bool := d.getLsbD 0

/-- Line levels: SDA and SCL high. -/
structure Lines where
  sda : Bool
  scl : Bool
  deriving DecidableEq, Repr

/-- Both lines read high. -/
def Lines.high (l : Lines) : Bool := l.sda && l.scl

/-- `draw lines(c, ps)` (60_exceptions.md R275) on a controller whose busy flag is `busy`: SDA is bit 0 of the draw, SCL
bit 1 (log 14). -/
def State.drawLines (s : State) (busy : Bool) : Lines × State :=
  match s.params.linesModel, busy with
  | .idleWhenNotBusy, false => ({ sda := true, scl := true }, s)
  | _, _ => ({ sda := s.draw.1.getLsbD 0, scl := s.draw.1.getLsbD 1 }, s.draw.2)

/-! ## The engine queue and the trace -/

/-- `trace(c, x)` (00_scope.md R14). -/
def Ctrl.emit (k : Ctrl) (x : TraceSym) : Ctrl := { k with trace := k.trace ++ [x] }

/-- A push is discarded: START or SEND under a fault flag, anything while disabled (41_sequencer.md R185; log 12). -/
def Bus.discards (b : Bus) (a : BusAction) : Bool :=
  !b.enabled || (decide (a ≠ .stop) && (b.busErr || b.nackFlag))

/-- `push(c, a)` (41_sequencer.md R185). -/
def Bus.push (b : Bus) (a : BusAction) : Bus :=
  if b.discards a then b else { b with eq := b.eq ++ [a] }

/-- `send(c, v)` (41_sequencer.md R163): clear `rdy`, queue the byte. -/
def Bus.send (b : Bus) (v : Byte) : Bus := { b with rdy := false }.push (.send v)

/-- A STOP waits in the queue. -/
def Bus.stopQueued (b : Bus) : Bool := b.eq.contains .stop

/-! ## Taking an error, and the response -/

/-- What both fault rows of the sequencer do once the STOP is queued and their flag is cleared: `rdy <- 0`, the error
kind, Idle, `ie <- 0`, `done <- 1` (41_sequencer.md R171, R172). -/
def Ctrl.endWithError (k : Ctrl) (kind : Kind) : Ctrl :=
  { k with
    record := { k.record with errorCode := kind, opState := .idle }
    bus := { k.bus with rdy := false }
    ie := false
    done := true }

/-- `respond(r, res, data)` (00_scope.md R14, 40_commands.md R110). -/
def State.respond (s : State) (r : Byte) (res : Kind) (data : Word) : State :=
  s.modifyReq r (fun q => { outstanding := false, responses := q.responses ++ [responseWord res data] })

end Sys2Proof.Machine
end

