-- ==== Sys2Proof/Machine/Flags.lean ====
section
/-! DEFINITION. The status flags as a requester reads them (10_state.md R48, R49), and the conditions the agents test. -/

namespace Sys2Proof.Machine

/-- The 3-bit code of `operation_state` (10_state.md R24). -/
def OpState.code : OpState → BitVec 3
  | .idle => 0 | .start => 1 | .write => 2 | .read => 3
  | .repeatStart => 4 | .writeSuspended => 5 | .readSuspended => 6

/-- A transfer is active: Start, Write, Read or RepeatStart (10_state.md R53, 41_sequencer.md R160). -/
def OpState.active : OpState → Bool
  | .start | .write | .read | .repeatStart => true
  | .idle | .writeSuspended | .readSuspended => false

/-- The 4-bit code of `error_code` (10_state.md R26). -/
def Kind.nibble (k : Kind) : BitVec 4 := k.code.extractLsb' 0 4

/-- The STATUS word with `err` in bits[7:4] (10_state.md R48). -/
def Ctrl.statusWith (k : Ctrl) (err : BitVec 4) : Word :=
  k.record.owner ++ (0#4 ++ (BitVec.ofBool k.pinSet ++ (BitVec.ofBool k.timing.timingWarn ++
  (BitVec.ofBool k.timing.fastEn ++ (BitVec.ofBool k.done ++ (BitVec.ofBool k.bus.enabled ++
  (BitVec.ofBool k.bus.nackArmed ++ (BitVec.ofBool k.ie ++ (BitVec.ofBool k.bus.stretch ++
  (BitVec.ofBool k.bus.nackFlag ++ (BitVec.ofBool k.bus.busErr ++ (BitVec.ofBool k.bus.rdy ++
  (BitVec.ofBool k.bus.busy ++ (err ++ (0#1 ++ k.record.opState.code)))))))))))))))

/-- The STATUS word (10_state.md R48). -/
def Ctrl.statusWord (k : Ctrl) : Word := k.statusWith k.record.errorCode.nibble

/-- XFERCFG (10_state.md R49). -/
def Ctrl.xferCfg (k : Ctrl) : Word :=
  0#22 ++ (BitVec.ofBool k.record.flagStop ++ (BitVec.ofBool k.record.flagStart ++ k.record.targetAddress))

/-- Registers 1 to 8 of RDREG (10_state.md R49); none at 0 (STATUS) and from 9 on. -/
def Ctrl.plainRegister (k : Ctrl) (clockHz : Word) (index : Nat) : Option Word :=
  match index with
  | 1 => some (k.record.cursor.setWidth 32)
  | 2 => some (k.record.rxLen ++ k.record.txLen)
  | 3 => some k.xferCfg
  | 4 => some k.record.timeoutUs
  | 5 => some (0#16 ++ (k.timing.divHi ++ k.timing.divLo))
  | 6 => some (k.timing.tHigh ++ k.timing.tLow)
  | 7 => some k.timing.targetHz
  | 8 => some clockHz
  | _ => none

/-- The sequencer has an enabled step (41_sequencer.md R160). -/
def Ctrl.seqEnabled (k : Ctrl) : Bool :=
  k.bus.enabled && k.ie && k.record.opState.active && (k.bus.busErr || k.bus.nackFlag || k.bus.rdy)

/-- The engine has an enabled step (41_sequencer.md R180). -/
def Ctrl.engEnabled (k : Ctrl) : Bool :=
  k.bus.enabled && !k.bus.busErr && !k.bus.nackFlag && (!k.bus.eq.isEmpty || k.bus.rxPending)

/-- The orchestrator waits and its completion has come (40_commands.md R121, R122). -/
def Ctrl.completed (k : Ctrl) : Bool := decide (k.orch.phase = .wait) && k.done

/-- The orchestrator has a step other than an expiry (40_commands.md R122, 43_recovery.md R231, R234). -/
def Ctrl.orchEnabled (k : Ctrl) : Bool :=
  match k.orch.recPhase with
  | .none => k.completed
  | .abortWait => !k.bus.stopQueued
  | .resetWait => true

/-- The transfer timeout may fire (60_exceptions.md R273). -/
def Ctrl.timeoutEnabled (m : TimeoutModel) (k : Ctrl) : Bool :=
  decide (k.orch.phase = .wait) && !k.done &&
    match m with
    | .anyTime => true
    | .stuckOnly => !k.seqEnabled && !k.engEnabled

/-- The poll window may end (60_exceptions.md R274). Under STUCK_ONLY a reset's never does, because under either
LINES_MODEL the draw can give both lines high (log 13). -/
def Ctrl.expiryEnabled (m : TimeoutModel) (k : Ctrl) : Bool :=
  match k.orch.recPhase, m with
  | .none, _ => false
  | _, .anyTime => true
  | .abortWait, .stuckOnly => !k.engEnabled
  | .resetWait, .stuckOnly => false

end Sys2Proof.Machine
end

