-- ==== Sys2Proof/Machine/Operands.lean ====
section
/-! DEFINITION. The operand forms: the requester of a command, a port and its controller, a controller index, the
address-phase byte, and the one addressing mode of the buffers. -/

namespace Sys2Proof.Machine

/-- NUM_CTRL of a state (00_scope.md R9; log 17). -/
def State.numCtrl (s : State) : Nat := s.ctrls.length

/-- NUM_REQ of a state (00_scope.md R9; log 17). -/
def State.numReq (s : State) : Nat := s.reqs.length

/-- Port `p` of PORT_MAP; none where `p >= NUM_PORTS` (00_scope.md R10). -/
def State.port? (s : State) (p : Byte) : Option PortEntry := s.params.portMap[p.toNat]?

/-- The address byte with the write bit (30_encoding.md R97). -/
def addrWrite (a : Byte) : Byte := a &&& 0xFE#8

/-- The address byte with the read bit (30_encoding.md R97). -/
def addrRead (a : Byte) : Byte := a ||| 0x01#8

/-- `TXADDR(r, i)` (20_memory.md R60). -/
def txAddr (r : Byte) (i : Nat) : Nat := (r.toNat <<< 17) ||| i

/-- `RXADDR(r, i)` (20_memory.md R60). -/
def rxAddr (r : Byte) (i : Nat) : Nat := (r.toNat <<< 17) ||| (1 <<< 16) ||| i

/-- Requester `r` and index `i` name a location of the buffer space (20_memory.md R60). -/
def State.inBuffers (s : State) (r : Byte) (i : Nat) : Bool :=
  (s.req? r).isSome && decide (i < s.params.bufBytes)

/-- An address is one of requester `r`'s own two buffers (20_memory.md R60, R62). -/
def State.ownsAddress (s : State) (r : Byte) (addr : Word) : Bool :=
  decide (addr.toNat >>> 17 = r.toNat) && s.inBuffers r (addr.toNat % 2 ^ 16)

/-- `tx_buffer[i]` of owner `r` (10_state.md R30, 20_memory.md R61); none outside the buffer space. -/
def State.txByte (s : State) (r : Byte) (i : Nat) : Option Byte :=
  if s.inBuffers r i then some (s.mem.read (txAddr r i)) else none

/-- `rx_buffer[i] <- v` of owner `r` (10_state.md R30, 20_memory.md R61); none outside the buffer space. -/
def State.rxStore (s : State) (r : Byte) (i : Nat) (v : Byte) : Option State :=
  if s.inBuffers r i then some { s with mem := s.mem.write (rxAddr r i) v } else none

/-- Acceptance of a command of requester `r` (30_encoding.md R87, 10_state.md R47, 40_commands.md R110): `run` is its
rule. A command that responds in the accepting step leaves `outstanding[r]` at 0; one that goes on sets it
(`State.setOutstanding`). -/
def State.accept (s : State) (r : Byte) (run : Result) : Result :=
  match s.req? r with
  | none => .refused .badRequester
  | some q => if q.outstanding then .refused .commandOutstanding else run

/-- The answer to an illegal command: IllegalCommand, DATA 0, no other change (30_encoding.md R86). -/
def State.answerIllegal (s : State) (r : Byte) : Result := .next (s.respond r .illegalCommand 0)

/-- A command that names controller `c` (format C): an index out of range is illegal (30_encoding.md R86). -/
def State.onCtrl (s : State) (r c : Byte) (run : Ctrl → Result) : Result :=
  match s.ctrl? c.toNat with
  | none => s.answerIllegal r
  | some k => run k

/-- A command whose port number is out of range (40_commands.md R112). -/
def State.badPort (s : State) (r : Byte) : Result :=
  match s.params.invalidPort with
  | .refuse => .refused .invalidPort
  | .illegal => s.answerIllegal r

/-- A command that names port `p`: the entry of PORT_MAP, or R112. -/
def State.onPort (s : State) (r p : Byte) (run : PortEntry → Result) : Result :=
  match s.port? p with
  | none => s.badPort r
  | some e => run e

/-- The controller a port is on; 00_scope.md R10 says it exists. -/
def State.onPortCtrl (s : State) (e : PortEntry) (run : Ctrl → Result) : Result :=
  match s.ctrl? e.ctrl with
  | none => .fault .portMapBroken
  | some k => run k

end Sys2Proof.Machine
end

