-- ==== Sys2Proof/Machine/Queries.lean ====
section
/-! DEFINITION. The query commands BUSBUSY, LINES and RDREG (40_commands.md R134 to R136). -/

namespace Sys2Proof.Machine

/-- BUSBUSY (40_commands.md R134). -/
def execBusbusy (r c : Byte) (s : State) : Result :=
  s.accept r <| s.onCtrl r c fun k => .next (s.respond r .ok ((BitVec.ofBool k.bus.busy).setWidth 32))

/-- DATA of LINES: bit 0 SDA, bit 1 SCL (40_commands.md R135). -/
def Lines.data (l : Lines) : Word := 0#30 ++ (BitVec.ofBool l.scl ++ BitVec.ofBool l.sda)

/-- LINES (40_commands.md R135). -/
def execLines (r p : Byte) (s : State) : Result :=
  s.accept r <| s.onPort r p fun e =>
    s.onPortCtrl e fun k =>
      .next ((s.drawLines k.bus.busy).2.respond r .ok (s.drawLines k.bus.busy).1.data)

/-- RDREG of STATUS: while a transfer is active bits[7:4] are any value, a draw's low four bits (10_state.md R53; log 8). -/
def readStatus (r : Byte) (k : Ctrl) (s : State) : State :=
  if k.record.opState.active then s.draw.2.respond r .ok (k.statusWith (s.draw.1.extractLsb' 0 4))
  else s.respond r .ok k.statusWord

/-- RDREG (40_commands.md R136). -/
def execRdreg (r c : Byte) (index : Word) (s : State) : Result :=
  s.accept r <| s.onCtrl r c fun k =>
    if index = 0 then .next (readStatus r k s)
    else
      match k.plainRegister s.clockHz index.toNat with
      | some v => .next (s.respond r .ok v)
      | none => s.answerIllegal r

end Sys2Proof.Machine
end

