-- ==== Sys2Proof/Machine/Recovery.lean ====
section
/-! DEFINITION. Abort, reset, recover and unwedge on a controller (43_recovery.md R230 to R237). -/

namespace Sys2Proof.Machine

/-- `abort(c)`, its first step (43_recovery.md R230). -/
def Ctrl.abortStart (k : Ctrl) : Ctrl :=
  let cleared := { k.bus with
    busErr := false, stretch := false, nackFlag := false, eq := [], rxPending := false, rdy := false }
  { k with
    bus := if k.bus.busy then cleared.push .stop else cleared
    orch := { k.orch with abortSoftFail := false, recPhase := .abortWait } }

/-- The window of an abort ends (43_recovery.md R232). -/
def Ctrl.abortExpire (k : Ctrl) : Ctrl :=
  { k.emit (.log .abortTimeout) with
    bus := { k.bus with eq := [], busy := false }
    orch := { k.orch with abortSoftFail := true } }

/-- `reset(c)`, its first step, with the drawn `pin_set` (43_recovery.md R233). -/
def Ctrl.resetStart (k : Ctrl) (pin : Bool) : Ctrl :=
  { k with
    pinSet := pin
    bus := { k.bus with
      enabled := false, eq := [], rdy := false, rxPending := false, afterStart := false, mode := .tx
      busErr := false, nackFlag := false, stretch := false, busy := false, nackArmed := false }
    orch := { k.orch with linesNotIdle := false, recPhase := .resetWait } }

/-- The window of a reset ends (43_recovery.md R234). -/
def Ctrl.resetExpire (k : Ctrl) : Ctrl :=
  { k.emit (.log .linesNotIdle) with orch := { k.orch with linesNotIdle := true } }

/-- Re-enable: the reset finishes (43_recovery.md R235). -/
def Ctrl.resetFinish (k : Ctrl) : Ctrl :=
  { k with
    bus := { k.bus with enabled := true }
    orch := { k.orch with recPhase := .none } }

/-- `recover(c, prior)`, its first step (43_recovery.md R236). -/
def Ctrl.recoverStart (k : Ctrl) (prior : Kind) : Ctrl :=
  { k with orch := { k.orch with recPrior := prior } }.abortStart

/-- Unwedge: a trace mark (43_recovery.md R237; log 16). -/
def Ctrl.unwedge (k : Ctrl) : Ctrl := k.emit .unwedge

/-- A finished abort is followed by a reset: in a recover whose prior error is not NoAddressMatch (43_recovery.md R236),
not in an ABORT command (40_commands.md R137). -/
def Ctrl.resetFollows (k : Ctrl) : Bool :=
  match k.orch.cmd with
  | .abort => false
  | .none | .transfer _ | .reset | .recover => decide (k.orch.recPrior ≠ .noAddressMatch)

end Sys2Proof.Machine
end

