-- ==== Sys2Proof/Machine/Orchestrator.lean ====
section
/-! DEFINITION. The transfer orchestrator (40_commands.md R111 to R126) and the recoveries it runs to their end
(43_recovery.md R231 to R238). -/

namespace Sys2Proof.Machine

/-! ## Parts of the transfer sequence -/

/-- `apply_mux(c, p)` (40_commands.md R116); a port out of range leaves the mux unchanged (91_not_in_source.md). -/
def Ctrl.applyMux (k : Ctrl) (ports : List PortEntry) (p : Byte) : Ctrl :=
  match ports[p.toNat]? with
  | some e => if e.muxed then { k with pinSet := e.pinset } else k
  | none => k

/-- `load(c, fs, fp, n, m, a)` (40_commands.md R117). -/
def Ctrl.load (k : Ctrl) (x : TransferArgs) : Ctrl :=
  { k with
    record := { k.record with
      flagStart := x.fs, flagStop := x.fp, txLen := x.tx, rxLen := x.rx
      targetAddress := x.addr, cursor := 0, errorCode := .ok }
    done := false
    orch := { k.orch with timedOut := false } }

/-- The end of every accepted arming: the state, `ie <- 1`, the latched budget, `O_WAIT` (40_commands.md R118 to R120). -/
def Ctrl.beginWait (k : Ctrl) (st : OpState) : Ctrl :=
  { k with
    record := { k.record with opState := st, waitBudgetUs := k.record.timeoutUs }
    ie := true
    orch := { k.orch with phase := .wait } }

/-- `rdy <- 0; push(c, START)` (40_commands.md R118, R119). -/
def Ctrl.pushStart (k : Ctrl) : Ctrl := { k with bus := { k.bus with rdy := false }.push .start }

/-- A resume of a suspended read the block rejects (40_commands.md R120): post-recovery with BusError. -/
def Ctrl.rejectResume (k : Ctrl) : Ctrl :=
  { k with
    record := { k.record with errorCode := .busError }
    orch := { k.orch with phase := .postRecover } }.recoverStart .busError

/-- `arm(c)` (40_commands.md R118, R119, R120); none in a state R126 calls unreachable. -/
def Ctrl.arm (k : Ctrl) : Option Ctrl :=
  match k.record.opState with
  | .idle => some (k.pushStart.beginWait .start)
  | .writeSuspended =>
    if k.record.txLen = 0 then some (k.pushStart.beginWait .repeatStart) else some (k.beginWait .write)
  | .readSuspended =>
    if k.record.rxLen = 1 ∨ k.record.txLen ≠ 0 then some k.rejectResume else some (k.beginWait .read)
  | .start | .write | .read | .repeatStart => none

/-- Step B of the transfer sequence: load and arm (40_commands.md R111). -/
def stepB (s : State) (c : Nat) (k : Ctrl) (x : TransferArgs) : Result :=
  match (k.load x).arm with
  | some k1 => .next (s.setCtrl c k1)
  | none => .fault .armUnreachable

/-- Release and respond (40_commands.md R125, R137 to R139): ownership, the phase, then the response. -/
def release (s : State) (c : Nat) (k : Ctrl) (res : Kind) (data : Word) : State :=
  (s.setCtrl c
    { k with
      record := { k.record with owner := 0 }
      orch := { k.orch with phase := .free, cmd := .none } }).respond k.orch.curReq res data

/-! ## The end of a recovery -/

/-- The end of post-recovery (40_commands.md R124), up to the release. -/
def Ctrl.postRecovered (k : Ctrl) (ports : List PortEntry) : Ctrl :=
  let m := k.applyMux ports k.orch.curPort
  { m with
    record := { m.record with
      errorCode := if k.orch.timedOut then .timeout else k.record.errorCode
      opState := .idle }
    ie := false }

/-- `operation_state <- Idle; ie <- 0` at the end of a recovery command (40_commands.md R137 to R139). -/
def Ctrl.commandEnded (k : Ctrl) : Ctrl :=
  { k with record := { k.record with opState := .idle }, ie := false }

/-- DATA of a recovery command: bit 0 `abort_soft_fail`, bit 1 `lines_not_idle`, each where the command reports it
(40_commands.md R137 to R139). -/
def recoveryData (linesNotIdle abortSoftFail : Bool) : Word :=
  0#30 ++ (BitVec.ofBool linesNotIdle ++ BitVec.ofBool abortSoftFail)

/-- A recovery has finished: the orchestrator goes on by its phase (43_recovery.md R238; log 9, 10). -/
def recoveryFinished (s : State) (c : Nat) (k : Ctrl) : Result :=
  match k.orch.phase, k.orch.cmd with
  | .preRecover, .transfer x => stepB s c (k.applyMux s.params.portMap k.orch.curPort) x
  | .postRecover, .transfer _ =>
    .next (release s c (k.postRecovered s.params.portMap) (k.postRecovered s.params.portMap).record.errorCode 0)
  | .cmdRecover, .abort => .next (release s c k.commandEnded .ok (recoveryData false k.orch.abortSoftFail))
  | .cmdRecover, .reset => .next (release s c k.commandEnded .ok (recoveryData k.orch.linesNotIdle false))
  | .cmdRecover, .recover =>
    .next (release s c k.commandEnded .ok (recoveryData k.orch.linesNotIdle k.orch.abortSoftFail))
  | _, _ => .fault .phaseUnreachable

/-- An abort has finished: the reset of a recover follows in the same step, else the recovery is over
(43_recovery.md R231, R232, R236; log 9). -/
def abortFinished (s : State) (c : Nat) (k : Ctrl) : Result :=
  if k.resetFollows then .next (s.draw.2.setCtrl c (k.resetStart (drawnPin s.draw.1)))
  else recoveryFinished s c { k with orch := { k.orch with recPhase := .none } }

/-! ## The steps of `Orch[c]` -/

/-- Completion (40_commands.md R122): an error goes to post-recovery, success is released. -/
def completion (s : State) (c : Nat) (k : Ctrl) : State :=
  let k1 := { k with done := false }
  if k.record.errorCode = .busError ∨ k.record.errorCode = .noAddressMatch then
    s.setCtrl c ({ k1 with orch := { k1.orch with phase := .postRecover } }.recoverStart k.record.errorCode)
  else release s c k1 k.record.errorCode 0

/-- The step of `Orch[c]` other than an expiry, on a controller where it is enabled (40_commands.md R122, 43_recovery.md
R231, R234). A reset poll that does not find both lines high leaves the controller as it was. -/
def orchStep (s : State) (c : Nat) (k : Ctrl) : Result :=
  match k.orch.recPhase with
  | .none => .next (completion s c k)
  | .abortWait => abortFinished s c k
  | .resetWait =>
    if (s.drawLines k.bus.busy).1.high then recoveryFinished (s.drawLines k.bus.busy).2 c k.resetFinish
    else .next (s.drawLines k.bus.busy).2

/-- The transfer timeout fires (40_commands.md R123). -/
def Ctrl.timeoutFires (k : Ctrl) : Ctrl :=
  { k with
    ie := false
    orch := { k.orch with timedOut := true, phase := .postRecover } }.recoverStart k.record.errorCode

/-- The poll window ends, on a controller where it may (43_recovery.md R232, R234). -/
def expiryStep (s : State) (c : Nat) (k : Ctrl) : Result :=
  match k.orch.recPhase with
  | .none => .next s
  | .abortWait => abortFinished s c k.abortExpire
  | .resetWait => recoveryFinished s c k.resetExpire.resetFinish

end Sys2Proof.Machine
end

