-- ==== Sys2Proof/Machine/Recoveries.lean ====
section
/-! DEFINITION. The recovery commands ABORT, RESET and RECOVER (40_commands.md R137 to R139): ownership and the first step
of the recovery. Orchestrator.lean runs it to its end. -/

namespace Sys2Proof.Machine

/-- Ownership for a recovery command (40_commands.md R137). -/
def Ctrl.takeFor (k : Ctrl) (r : Byte) (cmd : Running) : Ctrl :=
  { k with
    record := { k.record with owner := r }
    orch := { k.orch with curReq := r, phase := .cmdRecover, cmd := cmd } }

/-- A recovery command on controller `c`: ChannelOccupied if it is owned, else `start` (40_commands.md R137). -/
def onFreeCtrl (r c : Byte) (s : State) (start : Ctrl → State) : Result :=
  s.accept r <| s.onCtrl r c fun k =>
    if k.record.owner ≠ 0 then .next (s.respond r .channelOccupied 0) else .next (start k)

/-- ABORT (40_commands.md R137). -/
def execAbort (r c : Byte) (s : State) : Result :=
  onFreeCtrl r c s fun k => (s.setOutstanding r).setCtrl c.toNat (k.takeFor r .abort).abortStart

/-- RESET (40_commands.md R138). -/
def execReset (r c : Byte) (s : State) : Result :=
  onFreeCtrl r c s fun k =>
    (s.draw.2.setOutstanding r).setCtrl c.toNat ((k.takeFor r .reset).resetStart (drawnPin s.draw.1))

/-- RECOVER (40_commands.md R139). -/
def execRecover (r c : Byte) (s : State) : Result :=
  onFreeCtrl r c s fun k =>
    (s.setOutstanding r).setCtrl c.toNat ((k.takeFor r .recover).recoverStart k.record.errorCode)

end Sys2Proof.Machine
end

