-- ==== Sys2Proof/Machine/Setup.lean ====
section
/-! DEFINITION. The configuration commands SETTO, SETFREQ and CLKCHG (40_commands.md R131 to R133). -/

namespace Sys2Proof.Machine

/-- `timeout_us <- (us == 0 ? DEFAULT_TIMEOUT_US : us)` (40_commands.md R131). -/
def Ctrl.setTimeout (k : Ctrl) (dflt us : Word) : Ctrl :=
  { k with record := { k.record with timeoutUs := if us = 0 then dflt else us } }

/-- The timing fields and the log of a result of `program_timing` (42_timing.md R213 to R217). -/
def Ctrl.program (k : Ctrl) (res : TimingResult) : Ctrl :=
  { k with
    timing := res.write k.timing
    trace := if res.logs then k.trace ++ [.log .timingFallback] else k.trace }

/-- The result kind of `program_timing` (42_timing.md R216). -/
def TimingResult.kind (res : TimingResult) : Kind := if res.isOk then .ok else .busFrequencyInvalid

/-- Controller `k` given a new target frequency (40_commands.md R132). -/
def Ctrl.retarget (k : Ctrl) (table : List CalEntry) (clock hz : Word) : Ctrl :=
  if (programTiming table clock hz).isOk then
    { k with timing := { k.timing with targetHz := hz } }.program (programTiming table clock hz)
  else k

/-- Controller `k` after a clock change (40_commands.md R133). -/
def Ctrl.reclock (k : Ctrl) (table : List CalEntry) (clock : Word) : Ctrl :=
  k.program (programTiming table clock k.timing.targetHz)

/-- The result of CLKCHG: BusFrequencyInvalid if any controller's programming fails (40_commands.md R133). -/
def clockResult (table : List CalEntry) (clock : Word) (ks : List Ctrl) : Kind :=
  if ks.all (fun k : Ctrl => (programTiming table clock k.timing.targetHz).isOk) then .ok else .busFrequencyInvalid

/-- SETTO (40_commands.md R131). -/
def execSetto (r p : Byte) (us : Word) (s : State) : Result :=
  s.accept r <| s.onPort r p fun e =>
    s.onPortCtrl e fun k =>
      .next ((s.setCtrl e.ctrl (k.setTimeout s.params.defaultTimeoutUs us)).respond r .ok 0)

/-- SETFREQ (40_commands.md R132). -/
def execSetfreq (r c : Byte) (hz : Word) (s : State) : Result :=
  s.accept r <| s.onCtrl r c fun k =>
    .next ((s.setCtrl c.toNat (k.retarget s.params.fastCalTable s.clockHz hz)).respond r
      (programTiming s.params.fastCalTable s.clockHz hz).kind 0)

/-- CLKCHG (40_commands.md R133). -/
def execClkchg (r : Byte) (hz : Word) (s : State) : Result :=
  s.accept r <|
    .next ({ s with
        clockHz := hz
        ctrls := s.ctrls.map (fun k : Ctrl => k.reclock s.params.fastCalTable hz) }.respond r
      (clockResult s.params.fastCalTable hz s.ctrls) 0)

end Sys2Proof.Machine
end

