-- ==== Sys2Proof/Machine/Transfers.lean ====
section
/-! DEFINITION. The transfer commands XFER, XFER.S, XFER.P, XFER.SP: step A of the transfer sequence (40_commands.md
R111 to R116) with the flags of each (R127 to R130). -/

namespace Sys2Proof.Machine

/-- Ownership, the running command and the mux (40_commands.md R111, R114, R116). -/
def Ctrl.take (k : Ctrl) (ports : List PortEntry) (r p : Byte) (x : TransferArgs) : Ctrl :=
  { k with
    record := { k.record with owner := r }
    orch := { k.orch with curReq := r, curPort := p, cmd := .transfer x } }.applyMux ports p

/-- The unwedge-then-recover sequence before arming (40_commands.md R111, R115). -/
def Ctrl.preRecover (k : Ctrl) : Ctrl :=
  { k.unwedge with orch := { k.orch with phase := .preRecover } }.recoverStart k.record.errorCode

/-- The rest of step A once ownership is taken: the bus-idle pre-check where it is performed (40_commands.md R115), then
recovery or step B. -/
def preCheck (s : State) (c : Nat) (k : Ctrl) (x : TransferArgs) : Result :=
  if k.record.opState = .idle ∧ x.fs = true then
    if k.bus.busy || !(s.drawLines k.bus.busy).1.high then
      .next ((s.drawLines k.bus.busy).2.setCtrl c k.preRecover)
    else stepB (s.drawLines k.bus.busy).2 c k x
  else stepB s c k x

/-- Step A of a transfer (40_commands.md R111 to R116): short-circuit, port, lengths, ownership, mux, pre-check. -/
def transfer (r p : Byte) (x : TransferArgs) (s : State) : Result :=
  s.accept r <|
    if x.tx = 0 ∧ x.rx = 0 then .next (s.respond r .ok 0)
    else
      s.onPort r p fun e =>
        if s.params.bufBytes < x.tx.toNat ∨ s.params.bufBytes < x.rx.toNat then
          .next (s.respond r .readOverflow 0)
        else
          s.onPortCtrl e fun k =>
            if k.record.owner ≠ 0 then .next (s.respond r .channelOccupied 0)
            else preCheck (s.setOutstanding r) e.ctrl (k.take s.params.portMap r p x) x

/-- XFER (40_commands.md R127). -/
def execXfer (r p a : Byte) (tx rx : Half) (s : State) : Result :=
  transfer r p { fs := false, fp := false, tx := tx, rx := rx, addr := a } s

/-- XFER.S (40_commands.md R128). -/
def execXferS (r p a : Byte) (tx rx : Half) (s : State) : Result :=
  transfer r p { fs := true, fp := false, tx := tx, rx := rx, addr := a } s

/-- XFER.P (40_commands.md R129). -/
def execXferP (r p a : Byte) (tx rx : Half) (s : State) : Result :=
  transfer r p { fs := false, fp := true, tx := tx, rx := rx, addr := a } s

/-- XFER.SP (40_commands.md R130). -/
def execXferSP (r p a : Byte) (tx rx : Half) (s : State) : Result :=
  transfer r p { fs := true, fp := true, tx := tx, rx := rx, addr := a } s

end Sys2Proof.Machine
end

