-- ==== Sys2Proof/Machine/Dispatch.lean ====
section
/-! DEFINITION. Which meaning each command has, one arm per row of the opcode map (30_encoding.md R84). -/

namespace Sys2Proof.Machine

def exec (i : Instr) (s : State) : Host.Outcome State Fault Refusal :=
  match i with
  | .xfer r p a tx rx => Sys2Proof.Machine.execXfer r p a tx rx s
  | .xferS r p a tx rx => Sys2Proof.Machine.execXferS r p a tx rx s
  | .xferP r p a tx rx => Sys2Proof.Machine.execXferP r p a tx rx s
  | .xferSP r p a tx rx => Sys2Proof.Machine.execXferSP r p a tx rx s
  | .setto r p us => Sys2Proof.Machine.execSetto r p us s
  | .setfreq r c hz => Sys2Proof.Machine.execSetfreq r c hz s
  | .clkchg r hz => Sys2Proof.Machine.execClkchg r hz s
  | .busbusy r c => Sys2Proof.Machine.execBusbusy r c s
  | .lines r p => Sys2Proof.Machine.execLines r p s
  | .rdreg r c k => Sys2Proof.Machine.execRdreg r c k s
  | .abort r c => Sys2Proof.Machine.execAbort r c s
  | .reset r c => Sys2Proof.Machine.execReset r c s
  | .recover r c => Sys2Proof.Machine.execRecover r c s

end Sys2Proof.Machine
end

