-- ==== Sys2Proof/Machine/Engine.lean ====
section
/-! DEFINITION. The bus engine and the events Env raises on a controller (41_sequencer.md R180 to R190). -/

namespace Sys2Proof.Machine

/-- Engine action START, popped with `rest` behind it (41_sequencer.md R181). -/
def Ctrl.engStart (k : Ctrl) (rest : List BusAction) : Ctrl :=
  { k.emit (if k.bus.busy then .sr else .s) with
    bus := { k.bus with
      eq := rest
      busy := true
      afterStart := true
      mode := .tx
      rxPending := false
      rdy := if rest.isEmpty then true else k.bus.rdy } }

/-- Engine action SEND(v) answered NACK (41_sequencer.md R182). -/
def Ctrl.engSendNack (k : Ctrl) (v : Byte) : Ctrl :=
  { k.emit (.w v .nack) with
    bus := { k.bus with afterStart := false, nackFlag := true, eq := [], rdy := false } }

/-- Engine action SEND(v) answered ACK, popped with `rest` behind it: a read address turns the bus round, any other
byte leaves the master sending (41_sequencer.md R182). -/
def Ctrl.engSendAck (k : Ctrl) (v : Byte) (rest : List BusAction) : Ctrl :=
  if k.bus.afterStart && v.getLsbD 0 then
    { k.emit (.w v .ack) with
      bus := { k.bus with eq := rest, afterStart := false, mode := .rx, rxPending := true } }
  else
    { k.emit (.w v .ack) with
      bus := { k.bus with
        eq := rest
        afterStart := false
        mode := .tx
        rdy := if rest.isEmpty then true else k.bus.rdy } }

/-- Engine action SEND(v) with the device's answer. -/
def Ctrl.engSend (k : Ctrl) (v : Byte) (rest : List BusAction) (a : Ack) : Ctrl :=
  match a with
  | .ack => k.engSendAck v rest
  | .nack => k.engSendNack v

/-- Engine action receive, with the byte the device sends (41_sequencer.md R183). -/
def Ctrl.engReceive (k : Ctrl) (b : Byte) : Ctrl :=
  { k.emit (.r b (if k.bus.nackArmed then .nack else .ack)) with
    bus := { k.bus with nackArmed := false, data := b, rxPending := false, rdy := true } }

/-- Engine action STOP, popped with `rest` behind it (41_sequencer.md R184). -/
def Ctrl.engStop (k : Ctrl) (rest : List BusAction) : Ctrl :=
  { (if k.bus.busy then k.emit .p else k) with
    bus := { k.bus with
      eq := rest
      busy := false
      rdy := false
      rxPending := false
      afterStart := false
      mode := .tx
      nackArmed := false } }

/-- The step of `Eng[c]` on an enabled controller (41_sequencer.md R180). -/
def engStep (s : State) (c : Nat) (k : Ctrl) : State :=
  match k.bus.eq with
  | .start :: rest => s.setCtrl c (k.engStart rest)
  | .send v :: rest => s.draw.2.setCtrl c (k.engSend v rest (drawnAck s.draw.1))
  | .stop :: rest => s.setCtrl c (k.engStop rest)
  | [] => s.draw.2.setCtrl c (k.engReceive s.draw.1)

/-- `Env` raises a bus error (41_sequencer.md R187). -/
def Ctrl.raiseBusError (k : Ctrl) : Ctrl :=
  { k.emit .berr with bus := { k.bus with busErr := true, eq := [], rxPending := false, rdy := false } }

/-- `Env` sets the stretch flag (41_sequencer.md R188). -/
def Ctrl.raiseStretch (k : Ctrl) : Ctrl := { k with bus := { k.bus with stretch := true } }

end Sys2Proof.Machine
end

