-- ==== Sys2Proof/Machine/Sequencer.lean ====
section
/-! DEFINITION. The byte-level sequencer, one definition per row (41_sequencer.md R160 to R173). -/

namespace Sys2Proof.Machine

/-- Row any, bus error flag (41_sequencer.md R171). -/
def Ctrl.rowBusError (k : Ctrl) : Ctrl :=
  { k with bus := { k.bus.push .stop with busErr := false } }.endWithError .busError

/-- Row any, no-address-match flag (41_sequencer.md R172). -/
def Ctrl.rowNack (k : Ctrl) : Ctrl :=
  { k with bus := { k.bus.push .stop with nackFlag := false } }.endWithError .noAddressMatch

/-- Row Start / RepeatStart, address-phase ready (41_sequencer.md R163). -/
def Ctrl.rowAddress (k : Ctrl) : Ctrl :=
  if k.record.txLen = 0 then
    { k with
      bus := { k.bus with nackArmed := if k.record.rxLen = 1 then true else k.bus.nackArmed }.send
        (addrRead k.record.targetAddress)
      record := { k.record with opState := .read } }
  else
    { k with
      bus := k.bus.send (addrWrite k.record.targetAddress)
      record := { k.record with opState := .write } }

/-- Row Write, `cursor < tx_len`, with the byte at the cursor (41_sequencer.md R164). -/
def Ctrl.rowWriteByte (k : Ctrl) (v : Byte) : Ctrl :=
  { k with
    bus := k.bus.send v
    record := { k.record with cursor := k.record.cursor + 1 } }

/-- Row Write, `cursor == tx_len`, `rx_len == 0` (41_sequencer.md R165). -/
def Ctrl.rowWriteEnd (k : Ctrl) : Ctrl :=
  { k with
    bus := if k.record.flagStop then { k.bus.push .stop with rdy := false } else k.bus
    record := { k.record with
      opState := if k.record.flagStop then .idle else .writeSuspended
      errorCode := .ok }
    ie := false
    done := true }

/-- Row Write, `cursor == tx_len`, `rx_len > 0` (41_sequencer.md R166). -/
def Ctrl.rowWriteToRead (k : Ctrl) : Ctrl :=
  let started := { k.bus with rdy := false }.push .start
  let armed := { started with
    nackArmed := if k.record.rxLen = 1 ∧ k.record.flagStop = true then true else started.nackArmed }
  { k with
    bus := armed.push (.send (addrRead k.record.targetAddress))
    record := { k.record with cursor := 0, opState := .read } }

/-- The first two Read rows, before the byte is read: the STOP or the stalled clock of the final byte, the NACK of the
byte before it (41_sequencer.md R167, R168). Comparisons are on integers. -/
def Ctrl.rowReadArm (k : Ctrl) : Ctrl :=
  if k.record.cursor.toNat + 1 = k.record.rxLen.toNat then
    if k.record.flagStop then { k with bus := k.bus.push .stop } else { k with ie := false }
  else if k.record.cursor.toNat + 2 = k.record.rxLen.toNat ∧ k.record.flagStop = true then
    { k with bus := { k.bus with nackArmed := true } }
  else k

/-- `read_data(c)`: clear `rdy`, and with no STOP queued the engine owes the next byte (41_sequencer.md R186). -/
def Bus.readData (b : Bus) : Bus :=
  { b with rdy := false, rxPending := if b.stopQueued then b.rxPending else true }

/-- Row Read, every byte: the state after the byte is taken from `data` (41_sequencer.md R169). -/
def Ctrl.rowReadByte (k : Ctrl) : Ctrl :=
  { k with
    bus := k.bus.readData
    record := { k.record with cursor := k.record.cursor + 1 } }

/-- Row Read, `cursor == rx_len`, after the byte (41_sequencer.md R170). -/
def Ctrl.rowReadEnd (k : Ctrl) : Ctrl :=
  if k.record.cursor = k.record.rxLen then
    { k with
      record := { k.record with
        errorCode := .ok
        opState := if k.record.flagStop then .idle else .readSuspended }
      ie := false
      done := true }
  else k

/-- The four Read rows in table order (41_sequencer.md R167): what they leave of the controller. -/
def Ctrl.rowRead (k : Ctrl) : Ctrl := k.rowReadArm.rowReadByte.rowReadEnd

/-- The Write rows (41_sequencer.md R164 to R166, R173). -/
def seqWrite (s : State) (c : Nat) (k : Ctrl) : Result :=
  if k.record.cursor.toNat < k.record.txLen.toNat then
    match s.txByte k.record.owner k.record.cursor.toNat with
    | none => .fault .bufferAddress
    | some v => .next (s.setCtrl c (k.rowWriteByte v))
  else if k.record.txLen.toNat < k.record.cursor.toNat then .fault .sequencerUnreachable
  else if k.record.rxLen = 0 then .next (s.setCtrl c k.rowWriteEnd)
  else .next (s.setCtrl c k.rowWriteToRead)

/-- The Read rows (41_sequencer.md R167 to R170, R173). -/
def seqRead (s : State) (c : Nat) (k : Ctrl) : Result :=
  if k.record.rxLen.toNat ≤ k.record.cursor.toNat then .fault .sequencerUnreachable
  else
    match s.rxStore k.record.owner k.record.cursor.toNat k.bus.data with
    | none => .fault .bufferAddress
    | some s1 => .next (s1.setCtrl c k.rowRead)

/-- The step of `Seq[c]` on an enabled controller: one condition, by the priority of 41_sequencer.md R162. In a state
with no row it has no enabled step (R160). -/
def seqStep (s : State) (c : Nat) (k : Ctrl) : Result :=
  if k.bus.busErr then .next (s.setCtrl c k.rowBusError)
  else if k.bus.nackFlag then .next (s.setCtrl c k.rowNack)
  else
    match k.record.opState with
    | .start | .repeatStart => .next (s.setCtrl c k.rowAddress)
    | .write => seqWrite s c k
    | .read => seqRead s c k
    | .idle | .writeSuspended | .readSuspended => .next s

end Sys2Proof.Machine
end

