-- ==== Sys2Proof/Machine/Agents.lean ====
section
/-! DEFINITION. The steps of every agent (00_scope.md R8): a requester's command and buffer accesses, the orchestrator,
the sequencer, the engine, Env; and which of them is next. -/

namespace Sys2Proof.Machine

/-! ## Requesters -/

/-- Requester `r` sends the command word `w` (40_commands.md R110, 30_encoding.md R86, R87, R92). -/
def acceptWord (s : State) (r : Byte) (w : Command) : Result :=
  if reqField w ≠ r then .refused .senderMismatch
  else
    match decodeWord w with
    | .ok i => exec i s
    | .error _ => s.accept r (s.answerIllegal r)

/-- Requester `r` may access the byte at `addr`: one of its own buffers, no command outstanding (20_memory.md R60, R62). -/
def State.mayAccess (s : State) (r : Byte) (addr : Word) : Bool :=
  match s.req? r with
  | some q => !q.outstanding && s.ownsAddress r addr
  | none => false

/-- Requester `r` reads a byte of its buffers: no effect on the block (20_memory.md R62, R68). -/
def bufferRead (s : State) (r : Byte) (addr : Word) : Result :=
  if s.mayAccess r addr then .next s else .refused .bufferAccess

/-- Requester `r` writes a byte of its buffers (20_memory.md R62, R68). -/
def bufferWrite (s : State) (r : Byte) (addr : Word) (v : Byte) : Result :=
  if s.mayAccess r addr then .next { s with mem := s.mem.write addr.toNat v } else .refused .bufferAccess

/-! ## The agents of a controller -/

/-- A step of an agent of controller `c`; where it is not enabled nothing happens (log 4). -/
def State.onAgent (s : State) (c : Nat) (enabled : Ctrl → Bool) (run : Ctrl → Result) : Result :=
  match s.ctrl? c with
  | none => .next s
  | some k => if enabled k then run k else .next s

/-- What an event does (00_scope.md R8). -/
def runEvent (s : State) (e : Event) : Result :=
  match e with
  | .command r w => acceptWord s r w
  | .bufRead r a => bufferRead s r a
  | .bufWrite r a v => bufferWrite s r a v
  | .orch c => s.onAgent c Ctrl.orchEnabled (orchStep s c)
  | .timeout c =>
    s.onAgent c (Ctrl.timeoutEnabled s.params.timeoutModel) (fun k => .next (s.setCtrl c k.timeoutFires))
  | .windowExpiry c => s.onAgent c (Ctrl.expiryEnabled s.params.timeoutModel) (expiryStep s c)
  | .seq c => s.onAgent c Ctrl.seqEnabled (seqStep s c)
  | .eng c => s.onAgent c Ctrl.engEnabled (fun k => .next (engStep s c k))
  | .busError c => s.onAgent c (fun k => k.bus.enabled) (fun k => .next (s.setCtrl c k.raiseBusError))
  | .setStretch c => s.onAgent c (fun k => k.bus.enabled) (fun k => .next (s.setCtrl c k.raiseStretch))

/-! ## Which agent is next (log 3, 23) -/

/-- The eager schedule of 92_eei_decisions.md D57: an engine while one can step, then a sequencer, then an orchestrator.
D57 speaks of one engine, one sequencer and one orchestrator; with several controllers able to step, R8 leaves open which
goes first, and this schedule takes the lowest index (DESIGN CHOICE, log 23). -/
def State.eagerEvent (s : State) : Option Event :=
  match s.ctrls.findIdx? Ctrl.engEnabled with
  | some c => some (.eng c)
  | none =>
    match s.ctrls.findIdx? Ctrl.seqEnabled with
    | some c => some (.seq c)
    | none => (s.ctrls.findIdx? Ctrl.orchEnabled).map Event.orch

/-- The next event, and the state without it: the head of `events`; where that is empty, any agent by a free value
(00_scope.md R8), or the eager schedule, which may have no enabled agent. -/
def State.nextEvent (s : State) : Option Event × State :=
  match s.events with
  | e :: rest => (some e, { s with events := rest })
  | [] =>
    match s.params.schedule with
    | .anyOrder => (some (Config.freeEvent s.freeCount), { s with freeCount := s.freeCount + 1 })
    | .eager => (s.eagerEvent, s)

/-- One step of the block: the next event, or nothing where no agent is enabled. -/
def State.advance (s : State) : Result :=
  match s.nextEvent with
  | (some e, s1) => runEvent s1 e
  | (none, s1) => .next s1

/-- The command word `w`, sent by the requester its REQ field names, as the next event. -/
def State.sendNext (s : State) (w : Command) : State :=
  { s with events := .command (reqField w) w :: s.events }

end Sys2Proof.Machine
end

