-- ==== Sys2Proof/Machine/Step.lean ====
section
/-! DEFINITION. The step of the block (00_scope.md R8) and where it takes its next command from (40_commands.md R110). -/

namespace Sys2Proof.Machine

/-- One atomic step of one agent. -/
def step (s : State) : Host.Outcome State Fault Refusal := s.advance

/-- The state in which the next step accepts the given command of the opcode table: the word arrives on the command
port, sent by the requester its REQ field names (log 7). -/
def State.withFetchWord (s : State) (nbits w : Nat) : State := s.sendNext (tableWord nbits w)

end Sys2Proof.Machine
end

