-- ==== Sys2Proof/Safety.lean ====
section
/-! DEFINITION. What a sound state of the block is: the whole-machine rules the spec states in prose, as an invariant a
step is to keep (10_state.md R23, R26, R27, R40, R41, R47, R52; 40_commands.md R126; 41_sequencer.md R173, R174;
43_recovery.md R239). -/

namespace Sys2Proof.Machine

/-! ## The control invariant -/

/-- The error kinds the record may hold (10_state.md R26). -/
def Kind.recordable : Kind → Bool
  | .ok | .busError | .noAddressMatch | .timeout => true
  | .channelOccupied | .busFrequencyInvalid | .readOverflow | .moduleBusy | .busBusy | .illegalCommand => false

/-- The lengths of a transfer that passed the checks of step A (40_commands.md R112, R113). -/
def TransferArgs.Checked (buf : Nat) (x : TransferArgs) : Prop :=
  ¬(x.tx = 0 ∧ x.rx = 0) ∧ x.tx.toNat ≤ buf ∧ x.rx.toNat ≤ buf

/-- The command an orchestrator runs fits its phase (10_state.md R46; log 11). -/
def Running.Fits (buf : Nat) (cmd : Running) (phase : OrchPhase) : Prop :=
  match phase, cmd with
  | .free, .none => True
  | .preRecover, .transfer x => x.Checked buf
  | .wait, .transfer _ | .postRecover, .transfer _ => True
  | .cmdRecover, .abort | .cmdRecover, .reset | .cmdRecover, .recover => True
  | _, _ => False

/-- The control state of one controller is one the rules produce. -/
structure Ctrl.Sound (buf : Nat) (k : Ctrl) : Prop where
  /-- A controller is owned exactly while a command runs on it (R114, R125, R137). -/
  owned : k.record.owner = 0 ↔ k.orch.phase = .free
  /-- The owner is the requester of the running command. -/
  forOwner : k.record.owner ≠ 0 → k.orch.curReq = k.record.owner
  /-- A recovery is in progress exactly in the three recovery phases (R238). -/
  recovering : k.orch.recPhase = .none ↔ (k.orch.phase = .free ∨ k.orch.phase = .wait)
  /-- The controller is disabled exactly while a reset polls (R40, R233, R235). -/
  disabled : k.bus.enabled = false ↔ k.orch.recPhase = .resetWait
  /-- Interrupts are enabled exactly while a transfer is awaited (R32, R239). -/
  interrupts : k.ie = true ↔ (k.orch.phase = .wait ∧ k.done = false)
  /-- Completion is pending only in the wait (R33). -/
  completes : k.done = true → k.orch.phase = .wait
  /-- In the wait, the transfer is active until its completion (R126). -/
  awaited : k.orch.phase = .wait → (k.record.opState.active = true ↔ k.done = false)
  /-- Between commands the state is Idle or suspended (R126). -/
  rests : k.orch.phase = .free → k.record.opState.active = false
  /-- The pre-recovery runs on an Idle controller (R115). -/
  preIdle : k.orch.phase = .preRecover → k.record.opState = .idle
  /-- The running command fits the phase. -/
  running : k.orch.cmd.Fits buf k.orch.phase
  /-- The record holds only the kinds R26 allows. -/
  kinds : k.record.errorCode.recordable = true
  /-- While a transfer is active the record holds Ok (R117, R123). -/
  activeOk : k.orch.phase = .wait → k.done = false → k.record.errorCode = .ok
  /-- The lengths of the record are within the buffers (R22, R113). -/
  lengths : k.record.txLen.toNat ≤ buf ∧ k.record.rxLen.toNat ≤ buf
  /-- The cursor never passes the longer phase (R23). -/
  cursor : k.record.cursor.toNat ≤ max k.record.txLen.toNat k.record.rxLen.toNat
  /-- In Write the cursor has not passed the write length (R173). -/
  writing : k.orch.phase = .wait → k.record.opState = .write → k.record.cursor.toNat ≤ k.record.txLen.toNat
  /-- In Read a byte is still to come (R173). -/
  reading : k.orch.phase = .wait → k.record.opState = .read → k.record.cursor.toNat < k.record.rxLen.toNat
  /-- Before the address byte the cursor is 0, and a transfer without a write phase has a read phase (R163). -/
  addressing : k.orch.phase = .wait → (k.record.opState = .start ∨ k.record.opState = .repeatStart) →
    k.record.cursor = 0 ∧ (k.record.txLen = 0 → k.record.rxLen ≠ 0)

/-- The control invariant of the block. -/
structure State.Inv (s : State) : Prop where
  /-- Every controller is sound. -/
  sound : ∀ c k, s.ctrl? c = some k → k.Sound s.params.bufBytes
  /-- An owner is a requester with a command outstanding (R27, R47, R110). -/
  ownerWaits : ∀ c k, s.ctrl? c = some k → k.record.owner ≠ 0 →
    ∃ q, s.req? k.record.owner = some q ∧ q.outstanding = true
  /-- A requester with a command outstanding owns a controller (R110). -/
  waiterOwns : ∀ r q, s.req? r = some q → q.outstanding = true → ∃ c k, s.ctrl? c = some k ∧ k.record.owner = r
  /-- A requester owns at most one controller (R47). -/
  ownsOne : ∀ c c' k k', s.ctrl? c = some k → s.ctrl? c' = some k' → k.record.owner ≠ 0 →
    k.record.owner = k'.record.owner → c = c'
  /-- PORT_MAP names controllers of the block (R10). -/
  ports : ∀ e ∈ s.params.portMap, e.ctrl < s.numCtrl
  /-- The buffer space is in its canonical form. -/
  memory : Memory.wf s.mem = true

/-! ## The bus invariant -/

/-- What the engine queue and the flags hold in each state of the sequencer, outside a recovery (10_state.md R41,
41_sequencer.md R163 to R174, R180 to R187). -/
def Bus.Fits (b : Bus) (st : OpState) : Prop :=
  match st with
  | .idle => (b.eq = [] ∨ b.eq = [.stop]) ∧ b.rxPending = false ∧ b.rdy = false
  | .start =>
    (b.eq = [] ∨ b.eq = [.start] ∨ b.eq = [.stop, .start]) ∧ b.rxPending = false ∧
      (b.rdy = true → b.eq = [] ∧ b.busy = true)
  | .repeatStart =>
    (b.eq = [] ∨ b.eq = [.start]) ∧ b.busy = true ∧ b.rxPending = false ∧ (b.rdy = true → b.eq = [])
  | .write =>
    (b.eq = [] ∨ ∃ v, b.eq = [.send v]) ∧ b.busy = true ∧ b.rxPending = false ∧
      (b.rdy = true → b.eq = [] ∧ b.afterStart = false) ∧
      (∀ v, b.eq = [.send v] → b.afterStart = true → v.getLsbD 0 = false)
  | .read =>
    (b.eq = [] ∨ (∃ v, b.eq = [.send v]) ∨ ∃ v, b.eq = [.start, .send v]) ∧ b.busy = true ∧
      (b.rxPending = true → b.eq = []) ∧ (b.rdy = true → b.eq = [] ∧ b.rxPending = false)
  | .writeSuspended =>
    b.eq = [] ∧ b.busy = true ∧ b.rxPending = false ∧ (b.rdy = true ∨ b.busErr = true) ∧
      (b.rdy = true → b.afterStart = false)
  | .readSuspended =>
    b.eq = [] ∧ b.busy = true ∧ (b.rdy = true ∨ b.rxPending = true ∨ b.busErr = true) ∧
      ¬(b.rdy = true ∧ b.rxPending = true)

/-- The bus side of one controller is one the rules produce. -/
structure Ctrl.BusSound (k : Ctrl) : Prop where
  /-- Outside a recovery the queue and the flags fit the state. -/
  fits : k.orch.recPhase = .none → k.bus.Fits k.record.opState
  /-- While an abort polls, only its STOP is queued (R230). -/
  aborting : k.orch.recPhase = .abortWait →
    (k.bus.eq = [] ∨ k.bus.eq = [.stop]) ∧ k.bus.rxPending = false ∧ k.bus.rdy = false
  /-- While a reset polls, the engine is empty and every bus flag is clear (R233, R190). -/
  resetting : k.orch.recPhase = .resetWait →
    k.bus.eq = [] ∧ k.bus.rxPending = false ∧ k.bus.rdy = false ∧ k.bus.busy = false ∧ k.bus.busErr = false ∧
      k.bus.nackFlag = false
  /-- A NACK is pending only while its transfer is awaited, or with a bus error taken before it, and never with the bus
  suspended (R162, R172, R182). -/
  nacks : k.bus.nackFlag = true → k.orch.phase = .wait ∧ (k.done = true → k.record.errorCode = .busError) ∧
    k.record.opState ≠ .writeSuspended ∧ k.record.opState ≠ .readSuspended
  /-- Under a bus error the queue is empty and no byte is owed or ready (R185, R187, R189). -/
  faulted : k.bus.busErr = true → k.bus.eq = [] ∧ k.bus.rxPending = false ∧ k.bus.rdy = false
  /-- Under a NACK nothing but a STOP is queued, and no byte is owed or ready (R182, R185, R189). -/
  refusedByte : k.bus.nackFlag = true →
    (k.bus.eq = [] ∨ k.bus.eq = [.stop]) ∧ k.bus.rxPending = false ∧ k.bus.rdy = false

/-- Every controller's bus side is sound. -/
structure State.BusInv (s : State) : Prop where
  sound : ∀ c k, s.ctrl? c = some k → k.BusSound

/-! ## The words the statements are made of -/

/-- The state in which `e` is the next event. -/
def State.withEvent (s : State) (e : Event) : State := { s with events := e :: s.events }

/-- The transfer command with the given START and STOP flags: XFER, XFER.S, XFER.P or XFER.SP (40_commands.md R127 to
R130). -/
def xferOf (fs fp : Bool) (r p a : Byte) (n m : Half) : Instr :=
  match fs, fp with
  | false, false => .xfer r p a n m
  | true, false => .xferS r p a n m
  | false, true => .xferP r p a n m
  | true, true => .xferSP r p a n m

/-- The responses delivered to requester `r`, oldest first. -/
def State.responsesOf (s : State) (r : Byte) : List Command :=
  match s.req? r with
  | some q => q.responses
  | none => []

/-- Requester `r`, which is `q`, may send a command (10_state.md R47, 30_encoding.md R87): it exists and has none
outstanding. -/
structure State.Ready (s : State) (r : Byte) (q : Requester) : Prop where
  exists_ : s.req? r = some q
  idle : q.outstanding = false

/-- Port `p` is entry `e` of PORT_MAP, on controller `k` (00_scope.md R10). -/
structure State.PortOn (s : State) (p : Byte) (e : PortEntry) (k : Ctrl) : Prop where
  entry : s.port? p = some e
  ctrl : s.ctrl? e.ctrl = some k

/-- A transfer of `n` bytes out and `m` bytes in passes the length checks of step A (40_commands.md R112, R113). -/
structure State.LengthsOk (s : State) (n m : Half) : Prop where
  some_ : ¬(n = 0 ∧ m = 0)
  out : n.toNat ≤ s.params.bufBytes
  in_ : m.toNat ≤ s.params.bufBytes

/-- The sequencer of `k` is in state `st` with a byte position ready and no fault flag (41_sequencer.md R160, R162). -/
structure Ctrl.SeqReady (k : Ctrl) (st : OpState) : Prop where
  enabled : k.bus.enabled = true
  ie : k.ie = true
  state : k.record.opState = st
  noBusErr : k.bus.busErr = false
  noNack : k.bus.nackFlag = false
  rdy : k.bus.rdy = true

/-- The engine of `k` may step (41_sequencer.md R180). -/
structure Ctrl.EngReady (k : Ctrl) : Prop where
  enabled : k.bus.enabled = true
  noBusErr : k.bus.busErr = false
  noNack : k.bus.nackFlag = false

/-- The word `d` shows the status of `k` as 10_state.md R48 lays it out, with `err` in bits[7:4]. -/
structure Ctrl.StatusShown (k : Ctrl) (err : BitVec 4) (d : Word) : Prop where
  state : d.extractLsb' 0 3 = k.record.opState.code
  bit3 : d.getLsbD 3 = false
  error : d.extractLsb' 4 4 = err
  busy : d.getLsbD 8 = k.bus.busy
  rdy : d.getLsbD 9 = k.bus.rdy
  busErr : d.getLsbD 10 = k.bus.busErr
  nackFlag : d.getLsbD 11 = k.bus.nackFlag
  stretch : d.getLsbD 12 = k.bus.stretch
  ie : d.getLsbD 13 = k.ie
  nackArmed : d.getLsbD 14 = k.bus.nackArmed
  enabled : d.getLsbD 15 = k.bus.enabled
  done : d.getLsbD 16 = k.done
  fastEn : d.getLsbD 17 = k.timing.fastEn
  timingWarn : d.getLsbD 18 = k.timing.timingWarn
  pinSet : d.getLsbD 19 = k.pinSet
  zeros : d.extractLsb' 20 4 = 0
  owner : d.extractLsb' 24 8 = k.record.owner

/-- A command word is illegal for a block of `numCtrl` controllers (30_encoding.md R84 to R86): an unknown opcode, a
nonzero reserved field, a controller index out of range, or an RDREG index of 9 or more. -/
def IllegalWord (numCtrl : Nat) (w : Command) : Prop :=
  opField w ∉ ([0x10, 0x11, 0x12, 0x13, 0x20, 0x21, 0x22, 0x30, 0x31, 0x32, 0x40, 0x41, 0x42] : List Byte) ∨
  (opField w ∈ ([0x20, 0x21, 0x22, 0x30, 0x31, 0x32, 0x40, 0x41, 0x42] : List Byte) ∧ addrField w ≠ 0) ∨
  (opField w = 0x22 ∧ idxField w ≠ 0) ∨
  (opField w ∈ ([0x30, 0x31, 0x40, 0x41, 0x42] : List Byte) ∧ argField w ≠ 0) ∨
  (opField w ∈ ([0x21, 0x30, 0x32, 0x40, 0x41, 0x42] : List Byte) ∧ numCtrl ≤ (idxField w).toNat) ∨
  (opField w = 0x32 ∧ 9 ≤ (argField w).toNat)

/-- The events of `es`, one step each, from `s`; none where a step stops. -/
def runEvents (es : List Event) (s : State) : Option State :=
  match es with
  | [] => some s
  | e :: rest =>
    match step (s.withEvent e) with
    | .next t => runEvents rest t
    | .fault _ | .refused _ => none

/-- The controller `k` released: no owner, no command, nothing running (40_commands.md R125). -/
def Ctrl.released (k : Ctrl) : Ctrl :=
  { k with
    record := { k.record with owner := 0 }
    orch := { k.orch with phase := .free, cmd := .none } }

end Sys2Proof.Machine
end

