-- ==== Sys2Proof/Certificates/Slice0/Obligations.lean ====
section
/-! DEFINITION. The statements for the provers: the spec's numbered rules, instruction by instruction, and the rules of
the whole machine. Each is over every state, every parameter of the block and every answer of Env. -/

section

open Sys2Proof Sys2Proof.Machine

/-! ## Encoding (30_encoding.md) -/

/-- R80 to R86, R96: decoding the bytes of a well-formed command gives it back, with the bytes after it. -/
def Obligations.DecodeOfEncode : Prop :=
  ∀ (i : Instr) (rest : List Byte), i.wellFormed = true → decode (encode i ++ rest) = .ok (i, rest)

/-- R80 to R86: a word that decodes is the encoding of what it decodes to, which is well-formed. No two words mean one
command, and no bit of a word is dropped. -/
def Obligations.EncodeOfDecode : Prop :=
  ∀ (w : Command) (i : Instr), decodeWord w = .ok i → encodeWord i = w ∧ i.wellFormed = true

/-- R92: decoding is total, and what it does not accept are the words that R84 to R86 call illegal, for a block with
controllers enough for any index. -/
def Obligations.DecodeRejectsIllegalWords : Prop :=
  ∀ w : Command, (∃ e, decodeWord w = .error e) ↔ IllegalWord 256 w

/-- R95: the worked encodings, both ways. -/
def Obligations.WorkedEncodings : Prop :=
  ∀ x ∈ ([
      (.xferSP 1 0 0xA0 2 0, 0x00000002A0000113), (.xferSP 1 0 0xA0 0 2, 0x00020000A0000113),
      (.xferS 1 0 0xA0 1 0, 0x00000001A0000111), (.xferP 1 0 0xA0 0 1, 0x00010000A0000112),
      (.xfer 2 1 0x50 3 4, 0x0004000350010210), (.setto 1 0 25000, 0x000061A800000120),
      (.setfreq 1 0 100000, 0x000186A000000121), (.clkchg 1 15000000, 0x00E4E1C000000122),
      (.busbusy 1 0, 0x0000000000000130), (.lines 1 0, 0x0000000000000131),
      (.rdreg 1 0 1, 0x0000000100000132), (.abort 1 0, 0x0000000000000140),
      (.reset 1 0, 0x0000000000000141), (.recover 1 0, 0x0000000000000142)] : List (Instr × Command)),
    encodeWord x.1 = x.2 ∧ decodeWord x.2 = .ok x.1

/-- R90 and R91: the numbers of bus actions and of trace symbols, field by field. -/
def Obligations.ActionAndTraceCodes : Prop :=
  BusAction.start.code = 0x100 ∧ BusAction.stop.code = 0x200 ∧
  (∀ v : Byte, (BusAction.send v).code.toNat = v.toNat) ∧
  TraceSym.s.code = 0x1000 ∧ TraceSym.sr.code = 0x2000 ∧ TraceSym.p.code = 0x5000 ∧ TraceSym.berr.code = 0x6000 ∧
  TraceSym.unwedge.code = 0x7000 ∧
  (∀ (v : Byte) (a : Ack), (TraceSym.w v a).code.toNat = 0x3000 + (if a = .nack then 0x100 else 0) + v.toNat) ∧
  (∀ (v : Byte) (a : Ack), (TraceSym.r v a).code.toNat = 0x4000 + (if a = .nack then 0x100 else 0) + v.toNat) ∧
  (TraceSym.log .abortTimeout).code = 0x8001 ∧ (TraceSym.log .linesNotIdle).code = 0x8002 ∧
  (TraceSym.log .timingFallback).code = 0x8003

/-- R88, R110: what accepting a command that goes on, and answering one, change. Accepting marks the requester
outstanding. Answering frees it and gives it one more word, RESULT in bits[7:0], zeros in bits[31:8], DATA in
bits[63:32], with the codes of R261. Everything else is as it was. R66: of a command or response word and of a register
value, byte k holds bits[8k+7:8k]; so the bytes of a response are the code, three zeros and the bytes of DATA. -/
def Obligations.AcceptanceAndAnswer : Prop :=
  ∀ (s : State) (r : Byte) (q : Requester) (res : Kind) (d : Word), s.req? r = some q →
    (s.setOutstanding r).req? r = some { q with outstanding := true } ∧
    (∀ r', r' ≠ r → (s.setOutstanding r).req? r' = s.req? r') ∧
    (s.setOutstanding r) = { s with reqs := (s.setOutstanding r).reqs } ∧
    (s.respond r res d).req? r = some { outstanding := false, responses := q.responses ++ [responseWord res d] } ∧
    (∀ r', r' ≠ r → (s.respond r res d).req? r' = s.req? r') ∧
    (s.respond r res d) = { s with reqs := (s.respond r res d).reqs } ∧
    (responseWord res d).extractLsb' 0 8 = res.code ∧ (responseWord res d).extractLsb' 8 24 = 0 ∧
    (responseWord res d).extractLsb' 32 32 = d ∧
    [Kind.ok, .channelOccupied, .busFrequencyInvalid, .busError, .noAddressMatch, .readOverflow, .timeout, .moduleBusy,
      .busBusy, .illegalCommand].map Kind.code = [0, 1, 2, 3, 4, 5, 6, 7, 8, 15] ∧
    (∀ w : Command, (bytesOfWord w).length = 8 ∧
      ∀ j, j < 8 → (bytesOfWord w)[j]? = some (w.extractLsb' (8 * j) 8)) ∧
    (∀ v : Word, (bytesOfRegister v).length = 4 ∧
      ∀ j, j < 4 → (bytesOfRegister v)[j]? = some (v.extractLsb' (8 * j) 8)) ∧
    encodeResponse res d = [res.code, 0, 0, 0] ++ bytesOfRegister d

/-! ## A step runs the decoded command (00_scope.md R8, 40_commands.md R110) -/

/-- A word that a requester sends as the next event, and that decodes to `i` with that requester in REQ, is run by the
next step as `exec i`; so is the word of an opcode-table row placed by `withFetchWord`. -/
def Obligations.StepRunsDecodedCommand : Prop :=
  (∀ (s : State) (r : Byte) (w : Command) (i : Instr), decodeWord w = .ok i → reqField w = r →
    step (s.withEvent (.command r w)) = exec i s) ∧
  (∀ (s : State) (nbits w : Nat) (i : Instr), decodeTableWord nbits w = some i →
    step (s.withFetchWord nbits w) = exec i s)

/-- R86: an illegal command of a requester that may send is answered IllegalCommand, DATA 0, and changes nothing else. -/
def Obligations.IllegalCommandsAnswered : Prop :=
  ∀ (s : State) (r : Byte) (q : Requester) (w : Command), s.Ready r q → reqField w = r → IllegalWord s.numCtrl w →
    step (s.withEvent (.command r w)) = .next (s.respond r .illegalCommand 0)

/-- R87 and R47: a word whose REQ is 0, exceeds NUM_REQ or is not the sender is refused; so is any word of a requester
with a command outstanding. -/
def Obligations.RefusedCommands : Prop :=
  (∀ (s : State) (r : Byte) (w : Command),
    reqField w = 0 ∨ s.numReq < (reqField w).toNat ∨ reqField w ≠ r →
    ∃ why, step (s.withEvent (.command r w)) = .refused why) ∧
  (∀ (s : State) (r : Byte) (q : Requester) (w : Command), s.req? r = some q → q.outstanding = true →
    reqField w = r → step (s.withEvent (.command r w)) = .refused .commandOutstanding)

/-! ## Transfers: XFER, XFER.S, XFER.P, XFER.SP (40_commands.md R111 to R130) -/

/-- R112, R113: the checks before ownership. The zero-length transfer is answered Ok whatever its port and whoever owns
the controller; any other transfer on a port out of range is refused, or answered IllegalCommand, as INVALID_PORT says; a
length over BUF_BYTES is answered ReadOverflow, even on an owned controller. -/
def Obligations.ChecksBeforeOwnership : Prop :=
  ∀ (s : State) (r : Byte) (q : Requester) (fs fp : Bool) (p a : Byte) (n m : Half), s.Ready r q →
    (n = 0 → m = 0 → exec (xferOf fs fp r p a n m) s = .next (s.respond r .ok 0)) ∧
    (¬(n = 0 ∧ m = 0) → s.params.numPorts ≤ p.toNat →
      exec (xferOf fs fp r p a n m) s =
        match s.params.invalidPort with
        | .refuse => .refused .invalidPort
        | .illegal => .next (s.respond r .illegalCommand 0)) ∧
    (p.toNat < s.params.numPorts → (s.params.bufBytes < n.toNat ∨ s.params.bufBytes < m.toNat) →
      exec (xferOf fs fp r p a n m) s = .next (s.respond r .readOverflow 0))

/-- R114: the check-and-set. An owned controller answers ChannelOccupied and nothing is written; on an unowned one of a
sound block, the step goes on, and the controller is the requester's. -/
def Obligations.OwnershipCheckAndSet : Prop :=
  ∀ (s : State) (r : Byte) (q : Requester) (fs fp : Bool) (p a : Byte) (n m : Half) (e : PortEntry) (k : Ctrl),
    s.Ready r q → s.PortOn p e k → s.LengthsOk n m →
    (k.record.owner ≠ 0 → exec (xferOf fs fp r p a n m) s = .next (s.respond r .channelOccupied 0)) ∧
    (k.record.owner = 0 → s.Inv →
      ∃ t k', exec (xferOf fs fp r p a n m) s = .next t ∧ t.ctrl? e.ctrl = some k' ∧ k'.record.owner = r ∧
        t.req? r = some { q with outstanding := true })

/-- R116 to R118: from Idle, without START or with the bus idle, a transfer (XFER, XFER.S, XFER.P, XFER.SP) takes the
controller, applies the mux, loads its operands, queues a START (unless a fault flag discards it, R185), enables
interrupts and waits. -/
def Obligations.TransferArmsFromIdle : Prop :=
  ∀ (s : State) (r : Byte) (q : Requester) (fs fp : Bool) (p a : Byte) (n m : Half) (e : PortEntry) (k : Ctrl),
    s.Ready r q → s.PortOn p e k → s.LengthsOk n m → k.record.owner = 0 → k.record.opState = .idle →
    k.bus.enabled = true →
    let armed : Ctrl :=
      { k with
        record :=
          { flagStart := fs, flagStop := fp, txLen := n, rxLen := m, cursor := 0, opState := .start,
            targetAddress := a, errorCode := .ok, owner := r, timeoutUs := k.record.timeoutUs,
            waitBudgetUs := k.record.timeoutUs }
        pinSet := if e.muxed then e.pinset else k.pinSet
        ie := true
        done := false
        bus :=
          { k.bus with
            rdy := false
            eq := if k.bus.busErr || k.bus.nackFlag then k.bus.eq else k.bus.eq ++ [.start] }
        orch :=
          { k.orch with
            phase := .wait, curReq := r, curPort := p, timedOut := false
            cmd := .transfer { fs := fs, fp := fp, tx := n, rx := m, addr := a } } }
    (fs = false → exec (xferOf fs fp r p a n m) s = .next ((s.setOutstanding r).setCtrl e.ctrl armed)) ∧
    (fs = true → k.bus.busy = false → (s.drawLines false).1 = { sda := true, scl := true } →
      exec (xferOf fs fp r p a n m) s =
        .next (((s.drawLines false).2.setOutstanding r).setCtrl e.ctrl armed))

/-- R115: from Idle with START and the bus not idle, the transfer takes the controller, applies the mux, leaves the
unwedge mark and starts the abort of a recovery for the error of the transfer before. -/
def Obligations.BusyBusIsRecoveredFirst : Prop :=
  ∀ (s : State) (r : Byte) (q : Requester) (fp : Bool) (p a : Byte) (n m : Half) (e : PortEntry) (k : Ctrl),
    s.Ready r q → s.PortOn p e k → s.LengthsOk n m → k.record.owner = 0 → k.record.opState = .idle →
    k.bus.enabled = true →
    (k.bus.busy = true ∨ (s.drawLines k.bus.busy).1 ≠ { sda := true, scl := true }) →
    exec (xferOf true fp r p a n m) s =
      .next (((s.drawLines k.bus.busy).2.setOutstanding r).setCtrl e.ctrl
        { k with
          record := { k.record with owner := r }
          pinSet := if e.muxed then e.pinset else k.pinSet
          trace := k.trace ++ [.unwedge]
          bus :=
            { k.bus with
              busErr := false, stretch := false, nackFlag := false, rxPending := false, rdy := false
              eq := if k.bus.busy then [.stop] else [] }
          orch :=
            { k.orch with
              phase := .preRecover, recPhase := .abortWait, recPrior := k.record.errorCode, abortSoftFail := false
              curReq := r, curPort := p
              cmd := .transfer { fs := true, fp := fp, tx := n, rx := m, addr := a } } })

/-- R119: a transfer on a suspended write resumes it, whatever its START flag: with nothing to write it queues a
repeated START, otherwise it goes on writing with the ready condition left as it is. -/
def Obligations.TransferResumesSuspendedWrite : Prop :=
  ∀ (s : State) (r : Byte) (q : Requester) (fs fp : Bool) (p a : Byte) (n m : Half) (e : PortEntry) (k : Ctrl),
    s.Ready r q → s.PortOn p e k → s.LengthsOk n m → k.record.owner = 0 → k.record.opState = .writeSuspended →
    k.bus.enabled = true →
    exec (xferOf fs fp r p a n m) s =
      .next ((s.setOutstanding r).setCtrl e.ctrl
        { k with
          record :=
            { flagStart := fs, flagStop := fp, txLen := n, rxLen := m, cursor := 0,
              opState := if n = 0 then .repeatStart else .write,
              targetAddress := a, errorCode := .ok, owner := r, timeoutUs := k.record.timeoutUs,
              waitBudgetUs := k.record.timeoutUs }
          pinSet := if e.muxed then e.pinset else k.pinSet
          ie := true
          done := false
          bus :=
            if n = 0 then
              { k.bus with
                rdy := false
                eq := if k.bus.busErr || k.bus.nackFlag then k.bus.eq else k.bus.eq ++ [.start] }
            else k.bus
          orch :=
            { k.orch with
              phase := .wait, curReq := r, curPort := p, timedOut := false
              cmd := .transfer { fs := fs, fp := fp, tx := n, rx := m, addr := a } } })

/-- R120: a transfer on a suspended read resumes it if it writes nothing and reads other than one byte; otherwise it is
rejected with BusError and the recovery for it starts. -/
def Obligations.TransferResumesSuspendedRead : Prop :=
  ∀ (s : State) (r : Byte) (q : Requester) (fs fp : Bool) (p a : Byte) (n m : Half) (e : PortEntry) (k : Ctrl),
    s.Ready r q → s.PortOn p e k → s.LengthsOk n m → k.record.owner = 0 → k.record.opState = .readSuspended →
    k.bus.enabled = true →
    (n = 0 → m ≠ 1 →
      exec (xferOf fs fp r p a n m) s =
        .next ((s.setOutstanding r).setCtrl e.ctrl
          { k with
            record :=
              { flagStart := fs, flagStop := fp, txLen := n, rxLen := m, cursor := 0, opState := .read,
                targetAddress := a, errorCode := .ok, owner := r, timeoutUs := k.record.timeoutUs,
                waitBudgetUs := k.record.timeoutUs }
            pinSet := if e.muxed then e.pinset else k.pinSet
            ie := true
            done := false
            orch :=
              { k.orch with
                phase := .wait, curReq := r, curPort := p, timedOut := false
                cmd := .transfer { fs := fs, fp := fp, tx := n, rx := m, addr := a } } })) ∧
    (n ≠ 0 ∨ m = 1 →
      exec (xferOf fs fp r p a n m) s =
        .next ((s.setOutstanding r).setCtrl e.ctrl
          { k with
            record :=
              { k.record with
                flagStart := fs, flagStop := fp, txLen := n, rxLen := m, cursor := 0, targetAddress := a
                errorCode := .busError, owner := r }
            pinSet := if e.muxed then e.pinset else k.pinSet
            done := false
            bus :=
              { k.bus with
                busErr := false, stretch := false, nackFlag := false, rxPending := false, rdy := false
                eq := if k.bus.busy then [.stop] else [] }
            orch :=
              { k.orch with
                phase := .postRecover, recPhase := .abortWait, recPrior := .busError, abortSoftFail := false
                curReq := r, curPort := p, timedOut := false
                cmd := .transfer { fs := fs, fp := fp, tx := n, rx := m, addr := a } } }))

/-! ## Configuration and queries (40_commands.md R131 to R136) -/

/-- R131: SETTO writes the timeout of the port's controller, 0 meaning DEFAULT_TIMEOUT_US, and answers Ok; on a port out
of range it is refused or answered IllegalCommand. -/
def Obligations.SettoWritesTimeout : Prop :=
  ∀ (s : State) (r : Byte) (q : Requester) (p : Byte) (us : Word), s.Ready r q →
    (∀ e k, s.PortOn p e k →
      exec (.setto r p us) s =
        .next ((s.setCtrl e.ctrl
          { k with record :=
            { k.record with timeoutUs := if us = 0 then s.params.defaultTimeoutUs else us } }).respond r .ok 0)) ∧
    (s.params.numPorts ≤ p.toNat →
      exec (.setto r p us) s =
        match s.params.invalidPort with
        | .refuse => .refused .invalidPort
        | .illegal => .next (s.respond r .illegalCommand 0))

/-- R132: SETFREQ programs the timing fields of its controller; where `program_timing` fails nothing changes but the
answer, BusFrequencyInvalid. -/
def Obligations.SetfreqProgramsController : Prop :=
  ∀ (s : State) (r : Byte) (q : Requester) (c : Byte) (hz : Word) (k : Ctrl), s.Ready r q →
    s.ctrl? c.toNat = some k →
    exec (.setfreq r c hz) s =
      match programTiming s.params.fastCalTable s.clockHz hz with
      | .invalid => .next (s.respond r .busFrequencyInvalid 0)
      | .calibrated tl th =>
        .next ((s.setCtrl c.toNat
          { k with timing :=
            { k.timing with targetHz := hz, tLow := tl, tHigh := th, fastEn := true, timingWarn := false } }).respond
          r .ok 0)
      | .divider d warn =>
        .next ((s.setCtrl c.toNat
          { k with
            timing :=
              { k.timing with
                targetHz := hz, divLo := d.extractLsb' 0 8, divHi := d.extractLsb' 8 8, fastEn := false
                timingWarn := warn }
            trace := if warn then k.trace ++ [.log .timingFallback] else k.trace }).respond r .ok 0)

/-- R133: CLKCHG writes the clock and reprograms every controller with its own target; a controller whose programming
fails keeps its fields, and the answer is then BusFrequencyInvalid. -/
def Obligations.ClkchgReprogramsAll : Prop :=
  ∀ (s : State) (r : Byte) (q : Requester) (hz : Word), s.Ready r q →
    ∃ (t : State) (res : Kind), exec (.clkchg r hz) s = .next (t.respond r res 0) ∧
      t = { s with clockHz := hz, ctrls := t.ctrls } ∧ t.ctrls.length = s.ctrls.length ∧
      (res = .ok ∨ res = .busFrequencyInvalid) ∧
      (res = .ok ↔ ∀ k ∈ s.ctrls, programTiming s.params.fastCalTable hz k.timing.targetHz ≠ .invalid) ∧
      ∀ c k, s.ctrl? c = some k →
        t.ctrl? c = some
          (match programTiming s.params.fastCalTable hz k.timing.targetHz with
          | .invalid => k
          | .calibrated tl th =>
            { k with timing := { k.timing with tLow := tl, tHigh := th, fastEn := true, timingWarn := false } }
          | .divider d warn =>
            { k with
              timing :=
                { k.timing with
                  divLo := d.extractLsb' 0 8, divHi := d.extractLsb' 8 8, fastEn := false, timingWarn := warn }
              trace := if warn then k.trace ++ [.log .timingFallback] else k.trace })

/-- R211 to R217: `program_timing` in numbers: no write for a target of 0; a calibrated pair for a fast target of the
table; else the divider D = clock / (4 * target), no write where D is 0 or over 0xFFFF, the warning where the target is
fast. -/
def Obligations.ProgramTimingRule : Prop :=
  ∀ (table : List CalEntry) (clock target : Word),
    let found := table.find? (fun e => decide (e.clock = clock ∧ e.target = target))
    let d := clock.toNat / (4 * target.toNat)
    (target = 0 → programTiming table clock target = .invalid) ∧
    (∀ e, target ≠ 0 → 100000 < target.toNat → found = some e →
      programTiming table clock target = .calibrated e.tLow e.tHigh) ∧
    (target ≠ 0 → (target.toNat ≤ 100000 ∨ found = none) →
      ((d = 0 ∨ 0xFFFF < d) → programTiming table clock target = .invalid) ∧
      (0 < d → d ≤ 0xFFFF → ∃ v : Half, v.toNat = d ∧
        programTiming table clock target = .divider v (decide (100000 < target.toNat))))

/-- R221: the worked values, with an empty table. -/
def Obligations.WorkedTimingValues : Prop :=
  programTiming [] 15000000 100000 = .divider 37 false ∧ (37 : Half).extractLsb' 0 8 = 0x25 ∧
  (37 : Half).extractLsb' 8 8 = 0 ∧
  programTiming [] 48000000 100000 = .divider 120 false ∧ (120 : Half).extractLsb' 0 8 = 0x78 ∧
  programTiming [] 100000000 50000 = .divider 500 false ∧ (500 : Half).extractLsb' 0 8 = 0xF4 ∧
  (500 : Half).extractLsb' 8 8 = 0x01 ∧
  programTiming [] 4000000 400000 = .divider 2 true ∧ (TimingResult.divider 2 true).logs = true ∧
  (1000000 / (4 * 400000) = 0) ∧ programTiming [] 1000000 400000 = .invalid ∧
  programTiming [] 4294967295 1 = .invalid ∧
  (4294967295 / (4 * 1) = 1073741823) ∧ ∀ clock, programTiming [] clock 0 = .invalid

/-- R134, R135, R275: BUSBUSY answers the busy flag. LINES answers the levels, SDA in bit 0, SCL in bit 1: with
IDLE_WHEN_NOT_BUSY and the bus not busy both are high and nothing is drawn, else the two levels are Env's; on a port out
of range it is refused or answered IllegalCommand. Neither writes anything. -/
def Obligations.BusAndLineQueries : Prop :=
  ∀ (s : State) (r : Byte) (q : Requester), s.Ready r q →
    (∀ (c : Byte) (k : Ctrl), s.ctrl? c.toNat = some k →
      exec (.busbusy r c) s = .next (s.respond r .ok (if k.bus.busy then 1 else 0))) ∧
    (∀ (p : Byte) (e : PortEntry) (k : Ctrl), s.PortOn p e k →
      (s.params.linesModel = .idleWhenNotBusy → k.bus.busy = false →
        exec (.lines r p) s = .next (s.respond r .ok 3)) ∧
      (s.params.linesModel = .free ∨ k.bus.busy = true →
        ∃ sda scl : Bool,
          exec (.lines r p) s =
            .next (s.draw.2.respond r .ok ((if sda then 1 else 0) + (if scl then 2 else 0))) ∧
          ∀ d rest, s.draws = d :: rest → sda = d.getLsbD 0 ∧ scl = d.getLsbD 1)) ∧
    (∀ p : Byte, s.params.numPorts ≤ p.toNat →
      exec (.lines r p) s =
        match s.params.invalidPort with
        | .refuse => .refused .invalidPort
        | .illegal => .next (s.respond r .illegalCommand 0))

/-- R136, R48, R49: RDREG answers the register, writing nothing; while a transfer is active the error bits of STATUS are
any value (R53), a draw; an index of 9 or more is answered IllegalCommand. -/
def Obligations.RdregAnswersRegister : Prop :=
  ∀ (s : State) (r : Byte) (q : Requester) (c : Byte) (k : Ctrl), s.Ready r q → s.ctrl? c.toNat = some k →
    (k.record.opState ∈ [OpState.idle, .writeSuspended, .readSuspended] →
      ∃ d, exec (.rdreg r c 0) s = .next (s.respond r .ok d) ∧
        k.StatusShown (k.record.errorCode.code.extractLsb' 0 4) d) ∧
    (k.record.opState ∈ [OpState.start, .write, .read, .repeatStart] →
      ∃ d, exec (.rdreg r c 0) s = .next (s.draw.2.respond r .ok d) ∧
        k.StatusShown (s.draw.1.extractLsb' 0 4) d) ∧
    [OpState.idle, .start, .write, .read, .repeatStart, .writeSuspended, .readSuspended].map OpState.code =
      [0, 1, 2, 3, 4, 5, 6] ∧
    exec (.rdreg r c 1) s = .next (s.respond r .ok (0#16 ++ k.record.cursor)) ∧
    exec (.rdreg r c 2) s = .next (s.respond r .ok (k.record.rxLen ++ k.record.txLen)) ∧
    exec (.rdreg r c 3) s =
      .next (s.respond r .ok
        (0#22 ++ (BitVec.ofBool k.record.flagStop ++ (BitVec.ofBool k.record.flagStart ++ k.record.targetAddress)))) ∧
    exec (.rdreg r c 4) s = .next (s.respond r .ok k.record.timeoutUs) ∧
    exec (.rdreg r c 5) s = .next (s.respond r .ok (0#16 ++ (k.timing.divHi ++ k.timing.divLo))) ∧
    exec (.rdreg r c 6) s = .next (s.respond r .ok (k.timing.tHigh ++ k.timing.tLow)) ∧
    exec (.rdreg r c 7) s = .next (s.respond r .ok k.timing.targetHz) ∧
    exec (.rdreg r c 8) s = .next (s.respond r .ok s.clockHz) ∧
    (∀ j : Word, 9 ≤ j.toNat → exec (.rdreg r c j) s = .next (s.respond r .illegalCommand 0))

/-! ## Recovery commands (40_commands.md R137 to R139, 43_recovery.md) -/

/-- R137, R302: ABORT, RESET and RECOVER on an owned controller answer ChannelOccupied and write nothing. -/
def Obligations.RecoveryCommandsOccupied : Prop :=
  ∀ (s : State) (r : Byte) (q : Requester) (c : Byte) (k : Ctrl), s.Ready r q → s.ctrl? c.toNat = some k →
    k.record.owner ≠ 0 → ∀ i ∈ [Instr.abort r c, .reset r c, .recover r c],
      exec i s = .next (s.respond r .channelOccupied 0)

/-- R137, R139, R230: ABORT and RECOVER take an unowned controller and do the first step of the abort: the fault and
stretch flags, the queue and the ready conditions cleared, a STOP queued if the bus is busy. RECOVER keeps the error of
the transfer before as the prior error. -/
def Obligations.AbortAndRecoverStart : Prop :=
  ∀ (s : State) (r : Byte) (q : Requester) (c : Byte) (k : Ctrl), s.Ready r q → s.ctrl? c.toNat = some k →
    k.record.owner = 0 → k.bus.enabled = true →
    let aborting : Running → Kind → Ctrl := fun cmd prior =>
      { k with
        record := { k.record with owner := r }
        bus :=
          { k.bus with
            busErr := false, stretch := false, nackFlag := false, rxPending := false, rdy := false
            eq := if k.bus.busy then [.stop] else [] }
        orch :=
          { k.orch with
            phase := .cmdRecover, recPhase := .abortWait, recPrior := prior, abortSoftFail := false, curReq := r
            cmd := cmd } }
    exec (.abort r c) s = .next ((s.setOutstanding r).setCtrl c.toNat (aborting .abort k.orch.recPrior)) ∧
    exec (.recover r c) s = .next ((s.setOutstanding r).setCtrl c.toNat (aborting .recover k.record.errorCode))

/-- R138, R233: RESET takes an unowned controller and disables it: every bus flag and the engine cleared, `pin_set` any
value; the record fields of R21 to R26, R28 and the timing fields stay. -/
def Obligations.ResetStart : Prop :=
  ∀ (s : State) (r : Byte) (q : Requester) (c : Byte) (k : Ctrl), s.Ready r q → s.ctrl? c.toNat = some k →
    k.record.owner = 0 →
    exec (.reset r c) s =
      .next ((s.draw.2.setOutstanding r).setCtrl c.toNat
        { k with
          record := { k.record with owner := r }
          pinSet := s.draw.1.getLsbD 0
          bus :=
            { nackArmed := false, busErr := false, nackFlag := false, stretch := false, busy := false, rdy := false,
              enabled := false, eq := [], data := k.bus.data, rxPending := false, afterStart := false, mode := .tx }
          orch :=
            { k.orch with
              phase := .cmdRecover, recPhase := .resetWait, curReq := r, linesNotIdle := false, cmd := .reset } })

/-- R137, R231, R232, R274: the end of an ABORT command. With no STOP queued the orchestrator ends it; at the end of the
window, at any step with ANY_TIME and where the engine cannot step with STUCK_ONLY, it is ended with the queue emptied,
the busy flag cleared, the log mark and DATA bit 0. That the answer comes in the very step in which the abort finishes is
the model's reading (log 9, 10). -/
def Obligations.AbortCommandEnds : Prop :=
  ∀ (s : State) (c : Nat) (k : Ctrl), s.ctrl? c = some k → k.orch.phase = .cmdRecover → k.orch.cmd = .abort →
    k.orch.recPhase = .abortWait →
    (BusAction.stop ∉ k.bus.eq →
      step (s.withEvent (.orch c)) =
        .next ((s.setCtrl c
          { k with
            record := { k.record with opState := .idle, owner := 0 }
            ie := false
            orch := { k.orch with phase := .free, recPhase := .none, cmd := .none } }).respond
          k.orch.curReq .ok (if k.orch.abortSoftFail then 1 else 0))) ∧
    (s.params.timeoutModel = .anyTime ∨ k.engEnabled = false →
      step (s.withEvent (.windowExpiry c)) =
        .next ((s.setCtrl c
          { k with
            record := { k.record with opState := .idle, owner := 0 }
            ie := false
            trace := k.trace ++ [.log .abortTimeout]
            bus := { k.bus with eq := [], busy := false }
            orch := { k.orch with phase := .free, recPhase := .none, cmd := .none, abortSoftFail := true } }).respond
          k.orch.curReq .ok 1))

/-- R138, R139, R234, R235: the end of a RESET and of a RECOVER command. A poll that finds both lines high re-enables and
ends; a poll that does not leaves the controller; at the end of the window the log mark and DATA bit 1 are set and the
controller is enabled again. DATA bit 0 is the soft failure of RECOVER's abort. That RESET and RECOVER are answered in the
very step in which the reset finishes is the model's choice (log 10, DEDUCED and unsafe: the `await finished` of R138,
read with R14, would give a later step). -/
def Obligations.ResetPollEndsCommand : Prop :=
  ∀ (s : State) (c : Nat) (k : Ctrl), s.ctrl? c = some k → k.orch.phase = .cmdRecover →
    (k.orch.cmd = .reset ∨ k.orch.cmd = .recover) → k.orch.recPhase = .resetWait →
    let soft : Word := if k.orch.cmd = .recover ∧ k.orch.abortSoftFail = true then 1 else 0
    ((s.drawLines k.bus.busy).1 = { sda := true, scl := true } →
      step (s.withEvent (.orch c)) =
        .next (((s.drawLines k.bus.busy).2.setCtrl c
          { k with
            record := { k.record with opState := .idle, owner := 0 }
            ie := false
            bus := { k.bus with enabled := true }
            orch := { k.orch with phase := .free, recPhase := .none, cmd := .none } }).respond
          k.orch.curReq .ok ((if k.orch.linesNotIdle then 2 else 0) + soft))) ∧
    ((s.drawLines k.bus.busy).1 ≠ { sda := true, scl := true } →
      step (s.withEvent (.orch c)) = .next (s.drawLines k.bus.busy).2) ∧
    (s.params.timeoutModel = .anyTime →
      step (s.withEvent (.windowExpiry c)) =
        .next ((s.setCtrl c
          { k with
            record := { k.record with opState := .idle, owner := 0 }
            ie := false
            trace := k.trace ++ [.log .linesNotIdle]
            bus := { k.bus with enabled := true }
            orch := { k.orch with phase := .free, recPhase := .none, cmd := .none, linesNotIdle := true } }).respond
          k.orch.curReq .ok (2 + soft)))

/-- R236, R231, R232, R274: the abort of a recover ends (a RECOVER command, or the recovery of a transfer). It ends with
no STOP queued; or at the end of the window, with the log mark, the queue emptied, the busy flag cleared and the soft
failure set. The reset follows unless the prior error is NoAddressMatch; then a RECOVER command is answered, DATA bit 0
the soft failure, bit 1 `lines_not_idle` as an earlier reset left it (log 25), the other bits 0 (R139). That the reset
starts, or the answer is given, in the very step in which the abort ends is the model's reading (log 9, 10). -/
def Obligations.RecoverAbortThenReset : Prop :=
  ∀ (s : State) (c : Nat) (k : Ctrl), s.ctrl? c = some k → k.orch.recPhase = .abortWait → k.orch.cmd ≠ .abort →
    let expired : Ctrl :=
      { k with
        trace := k.trace ++ [.log .abortTimeout]
        bus := { k.bus with eq := [], busy := false }
        orch := { k.orch with abortSoftFail := true } }
    let resetting : Ctrl → Ctrl := fun j =>
      { j with
        pinSet := s.draw.1.getLsbD 0
        bus :=
          { nackArmed := false, busErr := false, nackFlag := false, stretch := false, busy := false, rdy := false,
            enabled := false, eq := [], data := k.bus.data, rxPending := false, afterStart := false, mode := .tx }
        orch := { j.orch with recPhase := .resetWait, linesNotIdle := false } }
    let ended : Ctrl → Ctrl := fun j =>
      { j with
        record := { j.record with opState := .idle, owner := 0 }
        ie := false
        orch := { j.orch with phase := .free, recPhase := .none, cmd := .none } }
    let lines : Word := if k.orch.linesNotIdle then 2 else 0
    let stopDone := BusAction.stop ∉ k.bus.eq
    let windowMayEnd := s.params.timeoutModel = .anyTime ∨ k.engEnabled = false
    (k.orch.recPrior ≠ .noAddressMatch →
      (stopDone → step (s.withEvent (.orch c)) = .next (s.draw.2.setCtrl c (resetting k))) ∧
      (windowMayEnd → step (s.withEvent (.windowExpiry c)) = .next (s.draw.2.setCtrl c (resetting expired)))) ∧
    (k.orch.recPrior = .noAddressMatch → k.orch.phase = .cmdRecover → k.orch.cmd = .recover →
      (stopDone →
        step (s.withEvent (.orch c)) =
          .next ((s.setCtrl c (ended k)).respond k.orch.curReq .ok
            (lines + if k.orch.abortSoftFail then 1 else 0))) ∧
      (windowMayEnd →
        step (s.withEvent (.windowExpiry c)) =
          .next ((s.setCtrl c (ended expired)).respond k.orch.curReq .ok (lines + 1))))

/-! ## The orchestrator (40_commands.md R122 to R125, 60_exceptions.md R273) -/

/-- R122, R125: completion. Ok (the record's error is neither BusError nor NoAddressMatch) is released and answered; an
error starts the recovery for it. -/
def Obligations.CompletionAnswersOrRecovers : Prop :=
  ∀ (s : State) (c : Nat) (k : Ctrl), s.ctrl? c = some k → k.orch.recPhase = .none → k.orch.phase = .wait →
    k.done = true → k.bus.enabled = true →
    (k.record.errorCode ≠ .busError → k.record.errorCode ≠ .noAddressMatch →
      step (s.withEvent (.orch c)) =
        .next ((s.setCtrl c { k.released with done := false }).respond k.orch.curReq k.record.errorCode 0)) ∧
    (k.record.errorCode = .busError ∨ k.record.errorCode = .noAddressMatch →
      step (s.withEvent (.orch c)) =
        .next (s.setCtrl c
          { k with
            done := false
            bus :=
              { k.bus with
                busErr := false, stretch := false, nackFlag := false, rxPending := false, rdy := false
                eq := if k.bus.busy then [.stop] else [] }
            orch :=
              { k.orch with
                phase := .postRecover, recPhase := .abortWait, recPrior := k.record.errorCode
                abortSoftFail := false } }))

/-- R121, R123, R273: the timeout. It does nothing outside the wait, once `done` is 1, or under STUCK_ONLY while the
sequencer or the engine can step; where it fires it masks the sequencer and starts the recovery. -/
def Obligations.TimeoutStartsRecovery : Prop :=
  ∀ (s : State) (c : Nat) (k : Ctrl), s.ctrl? c = some k →
    ((k.orch.phase ≠ .wait ∨ k.done = true ∨
        (s.params.timeoutModel = .stuckOnly ∧ (k.seqEnabled = true ∨ k.engEnabled = true))) →
      step (s.withEvent (.timeout c)) = .next s) ∧
    (k.orch.phase = .wait → k.done = false → k.bus.enabled = true →
      (s.params.timeoutModel = .anyTime ∨ (k.seqEnabled = false ∧ k.engEnabled = false)) →
      step (s.withEvent (.timeout c)) =
        .next (s.setCtrl c
          { k with
            ie := false
            bus :=
              { k.bus with
                busErr := false, stretch := false, nackFlag := false, rxPending := false, rdy := false
                eq := if k.bus.busy then [.stop] else [] }
            orch :=
              { k.orch with
                timedOut := true, phase := .postRecover, recPhase := .abortWait, recPrior := k.record.errorCode
                abortSoftFail := false } }))

/-- R124, R125, R231, R232, R234 to R236: the recovery of a failed transfer ends: the mux is applied again, a timeout
becomes the error, the controller is Idle and free, and the requester is answered with the error. After NoAddressMatch it
ends with the abort, where no STOP is queued or at the end of the window; otherwise with the reset, at a poll that finds
both lines high (one that does not leaves the controller) or at the end of the window. That the abort's end clears
`rec_phase` is the model's reading (log 9). -/
def Obligations.PostRecoveryAnswersError : Prop :=
  ∀ (s : State) (c : Nat) (k : Ctrl) (x : TransferArgs), s.ctrl? c = some k → k.orch.phase = .postRecover →
    k.orch.cmd = .transfer x →
    let error := if k.orch.timedOut then Kind.timeout else k.record.errorCode
    let ended : Ctrl → Ctrl := fun j =>
      { j with
        record := { j.record with errorCode := error, opState := .idle, owner := 0 }
        pinSet :=
          match s.port? k.orch.curPort with
          | some e => if e.muxed then e.pinset else k.pinSet
          | none => k.pinSet
        ie := false
        orch := { j.orch with phase := .free, recPhase := .none, cmd := .none } }
    (k.orch.recPhase = .abortWait → k.orch.recPrior = .noAddressMatch →
      (BusAction.stop ∉ k.bus.eq →
        step (s.withEvent (.orch c)) = .next ((s.setCtrl c (ended k)).respond k.orch.curReq error 0)) ∧
      (s.params.timeoutModel = .anyTime ∨ k.engEnabled = false →
        step (s.withEvent (.windowExpiry c)) =
          .next ((s.setCtrl c
            (ended
              { k with
                trace := k.trace ++ [.log .abortTimeout]
                bus := { k.bus with eq := [], busy := false }
                orch := { k.orch with abortSoftFail := true } })).respond k.orch.curReq error 0))) ∧
    (k.orch.recPhase = .resetWait →
      ((s.drawLines k.bus.busy).1 = { sda := true, scl := true } →
        step (s.withEvent (.orch c)) =
          .next (((s.drawLines k.bus.busy).2.setCtrl c
            (ended { k with bus := { k.bus with enabled := true } })).respond k.orch.curReq error 0)) ∧
      ((s.drawLines k.bus.busy).1 ≠ { sda := true, scl := true } →
        step (s.withEvent (.orch c)) = .next (s.drawLines k.bus.busy).2) ∧
      (s.params.timeoutModel = .anyTime →
        step (s.withEvent (.windowExpiry c)) =
          .next ((s.setCtrl c
            (ended
              { k with
                trace := k.trace ++ [.log .linesNotIdle]
                bus := { k.bus with enabled := true }
                orch := { k.orch with linesNotIdle := true } })).respond k.orch.curReq error 0)))

/-- R115 to R118, R185, R231, R232, R234 to R236, R238: the recovery before arming ends: the mux is applied again, the
transfer is loaded and armed from Idle, its START queued unless a fault flag discards it. Where the transfer before ended
NoAddressMatch it ends with the abort, where no STOP is queued or at the end of the window; otherwise with the reset, at a
poll that finds both lines high (one that does not leaves the controller) or at the end of the window. That arming comes in
the very step in which the recovery finishes is the model's reading (log 9, 10). -/
def Obligations.PreRecoveryArms : Prop :=
  ∀ (s : State) (c : Nat) (k : Ctrl) (x : TransferArgs), s.ctrl? c = some k → k.orch.phase = .preRecover →
    k.orch.cmd = .transfer x → k.record.opState = .idle →
    let armed : Ctrl → Ctrl := fun j =>
      { j with
        record :=
          { j.record with
            flagStart := x.fs, flagStop := x.fp, txLen := x.tx, rxLen := x.rx, targetAddress := x.addr, cursor := 0
            errorCode := .ok, opState := .start, waitBudgetUs := k.record.timeoutUs }
        pinSet :=
          match s.port? k.orch.curPort with
          | some e => if e.muxed then e.pinset else k.pinSet
          | none => k.pinSet
        ie := true
        done := false
        bus :=
          { j.bus with
            rdy := false
            eq := if j.bus.busErr || j.bus.nackFlag then j.bus.eq else j.bus.eq ++ [.start] }
        orch := { j.orch with phase := .wait, recPhase := .none, timedOut := false } }
    (k.orch.recPhase = .abortWait → k.orch.recPrior = .noAddressMatch → k.bus.enabled = true →
      (BusAction.stop ∉ k.bus.eq → step (s.withEvent (.orch c)) = .next (s.setCtrl c (armed k))) ∧
      (s.params.timeoutModel = .anyTime ∨ k.engEnabled = false →
        step (s.withEvent (.windowExpiry c)) =
          .next (s.setCtrl c
            (armed
              { k with
                trace := k.trace ++ [.log .abortTimeout]
                bus := { k.bus with eq := [], busy := false }
                orch := { k.orch with abortSoftFail := true } })))) ∧
    (k.orch.recPhase = .resetWait →
      ((s.drawLines k.bus.busy).1 = { sda := true, scl := true } →
        step (s.withEvent (.orch c)) =
          .next ((s.drawLines k.bus.busy).2.setCtrl c (armed { k with bus := { k.bus with enabled := true } }))) ∧
      ((s.drawLines k.bus.busy).1 ≠ { sda := true, scl := true } →
        step (s.withEvent (.orch c)) = .next (s.drawLines k.bus.busy).2) ∧
      (s.params.timeoutModel = .anyTime →
        step (s.withEvent (.windowExpiry c)) =
          .next (s.setCtrl c
            (armed
              { k with
                trace := k.trace ++ [.log .linesNotIdle]
                bus := { k.bus with enabled := true }
                orch := { k.orch with linesNotIdle := true } }))))

/-! ## The sequencer (41_sequencer.md R160 to R173) -/

/-- R160, R180, R189, R190: which agents have no step. The sequencer does nothing where the controller is disabled,
interrupts are masked, no transfer is active or no condition is pending; the engine, where it is disabled, under a fault
flag, or with nothing queued and nothing owed; and on a disabled controller Env raises nothing. -/
def Obligations.AgentsWithoutStep : Prop :=
  ∀ (s : State) (c : Nat) (k : Ctrl), s.ctrl? c = some k →
    ((k.bus.enabled = false ∨ k.ie = false ∨ k.record.opState ∈ [OpState.idle, .writeSuspended, .readSuspended] ∨
        (k.bus.busErr = false ∧ k.bus.nackFlag = false ∧ k.bus.rdy = false)) →
      step (s.withEvent (.seq c)) = .next s) ∧
    ((k.bus.enabled = false ∨ k.bus.busErr = true ∨ k.bus.nackFlag = true ∨
        (k.bus.eq = [] ∧ k.bus.rxPending = false)) →
      step (s.withEvent (.eng c)) = .next s) ∧
    (k.bus.enabled = false →
      step (s.withEvent (.busError c)) = .next s ∧ step (s.withEvent (.setStretch c)) = .next s)

/-- R163: the address byte, with the read bit where nothing is to be written (a NACK armed for a one-byte read), else
with the write bit. -/
def Obligations.SequencerSendsAddress : Prop :=
  ∀ (s : State) (c : Nat) (k : Ctrl) (st : OpState), s.ctrl? c = some k → st = .start ∨ st = .repeatStart →
    k.SeqReady st →
    step (s.withEvent (.seq c)) =
      .next (s.setCtrl c
        (if k.record.txLen = 0 then
          { k with
            bus :=
              { k.bus with
                nackArmed := k.bus.nackArmed || decide (k.record.rxLen = 1), rdy := false
                eq := k.bus.eq ++ [.send (k.record.targetAddress ||| 0x01)] }
            record := { k.record with opState := .read } }
        else
          { k with
            bus :=
              { k.bus with rdy := false, eq := k.bus.eq ++ [.send (k.record.targetAddress &&& 0xFE)] }
            record := { k.record with opState := .write } }))

/-- R164: in Write before the last byte, the byte of the owner's transmit buffer at the cursor is queued and the cursor
advances. -/
def Obligations.SequencerWritesByte : Prop :=
  ∀ (s : State) (c : Nat) (k : Ctrl) (q : Requester), s.ctrl? c = some k → k.SeqReady .write →
    k.record.cursor.toNat < k.record.txLen.toNat → s.req? k.record.owner = some q →
    k.record.cursor.toNat < s.params.bufBytes →
    step (s.withEvent (.seq c)) =
      .next (s.setCtrl c
        { k with
          bus :=
            { k.bus with
              rdy := false
              eq := k.bus.eq ++ [.send (s.mem.read (txAddr k.record.owner k.record.cursor.toNat))] }
          record := { k.record with cursor := k.record.cursor + 1 } })

/-- R165: in Write after the last byte of a transfer that reads nothing: a STOP and Idle, or the suspension with the
ready condition kept; Ok and completion. -/
def Obligations.SequencerEndsWrite : Prop :=
  ∀ (s : State) (c : Nat) (k : Ctrl), s.ctrl? c = some k → k.SeqReady .write →
    k.record.cursor = k.record.txLen → k.record.rxLen = 0 →
    step (s.withEvent (.seq c)) =
      .next (s.setCtrl c
        { k with
          bus := if k.record.flagStop then { k.bus with rdy := false, eq := k.bus.eq ++ [.stop] } else k.bus
          record :=
            { k.record with
              errorCode := .ok, opState := if k.record.flagStop then .idle else .writeSuspended }
          ie := false
          done := true })

/-- R166: in Write after the last byte of a transfer that reads: a START and the address with the read bit, the cursor 0,
a NACK armed for a one-byte read with STOP. -/
def Obligations.SequencerTurnsToRead : Prop :=
  ∀ (s : State) (c : Nat) (k : Ctrl), s.ctrl? c = some k → k.SeqReady .write →
    k.record.cursor = k.record.txLen → k.record.rxLen ≠ 0 →
    step (s.withEvent (.seq c)) =
      .next (s.setCtrl c
        { k with
          bus :=
            { k.bus with
              rdy := false
              nackArmed := k.bus.nackArmed || (decide (k.record.rxLen = 1) && k.record.flagStop)
              eq := k.bus.eq ++ [.start, .send (k.record.targetAddress ||| 0x01)] }
          record := { k.record with cursor := 0, opState := .read } })

/-- R167 to R170, R186: in Read the received byte goes to the owner's receive buffer at the cursor, which advances. On
the final byte the STOP is queued first, or the clock stalled, and the transfer completes; on the byte before it with
STOP the NACK is armed. Unless a STOP is queued the engine owes the next byte. -/
def Obligations.SequencerReadsByte : Prop :=
  ∀ (s : State) (c : Nat) (k : Ctrl) (q : Requester), s.ctrl? c = some k → k.SeqReady .read →
    k.record.cursor.toNat < k.record.rxLen.toNat → s.req? k.record.owner = some q →
    k.record.cursor.toNat < s.params.bufBytes →
    let i := k.record.cursor.toNat
    let owed := if BusAction.stop ∈ k.bus.eq then k.bus.rxPending else true
    let stored := { s with mem := s.mem.write (rxAddr k.record.owner i) k.bus.data }
    (i + 1 = k.record.rxLen.toNat → k.record.flagStop = true →
      step (s.withEvent (.seq c)) =
        .next (stored.setCtrl c
          { k with
            bus := { k.bus with rdy := false, eq := k.bus.eq ++ [.stop] }
            record := { k.record with cursor := k.record.rxLen, errorCode := .ok, opState := .idle }
            ie := false
            done := true })) ∧
    (i + 1 = k.record.rxLen.toNat → k.record.flagStop = false →
      step (s.withEvent (.seq c)) =
        .next (stored.setCtrl c
          { k with
            bus := { k.bus with rdy := false, rxPending := owed }
            record := { k.record with cursor := k.record.rxLen, errorCode := .ok, opState := .readSuspended }
            ie := false
            done := true })) ∧
    (i + 1 < k.record.rxLen.toNat →
      step (s.withEvent (.seq c)) =
        .next (stored.setCtrl c
          { k with
            bus :=
              { k.bus with
                rdy := false, rxPending := owed
                nackArmed := k.bus.nackArmed || (decide (i + 2 = k.record.rxLen.toNat) && k.record.flagStop) }
            record := { k.record with cursor := k.record.cursor + 1 } }))

/-- R162, R171, R172: the fault rows, the bus error before the NACK and both before the ready condition: a STOP, the flag
cleared, the error, Idle and completion. -/
def Obligations.SequencerTakesFault : Prop :=
  ∀ (s : State) (c : Nat) (k : Ctrl), s.ctrl? c = some k → k.bus.enabled = true → k.ie = true →
    k.record.opState ∈ [OpState.start, .write, .read, .repeatStart] →
    (k.bus.busErr = true →
      step (s.withEvent (.seq c)) =
        .next (s.setCtrl c
          { k with
            bus := { k.bus with busErr := false, rdy := false, eq := k.bus.eq ++ [.stop] }
            record := { k.record with errorCode := .busError, opState := .idle }
            ie := false
            done := true })) ∧
    (k.bus.busErr = false → k.bus.nackFlag = true →
      step (s.withEvent (.seq c)) =
        .next (s.setCtrl c
          { k with
            bus := { k.bus with nackFlag := false, rdy := false, eq := k.bus.eq ++ [.stop] }
            record := { k.record with errorCode := .noAddressMatch, opState := .idle }
            ie := false
            done := true }))

/-! ## The engine and Env (41_sequencer.md R180 to R190) -/

/-- R181, R183, R184: the engine performs START (repeated where the bus is held) and STOP (traced where the bus is held);
with the queue empty and a byte owed it receives the byte that Env draws, with an armed NACK or an ACK. -/
def Obligations.EngineStartStopReceive : Prop :=
  ∀ (s : State) (c : Nat) (k : Ctrl) (rest : List BusAction), s.ctrl? c = some k → k.EngReady →
    (k.bus.eq = .start :: rest →
      step (s.withEvent (.eng c)) =
        .next (s.setCtrl c
          { k with
            trace := k.trace ++ [if k.bus.busy then .sr else .s]
            bus :=
              { k.bus with
                eq := rest, busy := true, afterStart := true, mode := .tx, rxPending := false
                rdy := if rest = [] then true else k.bus.rdy } })) ∧
    (k.bus.eq = .stop :: rest →
      step (s.withEvent (.eng c)) =
        .next (s.setCtrl c
          { k with
            trace := if k.bus.busy then k.trace ++ [.p] else k.trace
            bus :=
              { k.bus with
                eq := rest, busy := false, rdy := false, rxPending := false, afterStart := false, mode := .tx
                nackArmed := false } })) ∧
    (k.bus.eq = [] → k.bus.rxPending = true →
      step (s.withEvent (.eng c)) =
        .next (s.draw.2.setCtrl c
          { k with
            trace := k.trace ++ [.r s.draw.1 (if k.bus.nackArmed then .nack else .ack)]
            bus := { k.bus with nackArmed := false, data := s.draw.1, rxPending := false, rdy := true } }))

/-- R182: the engine sends a byte, and Env answers with ACK or NACK, bit 0 of a draw. A NACK raises the flag and empties
the queue; an acknowledged read address turns the bus round; any other byte leaves the master sending, ready when the
queue is empty. -/
def Obligations.EngineSendsByte : Prop :=
  ∀ (s : State) (c : Nat) (k : Ctrl) (v : Byte) (rest : List BusAction), s.ctrl? c = some k → k.EngReady →
    k.bus.eq = .send v :: rest →
    (s.draw.1.getLsbD 0 = true →
      step (s.withEvent (.eng c)) =
        .next (s.draw.2.setCtrl c
          { k with
            trace := k.trace ++ [.w v .nack]
            bus := { k.bus with eq := [], afterStart := false, nackFlag := true, rdy := false } })) ∧
    (s.draw.1.getLsbD 0 = false → k.bus.afterStart = true → v.getLsbD 0 = true →
      step (s.withEvent (.eng c)) =
        .next (s.draw.2.setCtrl c
          { k with
            trace := k.trace ++ [.w v .ack]
            bus := { k.bus with eq := rest, afterStart := false, mode := .rx, rxPending := true } })) ∧
    (s.draw.1.getLsbD 0 = false → k.bus.afterStart = false ∨ v.getLsbD 0 = false →
      step (s.withEvent (.eng c)) =
        .next (s.draw.2.setCtrl c
          { k with
            trace := k.trace ++ [.w v .ack]
            bus :=
              { k.bus with
                eq := rest, afterStart := false, mode := .tx, rdy := if rest = [] then true else k.bus.rdy } }))

/-- R187 and R188: on an enabled controller Env raises a bus error, which empties the queue, or the stretch flag. -/
def Obligations.EnvRaisesFlags : Prop :=
  ∀ (s : State) (c : Nat) (k : Ctrl), s.ctrl? c = some k → k.bus.enabled = true →
    step (s.withEvent (.busError c)) =
      .next (s.setCtrl c
        { k with
          trace := k.trace ++ [.berr]
          bus := { k.bus with busErr := true, eq := [], rxPending := false, rdy := false } }) ∧
    step (s.withEvent (.setStretch c)) = .next (s.setCtrl c { k with bus := { k.bus with stretch := true } })

/-! ## Memory (20_memory.md) -/

/-- R60, R68: one-byte accesses. A byte written reads back, every other byte reads as before, and the canonical form is
kept; the addresses of two locations of the buffer space differ. -/
def Obligations.BufferMemory : Prop :=
  (∀ (m : Memory) (a b : Nat) (v : Byte), Memory.read (m.write a v) b = if b = a then v else m.read b) ∧
  (∀ (m : Memory) (a : Nat) (v : Byte), Memory.wf m = true → Memory.wf (m.write a v) = true) ∧
  (∀ (r r' : Byte) (i j : Nat), i < 2 ^ 16 → j < 2 ^ 16 →
    txAddr r i = r.toNat * 2 ^ 17 + i ∧ rxAddr r i = r.toNat * 2 ^ 17 + 2 ^ 16 + i ∧ txAddr r i ≠ rxAddr r' j ∧
    (txAddr r i = txAddr r' j → r = r' ∧ i = j) ∧ (rxAddr r i = rxAddr r' j → r = r' ∧ i = j))

/-- R60, R62: a requester's own access. With no command outstanding it writes and reads the bytes of its two buffers; any
other access is refused. -/
def Obligations.RequesterBufferAccess : Prop :=
  ∀ (s : State) (r : Byte) (q : Requester) (addr : Word) (v : Byte), s.params.bufBytes ≤ 65535 → s.req? r = some q →
    let own := ∃ i, i < s.params.bufBytes ∧ (addr.toNat = txAddr r i ∨ addr.toNat = rxAddr r i)
    (q.outstanding = false → own →
      step (s.withEvent (.bufWrite r addr v)) = .next { s with mem := s.mem.write addr.toNat v } ∧
      step (s.withEvent (.bufRead r addr)) = .next s) ∧
    (q.outstanding = true ∨ ¬own →
      step (s.withEvent (.bufWrite r addr v)) = .refused .bufferAccess ∧
      step (s.withEvent (.bufRead r addr)) = .refused .bufferAccess)

/-- R61, R69: a step changes at most one byte of the buffer space: the byte of the owner's receive buffer at the cursor
of a controller in Read, which takes the engine's data, or the byte that a requester writes itself. -/
def Obligations.StepWritesOneBufferByte : Prop :=
  ∀ (s t : State) (a : Nat), step s = .next t → t.mem.read a ≠ s.mem.read a →
    (∃ c k, s.ctrl? c = some k ∧ s.nextEvent.1 = some (.seq c) ∧ k.record.opState = .read ∧
      k.record.cursor.toNat < k.record.rxLen.toNat ∧ a = rxAddr k.record.owner k.record.cursor.toNat ∧
      t.mem.read a = k.bus.data) ∨
    (∃ r addr v, s.nextEvent.1 = some (.bufWrite r addr v) ∧ a = addr.toNat ∧ t.mem.read a = v)

/-! ## Reset (70_reset_and_hazards.md R290, R291) -/

/-- R290, R291: the block after reset and initialisation, field by field, whatever the parameters, the buffer contents
and the environment. -/
def Obligations.ResetState : Prop :=
  ∀ (p : Params) (mem : Memory) (events : List Event) (draws : List Byte) (count : Nat),
    let s := State.resetWith p mem events draws count
    s.clockHz = p.clockHzReset ∧ s.numCtrl = p.targetHzReset.length ∧
    (∀ r : Byte, r ≠ 0 → r.toNat ≤ p.numReq → s.req? r = some { outstanding := false, responses := [] }) ∧
    ∀ (c : Nat) (hz : Word), p.targetHzReset[c]? = some hz →
      ∃ k, s.ctrl? c = some k ∧
        k.record =
          { flagStart := false, flagStop := false, txLen := 0, rxLen := 0, cursor := 0, opState := .idle,
            targetAddress := 0, errorCode := .ok, owner := 0, timeoutUs := p.defaultTimeoutUs, waitBudgetUs := 0 } ∧
        k.pinSet = false ∧ k.ie = false ∧ k.done = false ∧
        k.bus =
          { nackArmed := false, busErr := false, nackFlag := false, stretch := false, busy := false, rdy := false,
            enabled := true, eq := [], data := 0, rxPending := false, afterStart := false, mode := .tx } ∧
        k.orch =
          { phase := .free, recPhase := .none, recPrior := .ok, timedOut := false, curReq := 0, curPort := 0,
            abortSoftFail := false, linesNotIdle := false, cmd := .none } ∧
        (match programTiming p.fastCalTable p.clockHzReset hz with
        | .invalid =>
          k.trace = [] ∧ k.timing =
            { targetHz := hz, divLo := 0, divHi := 0, fastEn := false, tLow := 0, tHigh := 0, timingWarn := false }
        | .calibrated tl th =>
          k.trace = [] ∧ k.timing =
            { targetHz := hz, divLo := 0, divHi := 0, fastEn := true, tLow := tl, tHigh := th, timingWarn := false }
        | .divider d warn =>
          k.trace = (if warn then [.log .timingFallback] else []) ∧ k.timing =
            { targetHz := hz, divLo := d.extractLsb' 0 8, divHi := d.extractLsb' 8 8, fastEn := false, tLow := 0,
              tHigh := 0, timingWarn := warn })

/-- The state after reset satisfies both invariants, for every choice of parameters within their ranges (00_scope.md R9
to R11) and every canonical buffer contents; so does State.reset. -/
def Obligations.ResetIsSound : Prop :=
  (∀ (p : Params) (mem : Memory) (events : List Event) (draws : List Byte) (count : Nat), p.wf = true →
    Memory.wf mem = true →
    (State.resetWith p mem events draws count).Inv ∧ (State.resetWith p mem events draws count).BusInv) ∧
  State.reset.Inv ∧ State.reset.BusInv ∧ Params.s0.wf = true

/-! ## Rules of the whole machine -/

/-- The control invariant is kept by every step of every agent, from every state that has it (R23, R26, R27, R40, R47,
R52, R126, R173, R239). -/
def Obligations.StepKeepsInv : Prop :=
  ∀ s t : State, s.Inv → step s = .next t → t.Inv

/-- From a state with the control invariant no step faults: the cases the spec calls unreachable are unreachable (R126,
R173, R55, R60). -/
def Obligations.NoStepFaults : Prop :=
  ∀ (s : State) (f : Fault), s.Inv → step s ≠ .fault f

/-- The bus invariant is kept by every step of every agent, from every state that has both (R41, R174, R189). -/
def Obligations.StepKeepsBusInv : Prop :=
  ∀ s t : State, s.Inv → s.BusInv → step s = .next t → t.BusInv

/-- R41, R174: in a state with both invariants the engine queue holds at most three actions, and a suspended controller
holds the bus with interrupts masked, waiting for the next byte, or with a byte received or owed, unless a bus error came
in between. -/
def Obligations.QueueBoundAndSuspension : Prop :=
  ∀ (s : State) (c : Nat) (k : Ctrl), s.Inv → s.BusInv → s.ctrl? c = some k →
    k.bus.eq.length ≤ 3 ∧
    (k.orch.phase = .free → k.record.opState = .writeSuspended → k.bus.busErr = false →
      k.ie = false ∧ k.bus.busy = true ∧ k.bus.rdy = true) ∧
    (k.orch.phase = .free → k.record.opState = .readSuspended → k.bus.busErr = false →
      k.ie = false ∧ k.bus.busy = true ∧ (k.bus.rdy = true ∨ k.bus.rxPending = true))

/-- R239, R240: in a sound state the sequencer takes no step during a recovery; and a step inside a recovery (one that
leaves it running) writes no field of the record. -/
def Obligations.RecoveryIsSilent : Prop :=
  (∀ (s : State) (c : Nat) (k : Ctrl), s.Inv → s.ctrl? c = some k → k.orch.recPhase ≠ .none →
    k.ie = false ∧ step (s.withEvent (.seq c)) = .next s) ∧
  (∀ (s t : State) (c : Nat) (k k' : Ctrl), s.Inv → s.ctrl? c = some k → k.orch.recPhase ≠ .none →
    ∀ e ∈ [Event.orch c, .timeout c, .windowExpiry c, .seq c, .eng c, .busError c, .setStretch c],
      step (s.withEvent e) = .next t → t.ctrl? c = some k' → k'.orch.recPhase ≠ .none → k'.record = k.record)

/-- R45, R10: no step changes the parameters or the number of controllers and requesters, and a bus trace only grows. -/
def Obligations.TraceOnlyGrows : Prop :=
  ∀ s t : State, step s = .next t →
    t.params = s.params ∧ t.numCtrl = s.numCtrl ∧ t.numReq = s.numReq ∧
    ∀ c k, s.ctrl? c = some k → ∃ k' new, t.ctrl? c = some k' ∧ k'.trace = k.trace ++ new

/-- R265, R276: a step of an agent of controller `c` leaves every other controller and the clock as they were. -/
def Obligations.ControllersAreIndependent : Prop :=
  ∀ (s t : State) (c c' : Nat),
    ∀ e ∈ [Event.orch c, .timeout c, .windowExpiry c, .seq c, .eng c, .busError c, .setStretch c],
      c' ≠ c → step (s.withEvent e) = .next t → t.ctrl? c' = s.ctrl? c' ∧ t.clockHz = s.clockHz

/-- R140, R302: no command, of any requester, ends or disturbs the work on an owned controller: of that controller it
changes at most the timeout, the timing fields, and the trace by the one log of a programming that fell back (R215). -/
def Obligations.OwnedControllerUndisturbed : Prop :=
  ∀ (s t : State) (i : Instr) (c : Nat) (k : Ctrl), s.ctrl? c = some k → k.record.owner ≠ 0 → exec i s = .next t →
    ∃ k', t.ctrl? c = some k' ∧
      k' =
        { k with
          record := { k.record with timeoutUs := k'.record.timeoutUs }
          timing := k'.timing
          trace := k'.trace } ∧
      (k'.trace = k.trace ∨ k'.trace = k.trace ++ [.log .timingFallback])

/-- R43, R44, R28: the clock is written only by CLKCHG, the timing fields only by SETFREQ and CLKCHG, the timeout only by
SETTO. -/
def Obligations.TimingAndTimeoutWriters : Prop :=
  ∀ (s t : State) (e : Event), step (s.withEvent e) = .next t →
    let writes (f : Instr → Bool) := ∃ r w i, e = .command r w ∧ decodeWord w = .ok i ∧ f i = true
    (t.clockHz ≠ s.clockHz → writes (fun i => match i with | .clkchg .. => true | _ => false)) ∧
    (∀ c k k', s.ctrl? c = some k → t.ctrl? c = some k' → k'.timing ≠ k.timing →
      writes (fun i => match i with | .clkchg .. | .setfreq .. => true | _ => false)) ∧
    (∀ c k k', s.ctrl? c = some k → t.ctrl? c = some k' → k'.record.timeoutUs ≠ k.record.timeoutUs →
      writes (fun i => match i with | .setto .. => true | _ => false))

/-- R27, R72, R88, R114, R125, R263: the token and the answers. In one step of a sound block a controller's owner stays,
is set from none, or is cleared, and where it is cleared the requester that held it is answered in the same step. In one
step a requester gets no answer or one answer, never ModuleBusy and never BusBusy, and after it has no command
outstanding. -/
def Obligations.TokenAndAnswers : Prop :=
  (∀ (s t : State) (c : Nat) (k k' : Ctrl), s.Inv → step s = .next t → s.ctrl? c = some k → t.ctrl? c = some k' →
    k'.record.owner ≠ k.record.owner →
    (k.record.owner = 0 ∨ k'.record.owner = 0) ∧
    (k'.record.owner = 0 → ∃ res d,
      t.responsesOf k.record.owner = s.responsesOf k.record.owner ++ [responseWord res d])) ∧
  (∀ (s t : State) (r : Byte), s.Inv → step s = .next t →
    t.responsesOf r = s.responsesOf r ∨
    ∃ res d q, t.responsesOf r = s.responsesOf r ++ [responseWord res d] ∧ res ≠ .moduleBusy ∧ res ≠ .busBusy ∧
      t.req? r = some q ∧ q.outstanding = false)

/-- R280, R306: with ANY_TIME, from every sound state in which a transfer is awaited, the timeout and two ends of a
window answer it with Timeout and leave the controller Idle, free and enabled. That two ends of a window suffice rests on
the model's choice that the reset starts in the step that ends the abort (log 9). -/
def Obligations.TimeoutAnswersWithinTwoWindows : Prop :=
  ∀ (s : State) (c : Nat) (k : Ctrl), s.Inv → s.params.timeoutModel = .anyTime → s.ctrl? c = some k →
    k.orch.phase = .wait → k.done = false →
    ∃ s1 s2 s3 k3,
      step (s.withEvent (.timeout c)) = .next s1 ∧ step (s1.withEvent (.windowExpiry c)) = .next s2 ∧
      step (s2.withEvent (.windowExpiry c)) = .next s3 ∧
      s3.responsesOf k.record.owner = s.responsesOf k.record.owner ++ [responseWord .timeout 0] ∧
      s3.ctrl? c = some k3 ∧ k3.record.opState = .idle ∧ k3.record.owner = 0 ∧ k3.record.errorCode = .timeout ∧
      k3.bus.enabled = true ∧ k3.orch.phase = .free

/-- R65, R118, R163 to R165, R181, R182, R184: a whole write. From a sound block with the controller free, Idle and its
bus idle, XFER.SP of `n` bytes to a device that acknowledges puts START, the address with the write bit, the bytes of the
requester's transmit buffer in order and STOP on the bus, and answers Ok; the controller is Idle and free, and no byte of
memory changes. -/
def Obligations.WriteTransferOnTheBus : Prop :=
  ∀ (s : State) (r : Byte) (q : Requester) (p a : Byte) (n : Half) (e : PortEntry) (k : Ctrl) (rest : List Byte),
    s.Inv → s.BusInv → s.Ready r q → s.PortOn p e k → s.LengthsOk n 0 → k.record.owner = 0 →
    k.record.opState = .idle → k.bus.busy = false → k.bus.busErr = false → k.bus.eq = [] →
    s.params.linesModel = .idleWhenNotBusy → s.draws = List.replicate (n.toNat + 1) 0 ++ rest →
    ∃ t k',
      runEvents
        ([.command r (encodeWord (.xferSP r p a n 0)), .eng e.ctrl]
          ++ (List.replicate (n.toNat + 1) [Event.seq e.ctrl, .eng e.ctrl]).flatten
          ++ [.seq e.ctrl, .eng e.ctrl, .orch e.ctrl]) s = some t ∧
      t.ctrl? e.ctrl = some k' ∧
      k'.trace = k.trace ++ [.s, .w (a &&& 0xFE) .ack]
        ++ (List.range n.toNat).map (fun i => TraceSym.w (s.mem.read (txAddr r i)) .ack) ++ [.p] ∧
      k'.record.opState = .idle ∧ k'.record.owner = 0 ∧ k'.bus.busy = false ∧ t.mem = s.mem ∧ t.draws = rest ∧
      t.responsesOf r = s.responsesOf r ++ [responseWord .ok 0]

/-- R65, R163, R167 to R170, R183, R186, R296: a whole read. From a sound block with the controller free, Idle and its
bus idle, XFER.SP of `m` bytes (one or more) from a device that acknowledges its address puts START, the address with the
read bit, the received bytes, the last answered NACK and the others ACK, and STOP on the bus, and answers Ok; byte `i`
received is byte `i` of the requester's receive buffer, and no other byte of memory changes. A NACK armed before the transfer is excluded by hypothesis. -/
def Obligations.ReadTransferOnTheBus : Prop :=
  ∀ (s : State) (r : Byte) (q : Requester) (p a : Byte) (m : Half) (e : PortEntry) (k : Ctrl) (bytes rest : List Byte),
    s.Inv → s.BusInv → s.Ready r q → s.PortOn p e k → s.LengthsOk 0 m → s.params.bufBytes ≤ 65535 →
    k.record.owner = 0 → k.record.opState = .idle → k.bus.busy = false → k.bus.busErr = false → k.bus.eq = [] →
    k.bus.nackArmed = false → s.params.linesModel = .idleWhenNotBusy → bytes.length = m.toNat →
    s.draws = 0 :: (bytes ++ rest) →
    ∃ t k',
      runEvents
        ([.command r (encodeWord (.xferSP r p a 0 m)), .eng e.ctrl]
          ++ [.seq e.ctrl, .eng e.ctrl, .eng e.ctrl]
          ++ (List.replicate m.toNat [Event.seq e.ctrl, .eng e.ctrl]).flatten ++ [.orch e.ctrl]) s = some t ∧
      t.ctrl? e.ctrl = some k' ∧
      k'.trace = k.trace ++ [.s, .w (a ||| 0x01) .ack]
        ++ bytes.mapIdx (fun i b => TraceSym.r b (if i + 1 = m.toNat then .nack else .ack)) ++ [.p] ∧
      k'.record.opState = .idle ∧ k'.record.owner = 0 ∧ k'.bus.busy = false ∧
      (∀ i b, bytes[i]? = some b → t.mem.read (rxAddr r i) = b) ∧
      (∀ addr, (∀ i, i < m.toNat → addr ≠ rxAddr r i) → t.mem.read addr = s.mem.read addr) ∧
      t.responsesOf r = s.responsesOf r ++ [responseWord .ok 0]

end
end

