-- ==== Sys2Proof/Laws/Memory.lean ====
section
/-! SUPPORT. The laws of the buffer memory: read after write, the frame of a write, the canonical form, and that no two
locations of the buffer space share an address. -/

namespace Sys2Proof.Machine

theorem Memory.read_erase_self (m : Memory) (a : Nat) : Memory.read (m.erase a) a = Config.unlistedByte := by
  induction m with
  | nil => rfl
  | cons e t ih =>
    obtain ⟨b, v⟩ := e
    by_cases h : b = a
    · simpa [Memory.erase, h] using ih
    · have h' : ¬a = b := fun e => h e.symm
      simpa [Memory.erase, h, Memory.read, h'] using ih

theorem Memory.read_erase_ne (m : Memory) {a b : Nat} (h : a ≠ b) : Memory.read (m.erase b) a = m.read a := by
  induction m with
  | nil => rfl
  | cons e t ih =>
    obtain ⟨x, v⟩ := e
    by_cases hx : x = b
    · subst hx; simpa [Memory.erase, Memory.read, h] using ih
    · by_cases hax : a = x
      · subst hax; simp [Memory.erase, hx, Memory.read]
      · simpa [Memory.erase, hx, Memory.read, hax] using ih

theorem Memory.read_insert (m : Memory) (a b : Nat) (v : Byte) (hm : ∀ e ∈ m, e.1 ≠ b) :
    Memory.read (m.insert b v) a = if a = b then v else m.read a := by
  induction m with
  | nil => simp [Memory.insert, Memory.read]
  | cons e t ih =>
    obtain ⟨x, w⟩ := e
    have hx : x ≠ b := hm (x, w) (by simp)
    have iht := ih (fun e he => hm e (by simp [he]))
    by_cases hlt : b < x
    · simp [Memory.insert, hlt, Memory.read]
    · simp only [Memory.insert, hlt, if_false, Memory.read, iht]
      by_cases hax : a = x
      · subst hax; simp [hx]
      · simp [hax]

/-- Reading after a write: the written byte at its address, the old byte everywhere else. -/
theorem Memory.read_write (m : Memory) (a b : Nat) (v : Byte) :
    Memory.read (m.write b v) a = if a = b then v else m.read a := by
  have hne : ∀ e ∈ m.erase b, e.1 ≠ b := by
    intro e he; simpa using (List.mem_filter.1 he).2
  unfold Memory.write
  split
  · next hv =>
    by_cases h : a = b
    · subst h; simp [Memory.read_erase_self, hv]
    · simp [h, Memory.read_erase_ne m h]
  · rw [Memory.read_insert _ _ _ _ hne]
    by_cases h : a = b
    · simp [h]
    · simp [h, Memory.read_erase_ne m h]

theorem Memory.wf_iff (m : Memory) :
    Memory.wf m = true ↔ m.Pairwise (fun x y => x.1 < y.1) ∧ ∀ e ∈ m, e.2 ≠ Config.unlistedByte := by
  simp [Memory.wf, List.all_eq_true]

theorem Memory.mem_insert {m : Memory} {a : Nat} {v : Byte} {e : Host.Cell} (h : e ∈ m.insert a v) :
    e = (a, v) ∨ e ∈ m := by
  induction m with
  | nil => simpa [Memory.insert] using h
  | cons x t ih =>
    obtain ⟨b, w⟩ := x
    by_cases hlt : a < b
    · simpa [Memory.insert, hlt] using h
    · simp only [Memory.insert, hlt, if_false, List.mem_cons] at h
      rcases h with rfl | h
      · simp
      · rcases ih h with h | h
        · exact .inl h
        · exact .inr (by simp [h])

theorem Memory.pairwise_insert {m : Memory} {a : Nat} {v : Byte} (hm : m.Pairwise (fun x y => x.1 < y.1))
    (hne : ∀ e ∈ m, e.1 ≠ a) : (m.insert a v).Pairwise (fun x y => x.1 < y.1) := by
  induction m with
  | nil => simp [Memory.insert]
  | cons x t ih =>
    obtain ⟨b, w⟩ := x
    rw [List.pairwise_cons] at hm
    have hb : b ≠ a := hne (b, w) (by simp)
    by_cases hlt : a < b
    · simp only [Memory.insert, hlt, if_true, List.pairwise_cons]
      refine ⟨?_, hm.1, hm.2⟩
      intro e he
      rcases List.mem_cons.1 he with rfl | he
      · exact hlt
      · exact Nat.lt_trans hlt (hm.1 e he)
    · simp only [Memory.insert, hlt, if_false, List.pairwise_cons]
      refine ⟨?_, ih hm.2 (fun e he => hne e (by simp [he]))⟩
      intro e he
      rcases Memory.mem_insert he with rfl | he
      · show b < a; omega
      · exact hm.1 e he

/-- A write keeps the canonical form. -/
theorem Memory.wf_write {m : Memory} (h : Memory.wf m = true) (a : Nat) (v : Byte) :
    Memory.wf (m.write a v) = true := by
  rw [Memory.wf_iff] at h ⊢
  have he : (m.erase a).Pairwise (fun x y => x.1 < y.1) := h.1.filter _
  have hne : ∀ e ∈ m.erase a, e.1 ≠ a := by
    intro e hm; simpa using (List.mem_filter.1 hm).2
  have hv : ∀ e ∈ m.erase a, e.2 ≠ Config.unlistedByte := fun e hm => h.2 e (List.mem_filter.1 hm).1
  unfold Memory.write
  split
  · exact ⟨he, hv⟩
  · next hne0 =>
    refine ⟨Memory.pairwise_insert he hne, ?_⟩
    intro e hm
    rcases Memory.mem_insert hm with rfl | hm
    · exact hne0
    · exact hv e hm

theorem Memory.wf_nil : Memory.wf [] = true := by decide

/-! ## Addresses of the buffer space (20_memory.md R60) -/

theorem txAddr_eq (r : Byte) {i : Nat} (h : i < 2 ^ 16) : txAddr r i = r.toNat * 2 ^ 17 + i := by
  unfold txAddr
  rw [Nat.shiftLeft_eq, ← Nat.shiftLeft_eq, ← Nat.shiftLeft_add_eq_or_of_lt (by omega : i < 2 ^ 17), Nat.shiftLeft_eq]

theorem rxAddr_eq (r : Byte) {i : Nat} (h : i < 2 ^ 16) : rxAddr r i = r.toNat * 2 ^ 17 + 2 ^ 16 + i := by
  unfold rxAddr
  rw [Nat.or_assoc, ← Nat.shiftLeft_add_eq_or_of_lt h, ← Nat.shiftLeft_add_eq_or_of_lt (by omega), Nat.shiftLeft_eq]
  omega

end Sys2Proof.Machine
end

