-- ==== Sys2Proof/Laws/State.lean ====
section
/-! SUPPORT. What each update of State leaves of each field, and what the lists of controllers and requesters hold after
an update. -/

namespace Sys2Proof.Machine

variable (s : State) (c : Nat) (k : Ctrl) (r : Byte)

/-! ## Replacing a controller -/

@[simp] theorem setCtrl_params : (s.setCtrl c k).params = s.params := rfl
@[simp] theorem setCtrl_clockHz : (s.setCtrl c k).clockHz = s.clockHz := rfl
@[simp] theorem setCtrl_reqs : (s.setCtrl c k).reqs = s.reqs := rfl
@[simp] theorem setCtrl_mem : (s.setCtrl c k).mem = s.mem := rfl
@[simp] theorem setCtrl_events : (s.setCtrl c k).events = s.events := rfl
@[simp] theorem setCtrl_draws : (s.setCtrl c k).draws = s.draws := rfl
@[simp] theorem setCtrl_freeCount : (s.setCtrl c k).freeCount = s.freeCount := rfl
@[simp] theorem setCtrl_numCtrl : (s.setCtrl c k).numCtrl = s.numCtrl := by simp [State.numCtrl, State.setCtrl]
@[simp] theorem setCtrl_req? : (s.setCtrl c k).req? r = s.req? r := rfl
@[simp] theorem setCtrl_port? : (s.setCtrl c k).port? r = s.port? r := rfl

/-- What controller `c'` is after controller `c`, which exists, is replaced. -/
theorem ctrl?_setCtrl {k0 : Ctrl} (h : s.ctrl? c = some k0) (c' : Nat) :
    (s.setCtrl c k).ctrl? c' = if c = c' then some k else s.ctrl? c' := by
  have hlt : c < s.ctrls.length := (List.getElem?_eq_some_iff.1 h).1
  simp only [State.ctrl?, State.setCtrl, List.getElem?_set, hlt, if_true]

/-- Replacing a controller leaves every other. -/
theorem ctrl?_setCtrl_ne {c' : Nat} (h : c ≠ c') : (s.setCtrl c k).ctrl? c' = s.ctrl? c' := by
  simp [State.ctrl?, State.setCtrl, h]

theorem ctrl?_lt {c : Nat} {k : Ctrl} (h : s.ctrl? c = some k) : c < s.numCtrl :=
  (List.getElem?_eq_some_iff.1 h).1

/-! ## Changing a requester -/

variable (f : Requester → Requester)

@[simp] theorem modifyReq_params : (s.modifyReq r f).params = s.params := by unfold State.modifyReq; split <;> rfl
@[simp] theorem modifyReq_clockHz : (s.modifyReq r f).clockHz = s.clockHz := by unfold State.modifyReq; split <;> rfl
@[simp] theorem modifyReq_ctrls : (s.modifyReq r f).ctrls = s.ctrls := by unfold State.modifyReq; split <;> rfl
@[simp] theorem modifyReq_mem : (s.modifyReq r f).mem = s.mem := by unfold State.modifyReq; split <;> rfl
@[simp] theorem modifyReq_events : (s.modifyReq r f).events = s.events := by unfold State.modifyReq; split <;> rfl
@[simp] theorem modifyReq_draws : (s.modifyReq r f).draws = s.draws := by unfold State.modifyReq; split <;> rfl
@[simp] theorem modifyReq_freeCount : (s.modifyReq r f).freeCount = s.freeCount := by
  unfold State.modifyReq; split <;> rfl
@[simp] theorem modifyReq_ctrl? : (s.modifyReq r f).ctrl? c = s.ctrl? c := by simp [State.ctrl?]
@[simp] theorem modifyReq_numCtrl : (s.modifyReq r f).numCtrl = s.numCtrl := by simp [State.numCtrl]
@[simp] theorem modifyReq_numReq : (s.modifyReq r f).numReq = s.numReq := by
  unfold State.modifyReq State.numReq; split <;> simp

@[simp] theorem req?_zero : s.req? 0#8 = none := rfl

/-- What requester `r'` is after requester `r` is changed. -/
theorem req?_modifyReq (r' : Byte) :
    (s.modifyReq r f).req? r' = if r = r' then (s.req? r').map f else s.req? r' := by
  by_cases h0 : r = 0
  · subst h0
    simp only [State.modifyReq, if_true]
    by_cases h : (0 : Byte) = r'
    · subst h; rfl
    · rw [if_neg h]
  · by_cases h0' : r' = 0
    · subst h0'; rw [if_neg h0]; rfl
    · have hr : 0 < r.toNat := by rcases Nat.eq_zero_or_pos r.toNat with h | h
                                  · exact absurd (BitVec.eq_of_toNat_eq (by simpa using h)) h0
                                  · exact h
      have hr' : 0 < r'.toNat := by rcases Nat.eq_zero_or_pos r'.toNat with h | h
                                    · exact absurd (BitVec.eq_of_toNat_eq (by simpa using h)) h0'
                                    · exact h
      have hiff : (r.toNat - 1 = r'.toNat - 1) ↔ r = r' := by
        constructor
        · intro h; exact BitVec.eq_of_toNat_eq (by omega)
        · rintro rfl; rfl
      simp only [State.modifyReq, h0, State.req?, h0', if_false, List.getElem?_modify, hiff]
      by_cases h : r = r'
      · simp [h]
      · simp [h]

/-! ## Accepting and responding -/

@[simp] theorem setOutstanding_params : (s.setOutstanding r).params = s.params := modifyReq_params ..
@[simp] theorem setOutstanding_clockHz : (s.setOutstanding r).clockHz = s.clockHz := modifyReq_clockHz ..
@[simp] theorem setOutstanding_ctrls : (s.setOutstanding r).ctrls = s.ctrls := modifyReq_ctrls ..
@[simp] theorem setOutstanding_mem : (s.setOutstanding r).mem = s.mem := modifyReq_mem ..
@[simp] theorem setOutstanding_events : (s.setOutstanding r).events = s.events := modifyReq_events ..
@[simp] theorem setOutstanding_draws : (s.setOutstanding r).draws = s.draws := modifyReq_draws ..
@[simp] theorem setOutstanding_freeCount : (s.setOutstanding r).freeCount = s.freeCount := modifyReq_freeCount ..
@[simp] theorem setOutstanding_ctrl? : (s.setOutstanding r).ctrl? c = s.ctrl? c := modifyReq_ctrl? ..

theorem req?_setOutstanding (r' : Byte) :
    (s.setOutstanding r).req? r' =
      if r = r' then (s.req? r').map (fun q => { q with outstanding := true }) else s.req? r' :=
  req?_modifyReq ..

variable (res : Kind) (d : Word)

@[simp] theorem respond_params : (s.respond r res d).params = s.params := modifyReq_params ..
@[simp] theorem respond_clockHz : (s.respond r res d).clockHz = s.clockHz := modifyReq_clockHz ..
@[simp] theorem respond_ctrls : (s.respond r res d).ctrls = s.ctrls := modifyReq_ctrls ..
@[simp] theorem respond_mem : (s.respond r res d).mem = s.mem := modifyReq_mem ..
@[simp] theorem respond_events : (s.respond r res d).events = s.events := modifyReq_events ..
@[simp] theorem respond_draws : (s.respond r res d).draws = s.draws := modifyReq_draws ..
@[simp] theorem respond_freeCount : (s.respond r res d).freeCount = s.freeCount := modifyReq_freeCount ..
@[simp] theorem respond_ctrl? : (s.respond r res d).ctrl? c = s.ctrl? c := modifyReq_ctrl? ..

theorem req?_respond (r' : Byte) :
    (s.respond r res d).req? r' =
      if r = r' then
        (s.req? r').map (fun q => { outstanding := false, responses := q.responses ++ [responseWord res d] })
      else s.req? r' :=
  req?_modifyReq ..

/-! ## Draws -/

@[simp] theorem draw_params : s.draw.2.params = s.params := by unfold State.draw; split <;> rfl
@[simp] theorem draw_clockHz : s.draw.2.clockHz = s.clockHz := by unfold State.draw; split <;> rfl
@[simp] theorem draw_ctrls : s.draw.2.ctrls = s.ctrls := by unfold State.draw; split <;> rfl
@[simp] theorem draw_reqs : s.draw.2.reqs = s.reqs := by unfold State.draw; split <;> rfl
@[simp] theorem draw_mem : s.draw.2.mem = s.mem := by unfold State.draw; split <;> rfl
@[simp] theorem draw_events : s.draw.2.events = s.events := by unfold State.draw; split <;> rfl
@[simp] theorem draw_ctrl? : s.draw.2.ctrl? c = s.ctrl? c := by simp [State.ctrl?]
@[simp] theorem draw_req? : s.draw.2.req? r = s.req? r := by simp [State.req?]

/-- A draw that `draws` gives. -/
theorem draw_cons (d : Byte) (rest : List Byte) (h : s.draws = d :: rest) :
    s.draw = (d, { s with draws := rest }) := by
  unfold State.draw; rw [h]

variable (busy : Bool)

/-- Either the levels are fixed and nothing is drawn, or one draw is made. -/
theorem drawLines_cases :
    ((s.drawLines busy).2 = s ∧ (s.drawLines busy).1 = { sda := true, scl := true } ∧ busy = false ∧
        s.params.linesModel = .idleWhenNotBusy) ∨
      ((s.drawLines busy).2 = s.draw.2 ∧
        (s.drawLines busy).1 = { sda := s.draw.1.getLsbD 0, scl := s.draw.1.getLsbD 1 }) := by
  unfold State.drawLines
  split
  · exact .inl ⟨rfl, rfl, rfl, by assumption⟩
  · exact .inr ⟨rfl, rfl⟩

@[simp] theorem drawLines_params : (s.drawLines busy).2.params = s.params := by
  rcases drawLines_cases s busy with h | h <;> simp [h.1]
@[simp] theorem drawLines_clockHz : (s.drawLines busy).2.clockHz = s.clockHz := by
  rcases drawLines_cases s busy with h | h <;> simp [h.1]
@[simp] theorem drawLines_ctrls : (s.drawLines busy).2.ctrls = s.ctrls := by
  rcases drawLines_cases s busy with h | h <;> simp [h.1]
@[simp] theorem drawLines_reqs : (s.drawLines busy).2.reqs = s.reqs := by
  rcases drawLines_cases s busy with h | h <;> simp [h.1]
@[simp] theorem drawLines_mem : (s.drawLines busy).2.mem = s.mem := by
  rcases drawLines_cases s busy with h | h <;> simp [h.1]
@[simp] theorem drawLines_events : (s.drawLines busy).2.events = s.events := by
  rcases drawLines_cases s busy with h | h <;> simp [h.1]
@[simp] theorem drawLines_ctrl? : (s.drawLines busy).2.ctrl? c = s.ctrl? c := by simp [State.ctrl?]
@[simp] theorem drawLines_req? : (s.drawLines busy).2.req? r = s.req? r := by simp [State.req?]

end Sys2Proof.Machine
end

