-- ==== Sys2Proof/Laws/Control.lean ====
section
/-! SUPPORT. The control invariant, operation by operation: what keeps `Ctrl.Sound`, and the three ways a step changes who
owns a controller (no change, acquiring, releasing) at the level of `State.Inv`. -/

namespace Sys2Proof.Machine

variable {buf : Nat} {k k' : Ctrl}

/-! ## One controller -/

/-- Soundness looks at the record, `ie`, `done`, the orchestrator and `enabled` only. -/
theorem Ctrl.Sound.congr (h : k.Sound buf) (hr : k'.record = k.record) (hi : k'.ie = k.ie) (hd : k'.done = k.done)
    (ho : k'.orch = k.orch) (he : k'.bus.enabled = k.bus.enabled) : k'.Sound buf := by
  obtain ⟨a1, a2, a3, a4, a5, a6, a7, a8, a9, a10, a11, a12, a13, a14, a15, a16, a17⟩ := h
  constructor <;> simp only [hr, hi, hd, ho, he] <;> assumption

@[simp] theorem push_enabled (b : Bus) (a : BusAction) : (b.push a).enabled = b.enabled := by
  unfold Bus.push; split <;> rfl
@[simp] theorem push_busErr (b : Bus) (a : BusAction) : (b.push a).busErr = b.busErr := by
  unfold Bus.push; split <;> rfl
@[simp] theorem push_nackFlag (b : Bus) (a : BusAction) : (b.push a).nackFlag = b.nackFlag := by
  unfold Bus.push; split <;> rfl
@[simp] theorem push_busy (b : Bus) (a : BusAction) : (b.push a).busy = b.busy := by
  unfold Bus.push; split <;> rfl
@[simp] theorem push_rdy (b : Bus) (a : BusAction) : (b.push a).rdy = b.rdy := by
  unfold Bus.push; split <;> rfl
@[simp] theorem push_rxPending (b : Bus) (a : BusAction) : (b.push a).rxPending = b.rxPending := by
  unfold Bus.push; split <;> rfl
@[simp] theorem push_nackArmed (b : Bus) (a : BusAction) : (b.push a).nackArmed = b.nackArmed := by
  unfold Bus.push; split <;> rfl

/-- A STOP pushed on an enabled controller is queued (41_sequencer.md R185). -/
theorem push_stop (b : Bus) (h : b.enabled = true) : (b.push .stop) = { b with eq := b.eq ++ [.stop] } := by
  simp [Bus.push, Bus.discards, h]

/-- A push under no fault flag on an enabled controller is queued (41_sequencer.md R185). -/
theorem push_clear (b : Bus) (a : BusAction) (h : b.enabled = true) (hb : b.busErr = false) (hn : b.nackFlag = false) :
    (b.push a) = { b with eq := b.eq ++ [a] } := by
  simp [Bus.push, Bus.discards, h, hb, hn]

@[simp] theorem send_enabled (b : Bus) (v : Byte) : (b.send v).enabled = b.enabled := by simp [Bus.send]

/-- What a sound controller with interrupts enabled is doing. -/
theorem Ctrl.Sound.waiting (h : k.Sound buf) (hi : k.ie = true) :
    k.orch.phase = .wait ∧ k.done = false ∧ k.record.opState.active = true ∧ k.orch.recPhase = .none ∧
      k.bus.enabled = true := by
  have hw := h.interrupts.1 hi
  refine ⟨hw.1, hw.2, (h.awaited hw.1).2 hw.2, h.recovering.2 (.inr hw.1), ?_⟩
  have := h.recovering.2 (.inr hw.1)
  cases he : k.bus.enabled with
  | true => rfl
  | false => have := h.disabled.1 he; simp_all

/-- A sound controller that is owned, with the requester it is for. -/
theorem Ctrl.Sound.curReq (h : k.Sound buf) (hp : k.orch.phase ≠ .free) : k.orch.curReq = k.record.owner :=
  h.forOwner fun h0 => hp (h.owned.1 h0)

theorem Ctrl.Sound.engStart (h : k.Sound buf) (rest) : (k.engStart rest).Sound buf := h.congr rfl rfl rfl rfl rfl
theorem Ctrl.Sound.engSend (h : k.Sound buf) (v rest a) : (k.engSend v rest a).Sound buf := by
  cases a
  · simp only [Ctrl.engSend, Ctrl.engSendAck]; split <;> exact h.congr rfl rfl rfl rfl rfl
  · exact h.congr rfl rfl rfl rfl rfl
theorem Ctrl.Sound.engReceive (h : k.Sound buf) (b) : (k.engReceive b).Sound buf := h.congr rfl rfl rfl rfl rfl
theorem Ctrl.Sound.engStop (h : k.Sound buf) (rest) : (k.engStop rest).Sound buf := by
  unfold Ctrl.engStop; split <;> exact h.congr rfl rfl rfl rfl rfl
theorem Ctrl.Sound.raiseBusError (h : k.Sound buf) : k.raiseBusError.Sound buf := h.congr rfl rfl rfl rfl rfl
theorem Ctrl.Sound.raiseStretch (h : k.Sound buf) : k.raiseStretch.Sound buf := h.congr rfl rfl rfl rfl rfl
theorem Ctrl.Sound.program (h : k.Sound buf) (r) : (k.program r).Sound buf := h.congr rfl rfl rfl rfl rfl
theorem Ctrl.Sound.applyMux (h : k.Sound buf) (ps p) : (k.applyMux ps p).Sound buf := by
  unfold Ctrl.applyMux; split
  · split
    · exact h.congr rfl rfl rfl rfl rfl
    · exact h
  · exact h

theorem Ctrl.Sound.endWithError (h : k.Sound buf) (hi : k.ie = true) (kind) (hk : kind.recordable = true) :
   (k.endWithError kind).Sound buf := by
  obtain ⟨w, d, a, r, e⟩ := h.waiting hi
  obtain ⟨a1, a2, a3, a4, a5, a6, a7, a8, a9, a10, a11, a12, a13, a14, a15, a16, a17⟩ := h
  constructor <;> simp_all [Ctrl.endWithError, OpState.active]

theorem Ctrl.Sound.rowBusError (h : k.Sound buf) (hi : k.ie = true) : k.rowBusError.Sound buf := by
  unfold Ctrl.rowBusError
  refine Ctrl.Sound.endWithError ?_ (by exact hi) _ ?_
  · exact h.congr rfl rfl rfl rfl (by simp)
  · rfl
theorem Ctrl.Sound.rowNack (h : k.Sound buf) (hi : k.ie = true) : k.rowNack.Sound buf := by
  unfold Ctrl.rowNack
  refine Ctrl.Sound.endWithError ?_ (by exact hi) _ ?_
  · exact h.congr rfl rfl rfl rfl (by simp)
  · rfl

theorem Ctrl.Sound.rowAddress (h : k.Sound buf) (hi : k.ie = true) (hs : k.record.opState = .start ∨ k.record.opState = .repeatStart) : k.rowAddress.Sound buf := by
  obtain ⟨w, d, a, r, e⟩ := h.waiting hi
  obtain ⟨a1, a2, a3, a4, a5, a6, a7, a8, a9, a10, a11, a12, a13, a14, a15, a16, a17⟩ := h
  obtain ⟨c0, c1⟩ := a17 w hs
  unfold Ctrl.rowAddress
  split
  · next ht =>
    have h1 := c1 ht
    have : 0 < k.record.rxLen.toNat := by
      rcases Nat.eq_zero_or_pos k.record.rxLen.toNat with h | h
      · exact absurd (BitVec.eq_of_toNat_eq (by simpa using h)) h1
      · exact h
    constructor <;> simp_all [OpState.active]
  · constructor <;> simp_all [OpState.active]

theorem Ctrl.Sound.rowWriteByte (h : k.Sound buf) (hi : k.ie = true) (hs : k.record.opState = .write)
   (hc : k.record.cursor.toNat < k.record.txLen.toNat) (v) : (k.rowWriteByte v).Sound buf := by
  obtain ⟨w, d, a, r, e⟩ := h.waiting hi
  have hinc : (k.record.cursor + 1).toNat = k.record.cursor.toNat + 1 := by
    have := k.record.txLen.isLt; simp [BitVec.toNat_add]; omega
  obtain ⟨a1, a2, a3, a4, a5, a6, a7, a8, a9, a10, a11, a12, a13, a14, a15, a16, a17⟩ := h
  unfold Ctrl.rowWriteByte
  constructor <;> simp_all [OpState.active] <;> omega

theorem Ctrl.Sound.rowWriteEnd (h : k.Sound buf) (hi : k.ie = true) : (k.rowWriteEnd).Sound buf := by
  obtain ⟨w, d, a, r, e⟩ := h.waiting hi
  obtain ⟨a1, a2, a3, a4, a5, a6, a7, a8, a9, a10, a11, a12, a13, a14, a15, a16, a17⟩ := h
  unfold Ctrl.rowWriteEnd
  cases hf : k.record.flagStop <;> constructor <;> simp_all [OpState.active, Kind.recordable]

theorem Ctrl.Sound.rowWriteToRead (h : k.Sound buf) (hi : k.ie = true) (hr : k.record.rxLen ≠ 0) : (k.rowWriteToRead).Sound buf := by
  obtain ⟨w, d, a, r, e⟩ := h.waiting hi
  obtain ⟨a1, a2, a3, a4, a5, a6, a7, a8, a9, a10, a11, a12, a13, a14, a15, a16, a17⟩ := h
  have : 0 < k.record.rxLen.toNat := by
      rcases Nat.eq_zero_or_pos k.record.rxLen.toNat with h | h
      · exact absurd (BitVec.eq_of_toNat_eq (by simpa using h)) hr
      · exact h
  unfold Ctrl.rowWriteToRead
  constructor <;> simp_all [OpState.active, Kind.recordable]


@[simp] theorem rowReadArm_record : k.rowReadArm.record = k.record := by
  unfold Ctrl.rowReadArm; split <;> split <;> rfl
@[simp] theorem rowReadArm_orch : k.rowReadArm.orch = k.orch := by
  unfold Ctrl.rowReadArm; split <;> split <;> rfl
@[simp] theorem rowReadArm_done : k.rowReadArm.done = k.done := by
  unfold Ctrl.rowReadArm; split <;> split <;> rfl
@[simp] theorem rowReadArm_enabled : k.rowReadArm.bus.enabled = k.bus.enabled := by
  unfold Ctrl.rowReadArm; split <;> split <;> simp
theorem rowReadArm_ie (h : ¬ (k.record.cursor.toNat + 1 = k.record.rxLen.toNat)) : k.rowReadArm.ie = k.ie := by
  unfold Ctrl.rowReadArm; rw [if_neg h]; split <;> rfl

theorem Ctrl.Sound.rowRead (h : k.Sound buf) (hi : k.ie = true) (hs : k.record.opState = .read)
   (hc : k.record.cursor.toNat < k.record.rxLen.toNat)  : (k.rowRead).Sound buf := by
  obtain ⟨w, d, a, r, e⟩ := h.waiting hi
  have hinc : (k.record.cursor + 1).toNat = k.record.cursor.toNat + 1 := by
    have := k.record.rxLen.isLt; simp [BitVec.toNat_add]; omega
  have heq : k.record.cursor + 1 = k.record.rxLen ↔ k.record.cursor.toNat + 1 = k.record.rxLen.toNat := by
    rw [← hinc]; exact ⟨fun h => by rw [h], fun h => BitVec.eq_of_toNat_eq h⟩
  obtain ⟨a1, a2, a3, a4, a5, a6, a7, a8, a9, a10, a11, a12, a13, a14, a15, a16, a17⟩ := h
  unfold Ctrl.rowRead Ctrl.rowReadEnd Ctrl.rowReadByte
  simp only [rowReadArm_record, heq]
  by_cases hlast : k.record.cursor.toNat + 1 = k.record.rxLen.toNat
  · rw [if_pos hlast]
    have hl := heq.2 hlast
    cases hf : k.record.flagStop <;> constructor <;> simp_all [OpState.active, Bus.readData, Kind.recordable]
  · rw [if_neg hlast]
    have hie := rowReadArm_ie hlast
    constructor <;> simp_all [OpState.active, Bus.readData, Kind.recordable] <;> omega

theorem Ctrl.Sound.timeoutFires (h : k.Sound buf) (hw : k.orch.phase = .wait) (hd : k.done = false) : (k.timeoutFires).Sound buf := by
  obtain ⟨a1, a2, a3, a4, a5, a6, a7, a8, a9, a10, a11, a12, a13, a14, a15, a16, a17⟩ := h
  have he : k.bus.enabled = true := by
    cases he : k.bus.enabled
    · have := a4.1 he; have := a3.2 (.inr hw); simp_all
    · rfl
  obtain ⟨x, hx⟩ : ∃ x, k.orch.cmd = .transfer x := by
    rw [hw] at a10; revert a10; cases k.orch.cmd <;> simp [Running.Fits]
  unfold Ctrl.timeoutFires Ctrl.recoverStart Ctrl.abortStart
  cases k.bus.busy <;> constructor <;> simp_all [OpState.active, Kind.recordable, Running.Fits]

/-- the state of a controller under a running recovery -/
theorem Ctrl.Sound.abortStart' (h : k.Sound buf) (hp : k.orch.phase ≠ .free) (hp' : k.orch.phase ≠ .wait) (hr : k.orch.recPhase = .abortWait):
  k.abortStart.Sound buf := by
  obtain ⟨a1, a2, a3, a4, a5, a6, a7, a8, a9, a10, a11, a12, a13, a14, a15, a16, a17⟩ := h
  unfold Ctrl.abortStart
  cases k.bus.busy <;> constructor <;> simp_all 

theorem Ctrl.Sound.free (h : k.Sound buf) (h0 : k.record.owner = 0) : k.orch.phase = .free ∧ k.orch.recPhase = .none ∧ k.bus.enabled = true ∧ k.ie = false ∧ k.done = false ∧ k.record.opState.active = false := by
  have hf := h.owned.1 h0
  have hr := h.recovering.2 (.inl hf)
  refine ⟨hf, hr, ?_, ?_, ?_, h.rests hf⟩
  · cases he : k.bus.enabled
    · have := h.disabled.1 he; simp_all
    · rfl
  · cases hi : k.ie
    · rfl
    · have := (h.interrupts.1 hi).1; simp_all
  · cases hi : k.done
    · rfl
    · have := (h.completes hi); simp_all

theorem Ctrl.Sound.abortCmd (h : k.Sound buf) (h0 : k.record.owner = 0) (r) (hr : r ≠ 0) : (k.takeFor r .abort).abortStart.Sound buf := by
  obtain ⟨b1,b2,b3,b4,b5,b6⟩ := h.free h0
  obtain ⟨a1, a2, a3, a4, a5, a6, a7, a8, a9, a10, a11, a12, a13, a14, a15, a16, a17⟩ := h
  unfold Ctrl.takeFor Ctrl.abortStart
  cases k.bus.busy <;> constructor <;> simp_all [Running.Fits]
theorem Ctrl.Sound.recoverCmd (h : k.Sound buf) (h0 : k.record.owner = 0) (r) (hr : r ≠ 0) (e) : ((k.takeFor r .recover).recoverStart e).Sound buf := by
  obtain ⟨b1,b2,b3,b4,b5,b6⟩ := h.free h0
  obtain ⟨a1, a2, a3, a4, a5, a6, a7, a8, a9, a10, a11, a12, a13, a14, a15, a16, a17⟩ := h
  unfold Ctrl.takeFor Ctrl.recoverStart Ctrl.abortStart
  cases k.bus.busy <;> constructor <;> simp_all [Running.Fits]
theorem Ctrl.Sound.resetCmd (h : k.Sound buf) (h0 : k.record.owner = 0) (r) (hr : r ≠ 0) (e) : ((k.takeFor r .reset).resetStart e).Sound buf := by
  obtain ⟨b1,b2,b3,b4,b5,b6⟩ := h.free h0
  obtain ⟨a1, a2, a3, a4, a5, a6, a7, a8, a9, a10, a11, a12, a13, a14, a15, a16, a17⟩ := h
  unfold Ctrl.takeFor Ctrl.resetStart
  constructor <;> simp_all [Running.Fits]

/-- taken, before arming or pre-recovery: what holds -/
structure Taken (buf : Nat) (x : TransferArgs) (k : Ctrl) : Prop where
  idle : k.orch.recPhase = .none
  own : k.record.owner ≠ 0
  cur : k.orch.curReq = k.record.owner
  cmd : k.orch.cmd = .transfer x
  chk : x.Checked buf
  en : k.bus.enabled = true
  ie : k.ie = false
  dn : k.done = false
  st : k.record.opState.active = false
  kinds : k.record.errorCode.recordable = true
  lens : k.record.txLen.toNat ≤ buf ∧ k.record.rxLen.toNat ≤ buf
  cursor : k.record.cursor.toNat ≤ max k.record.txLen.toNat k.record.rxLen.toNat

theorem Taken.mux {x} (h : Taken buf x k) (ps p) : Taken buf x (k.applyMux ps p) := by
  unfold Ctrl.applyMux; split
  · split
    · exact ⟨h.1,h.2,h.3,h.4,h.5,h.6,h.7,h.8,h.9,h.10,h.11,h.12⟩
    · exact h
  · exact h
theorem Taken.take {x} (h : k.Sound buf) (h0 : k.record.owner = 0) (ps r p) (hr : r ≠ 0) (hx : x.Checked buf) : Taken buf x (k.take ps r p x) := by
  obtain ⟨b1,b2,b3,b4,b5,b6⟩ := h.free h0
  unfold Ctrl.take
  apply Taken.mux
  exact ⟨b2, hr, rfl, rfl, hx, b3, b4, b5, b6, h.kinds, h.lengths, h.cursor⟩
theorem Taken.preRecover {x} (h : Taken buf x k) (hs : k.record.opState = .idle) : k.preRecover.Sound buf := by
  obtain ⟨a1, a2, a3, a4, a5, a6, a7, a8, a9, a10, a11, a12⟩ := h
  unfold Ctrl.preRecover Ctrl.unwedge Ctrl.emit Ctrl.recoverStart Ctrl.abortStart
  cases k.bus.busy <;> constructor <;> simp_all [Running.Fits]
theorem Taken.arm {x} (h : Taken buf x k) : ∃ k1, (k.load x).arm = some k1 ∧ k1.Sound buf ∧ k1.record.owner = k.record.owner := by
  obtain ⟨a1, a2, a3, a4, a5, a6, a7, a8, a9, a10, a11, a12⟩ := h
  obtain ⟨c1,c2,c3⟩ := a5
  have hx : x.tx = 0 → 0 < x.rx.toNat := by
    intro ht
    rcases Nat.eq_zero_or_pos x.rx.toNat with h | h
    · exact absurd ⟨ht, BitVec.eq_of_toNat_eq (by simpa using h)⟩ c1
    · exact h
  unfold Ctrl.arm
  cases hs : k.record.opState <;> simp only [Ctrl.load, hs]  <;> try (simp_all [OpState.active]; done)
  · refine ⟨_, rfl, ?_, rfl⟩
    unfold Ctrl.beginWait Ctrl.pushStart
    constructor <;> simp_all [Running.Fits, OpState.active, Kind.recordable]
  · split
    · refine ⟨_, rfl, ?_, rfl⟩
      unfold Ctrl.beginWait Ctrl.pushStart
      constructor <;> simp_all [Running.Fits, OpState.active, Kind.recordable]
    · refine ⟨_, rfl, ?_, rfl⟩
      unfold Ctrl.beginWait
      constructor <;> simp_all [Running.Fits, OpState.active, Kind.recordable]
  · split
    · refine ⟨_, rfl, ?_, rfl⟩
      unfold Ctrl.rejectResume Ctrl.recoverStart Ctrl.abortStart
      cases k.bus.busy <;> constructor <;> simp_all [Running.Fits, OpState.active, Kind.recordable]
    · next h =>
      refine ⟨_, rfl, ?_, rfl⟩
      have h2 : x.tx = 0 := by by_contra h'; exact h (.inr h')
      have := hx h2
      unfold Ctrl.beginWait
      constructor <;> simp_all [Running.Fits, OpState.active, Kind.recordable]
/-- released -/
structure Done (buf : Nat) (k : Ctrl) : Prop where
  idle : k.orch.recPhase = .none
  en : k.bus.enabled = true
  ie : k.ie = false
  dn : k.done = false
  st : k.record.opState.active = false
  kinds : k.record.errorCode.recordable = true
  lens : k.record.txLen.toNat ≤ buf ∧ k.record.rxLen.toNat ≤ buf
  cursor : k.record.cursor.toNat ≤ max k.record.txLen.toNat k.record.rxLen.toNat
theorem Done.release (h : Done buf k) : Ctrl.Sound buf { k with record := { k.record with owner := 0 }, orch := { k.orch with phase := .free, cmd := .none } } := by
  obtain ⟨a1, a2, a3, a4, a5, a6, a7, a8⟩ := h
  constructor <;> simp_all [Running.Fits]

end Sys2Proof.Machine
end

