-- ==== Sys2Proof/Laws/Ownership.lean ====
section
/-! SUPPORT. The three ways a step changes who owns a controller (no change, acquiring, releasing), and an immediate response,
each keeping `State.Inv`. -/

namespace Sys2Proof.Machine

variable {s t : State} {c : Nat} {k k' : Ctrl}

/-- Inv depends only on params, ctrls, reqs, mem -/
theorem State.Inv.congr (h : s.Inv) (hp : t.params = s.params) (hc : t.ctrls = s.ctrls) (hr : t.reqs = s.reqs) (hm : Memory.wf t.mem = true) : t.Inv := by
  have e1 : ∀ c, t.ctrl? c = s.ctrl? c := fun c => by simp [State.ctrl?, hc]
  have e2 : ∀ r, t.req? r = s.req? r := fun r => by simp [State.req?, hr]
  have e3 : t.numCtrl = s.numCtrl := by simp [State.numCtrl, hc]
  obtain ⟨a1,a2,a3,a4,a5,a6⟩ := h
  exact ⟨by simpa only [hp, e1] using a1, by simpa only [e1, e2] using a2, by simpa only [e1, e2] using a3, by simpa only [e1] using a4, by simpa only [hp, e3] using a5, hm⟩

/-- an owner-keeping replacement -/
theorem State.Inv.setCtrl (h : s.Inv) (hk : s.ctrl? c = some k) (hs : k'.Sound s.params.bufBytes) (ho : k'.record.owner = k.record.owner) : (s.setCtrl c k').Inv := by
  have e1 := ctrl?_setCtrl s c k' hk
  obtain ⟨a1,a2,a3,a4,a5,a6⟩ := h
  have own : ∀ c1 k1, (s.setCtrl c k').ctrl? c1 = some k1 → ∃ k0, s.ctrl? c1 = some k0 ∧ k0.record.owner = k1.record.owner := by
    intro c1 k1 h1
    rw [e1] at h1
    split at h1
    · next hcc => subst hcc; cases h1; exact ⟨k, hk, ho.symm⟩
    · exact ⟨k1, h1, rfl⟩
  constructor
  · intro c1 k1 h1
    rw [e1] at h1
    split at h1
    · cases h1; exact hs
    · exact a1 _ _ h1
  · intro c1 k1 h1 h2
    obtain ⟨k0, h3, h4⟩ := own _ _ h1
    simpa [h4] using a2 _ _ h3 (by rwa [h4])
  · intro r q h1 h2
    obtain ⟨c1, k1, h3, h4⟩ := a3 r q (by simpa using h1) h2
    by_cases hcc : c = c1
    · subst hcc; rw [hk] at h3; cases h3
      exact ⟨c, k', by rw [e1, if_pos rfl], by rw [ho, h4]⟩
    · exact ⟨c1, k1, by rw [e1, if_neg hcc]; exact h3, h4⟩
  · intro c1 c2 k1 k2 h1 h2 h3 h4
    obtain ⟨k3, h5, h6⟩ := own _ _ h1
    obtain ⟨k4, h7, h8⟩ := own _ _ h2
    exact a4 _ _ _ _ h5 h7 (by rwa [h6]) (by rw [h6, h8, h4])
  · simpa using a5
  · simpa using a6

/-- acquiring -/
theorem State.Inv.acquire {r : Byte} {q : Requester} (h : s.Inv) (hk : s.ctrl? c = some k) (h0 : k.record.owner = 0)
   (hq : s.req? r = some q) (hq0 : q.outstanding = false)
   (hs : k'.Sound s.params.bufBytes) (ho : k'.record.owner = r) : ((s.setOutstanding r).setCtrl c k').Inv := by
  have hk2 : (s.setOutstanding r).ctrl? c = some k := by simpa using hk
  have e1 := ctrl?_setCtrl (s.setOutstanding r) c k' hk2
  have hr0 : r ≠ 0 := by rintro rfl; simp [req?_zero] at hq
  have e2 : ∀ r', ((s.setOutstanding r).setCtrl c k').req? r' = if r = r' then some { q with outstanding := true } else s.req? r' := by
    intro r'
    rw [setCtrl_req?, req?_setOutstanding]
    split
    · next h => subst h; rw [hq]; rfl
    · rfl
  obtain ⟨a1,a2,a3,a4,a5,a6⟩ := h
  have notr : ∀ c1 k1, s.ctrl? c1 = some k1 → k1.record.owner ≠ r := by
    intro c1 k1 h1 h2
    obtain ⟨q', h3, h4⟩ := a2 c1 k1 h1 (by rw [h2]; exact hr0)
    rw [h2, hq] at h3; cases h3; simp [hq0] at h4
  constructor
  · intro c1 k1 h1
    rw [e1] at h1
    split at h1
    · cases h1; simpa using hs
    · simpa using a1 c1 k1 (by simpa using h1)
  · intro c1 k1 h1 h2
    rw [e1] at h1
    rw [e2]
    split at h1
    · cases h1; rw [if_pos ho.symm]; exact ⟨_, rfl, rfl⟩
    · have h1' : s.ctrl? c1 = some k1 := by simpa using h1
      rw [if_neg (fun h => notr _ _ h1' h.symm)]
      exact a2 c1 k1 h1' h2
  · intro r' q' h1 h2
    rw [e2] at h1
    split at h1
    · next hr => subst hr; exact ⟨c, k', by rw [e1, if_pos rfl], ho⟩
    · obtain ⟨c1, k1, h3, h4⟩ := a3 r' q' h1 h2
      have hne : c ≠ c1 := by
        rintro rfl; rw [hk] at h3; cases h3
        rw [h0] at h4; rw [← h4] at h1; simp [req?_zero] at h1
      exact ⟨c1, k1, by rw [e1, if_neg hne]; simpa using h3, h4⟩
  · intro c1 c2 k1 k2 h1 h2 h3 h4
    rw [e1] at h1 h2
    split at h1 <;> split at h2
    · subst_vars; rfl
    · cases h1; have := notr c2 k2 (by simpa using h2); rw [ho] at h4; exact absurd h4.symm this
    · cases h2; have := notr c1 k1 (by simpa using h1); rw [ho] at h4; exact absurd h4 this
    · exact a4 _ _ _ _ (by simpa using h1) (by simpa using h2) h3 h4
  · have : ((s.setOutstanding r).setCtrl c k').numCtrl = s.numCtrl := by simp [State.numCtrl, State.setCtrl]
    simpa [this] using a5
  · simpa using a6

/-- releasing -/
theorem State.Inv.release (h : s.Inv) (hk : s.ctrl? c = some k) (ho : k.record.owner ≠ 0)
   (hd : Done s.params.bufBytes k') (hcur : k'.orch.curReq = k.record.owner) (res d) : (Machine.release s c k' res d).Inv := by
  have hs := hd.release
  unfold Machine.release
  generalize hk2 : ({ k' with record := { k'.record with owner := 0 }, orch := { k'.orch with phase := .free, cmd := .none } } : Ctrl) = k2 at *
  have o2 : k2.record.owner = 0 := by rw [← hk2]
  rw [hcur]
  have e1 : ∀ c1, ((s.setCtrl c k2).respond k.record.owner res d).ctrl? c1 = if c = c1 then some k2 else s.ctrl? c1 := by
    intro c1; rw [respond_ctrl?]; exact ctrl?_setCtrl s c k2 hk c1
  obtain ⟨a1,a2,a3,a4,a5,a6⟩ := h
  obtain ⟨q, hq, hq1⟩ := a2 c k hk ho
  have e2 : ∀ r', ((s.setCtrl c k2).respond k.record.owner res d).req? r' = if k.record.owner = r' then some { outstanding := false, responses := q.responses ++ [responseWord res d] } else s.req? r' := by
    intro r'
    rw [req?_respond, setCtrl_req?]
    split
    · next h => subst h; rw [hq]; rfl
    · rfl
  constructor
  · intro c1 k1 h1
    rw [e1] at h1
    split at h1
    · cases h1; simpa using hs
    · simpa using a1 c1 k1 (by simpa using h1)
  · intro c1 k1 h1 h2
    rw [e1] at h1
    rw [e2]
    split at h1
    · cases h1; exact absurd o2 h2
    · next hne =>
      rw [if_neg (fun h => hne (a4 _ _ _ _ hk h1 ho h))]
      exact a2 c1 k1 h1 h2
  · intro r' q' h1 h2
    rw [e2] at h1
    split at h1
    · cases h1; simp at h2
    · next hne =>
      obtain ⟨c1, k1, h3, h4⟩ := a3 r' q' h1 h2
      have hcc : c ≠ c1 := by
        rintro rfl; rw [hk] at h3; cases h3; exact hne h4
      exact ⟨c1, k1, by rw [e1, if_neg hcc]; exact h3, h4⟩
  · intro c1 c2 k1 k2' h1 h2 h3 h4
    rw [e1] at h1 h2
    split at h1 <;> split at h2
    · subst_vars; rfl
    · cases h1; exact absurd o2 h3
    · cases h2; rw [o2] at h4; exact absurd h4 h3
    · exact a4 _ _ _ _ h1 h2 h3 h4
  · simpa [State.numCtrl, State.setCtrl] using a5
  · simpa using a6

/-- immediate responses -/
theorem State.Inv.respond {r : Byte} {q : Requester} (h : s.Inv) (hq : s.req? r = some q) (hq0 : q.outstanding = false) (res d) : (s.respond r res d).Inv := by
  have e2 : ∀ r', (s.respond r res d).req? r' = if r = r' then some { outstanding := false, responses := q.responses ++ [responseWord res d] } else s.req? r' := by
    intro r'
    rw [req?_respond]
    split
    · next h => subst h; rw [hq]; rfl
    · rfl
  obtain ⟨a1,a2,a3,a4,a5,a6⟩ := h
  constructor
  · simpa using a1
  · intro c1 k1 h1 h2
    obtain ⟨q', h3, h4⟩ := a2 c1 k1 (by simpa using h1) h2
    rw [e2]
    split
    · next hr => rw [← hr, hq] at h3; cases h3; simp [hq0] at h4
    · exact ⟨q', h3, h4⟩
  · intro r' q' h1 h2
    rw [e2] at h1
    split at h1
    · cases h1; simp at h2
    · obtain ⟨c1, k1, h3, h4⟩ := a3 r' q' h1 h2
      exact ⟨c1, k1, by simpa using h3, h4⟩
  · simpa using a4
  · simpa [State.numCtrl] using a5
  · simpa using a6
end Sys2Proof.Machine
end

