-- ==== Sys2Proof/Laws/Steps.lean ====
section
/-! SUPPORT. The control invariant over the steps of every agent and over every command: each is kept, and none faults. -/

namespace Sys2Proof.Machine
variable {s t : State} {c : Nat} {k k' : Ctrl}

theorem State.Inv.draw (h : s.Inv) : s.draw.2.Inv := h.congr (by simp) (by simp) (by simp) (by simpa using h.memory)
theorem State.Inv.drawLines (h : s.Inv) (b) : (s.drawLines b).2.Inv := h.congr (by simp) (by simp) (by simp) (by simpa using h.memory)

theorem State.Inv.engStep (h : s.Inv) (hk : s.ctrl? c = some k) : (engStep s c k).Inv := by
  have hs := h.sound c k hk
  unfold Machine.engStep
  split
  · exact h.setCtrl hk (hs.engStart _) rfl
  · refine (State.Inv.draw h).setCtrl (k := k) (by simpa using hk) (by simpa using hs.engSend _ _ _) ?_
    unfold Ctrl.engSend Ctrl.engSendAck; split
    · split <;> rfl
    · rfl
  · refine h.setCtrl hk (hs.engStop _) ?_
    unfold Ctrl.engStop; split <;> rfl
  · exact (State.Inv.draw h).setCtrl (k := k) (by simpa using hk) (by simpa using hs.engReceive _) rfl

/-- An outcome that keeps the control invariant: a next state with it, or a refusal; never a fault. -/
def KeepsInv (r : Result) : Prop := match r with | .next t => t.Inv | .fault _ => False | .refused _ => True

theorem State.Inv.inBuffers (h : s.Inv) (hk : s.ctrl? c = some k) (ho : k.record.owner ≠ 0) {i : Nat} (hi : i < s.params.bufBytes) : s.inBuffers k.record.owner i = true := by
  obtain ⟨q, hq, _⟩ := h.ownerWaits c k hk ho
  simp [State.inBuffers, hq, hi]

theorem owner_rowRead : k.rowRead.record.owner = k.record.owner := by
  unfold Ctrl.rowRead Ctrl.rowReadEnd Ctrl.rowReadByte; split <;> simp

theorem State.Inv.seqStep (h : s.Inv) (hk : s.ctrl? c = some k) (he : k.seqEnabled = true) : KeepsInv (seqStep s c k) := by
  have hs := h.sound c k hk
  have hi : k.ie = true := by simp [Ctrl.seqEnabled] at he; exact he.1.1.2
  obtain ⟨w, d, a, r, e⟩ := hs.waiting hi
  have ho : k.record.owner ≠ 0 := fun h0 => by have := hs.owned.1 h0; simp_all
  unfold Machine.seqStep
  split
  · exact h.setCtrl hk (hs.rowBusError hi) rfl
  split
  · exact h.setCtrl hk (hs.rowNack hi) rfl
  split
  · next hst => exact h.setCtrl hk (hs.rowAddress hi (.inl hst)) (by unfold Ctrl.rowAddress; split <;> rfl)
  · next hst => exact h.setCtrl hk (hs.rowAddress hi (.inr hst)) (by unfold Ctrl.rowAddress; split <;> rfl)
  · next hst =>
    unfold seqWrite
    split
    · next hlt =>
      have : s.txByte k.record.owner k.record.cursor.toNat = some (s.mem.read (txAddr k.record.owner k.record.cursor.toNat)) := by
        unfold State.txByte
        rw [if_pos (State.Inv.inBuffers h hk ho (by have := hs.lengths; omega))]
      rw [this]
      exact h.setCtrl hk (hs.rowWriteByte hi hst hlt _) rfl
    · split
      · have := hs.writing w hst; omega
      · split
        · exact h.setCtrl hk (hs.rowWriteEnd hi) rfl
        · next hr => exact h.setCtrl hk (hs.rowWriteToRead hi hr) rfl
  · next hst =>
    have hlt := hs.reading w hst
    unfold seqRead
    rw [if_neg (by omega)]
    have : s.rxStore k.record.owner k.record.cursor.toNat k.bus.data = some { s with mem := s.mem.write (rxAddr k.record.owner k.record.cursor.toNat) k.bus.data } := by
        unfold State.rxStore
        rw [if_pos (State.Inv.inBuffers h hk ho (by have := hs.lengths; omega))]
    rw [this]
    refine State.Inv.setCtrl (k := k) ?_ hk (hs.rowRead hi hst hlt) owner_rowRead
    exact h.congr rfl rfl rfl (Memory.wf_write h.memory _ _)
  all_goals simp_all [OpState.active]

theorem record_abortStart : k.abortStart.record = k.record := rfl

theorem State.Inv.stepB {x} (h : s.Inv) (hk : s.ctrl? c = some k) (hk' : Taken s.params.bufBytes x k') (ho : k'.record.owner = k.record.owner) : KeepsInv (stepB s c k' x) := by
  obtain ⟨k1, h1, h2, h3⟩ := hk'.arm
  unfold Machine.stepB
  rw [h1]
  exact h.setCtrl hk h2 (h3.trans ho)

@[simp] theorem record_applyMux (ps p) : (k.applyMux ps p).record = k.record := by
  unfold Ctrl.applyMux; split
  · split <;> rfl
  · rfl
@[simp] theorem orch_applyMux (ps p) : (k.applyMux ps p).orch = k.orch := by
  unfold Ctrl.applyMux; split
  · split <;> rfl
  · rfl
@[simp] theorem bus_applyMux (ps p) : (k.applyMux ps p).bus = k.bus := by
  unfold Ctrl.applyMux; split
  · split <;> rfl
  · rfl
@[simp] theorem done_applyMux (ps p) : (k.applyMux ps p).done = k.done := by
  unfold Ctrl.applyMux; split
  · split <;> rfl
  · rfl
@[simp] theorem ie_applyMux (ps p) : (k.applyMux ps p).ie = k.ie := by
  unfold Ctrl.applyMux; split
  · split <;> rfl
  · rfl

/-- a recovery finishing -/
theorem State.Inv.recoveryFinished (h : s.Inv) (hk : s.ctrl? c = some k) (hr : k.orch.recPhase ≠ .none)
  (hrec : k'.record = k.record) (hie : k'.ie = k.ie) (hdone : k'.done = k.done) (hor : k'.orch.phase = k.orch.phase ∧ k'.orch.cmd = k.orch.cmd ∧ k'.orch.curReq = k.orch.curReq) (h1 : k'.orch.recPhase = .none) (h2 : k'.bus.enabled = true) : KeepsInv (recoveryFinished s c k') := by
  have hs := h.sound c k hk
  have hpf : k.orch.phase ≠ .free := fun hp => hr (hs.recovering.2 (.inl hp))
  have hpw : k.orch.phase ≠ .wait := fun hp => hr (hs.recovering.2 (.inr hp))
  have ho : k.record.owner ≠ 0 := fun h0 => hpf (hs.owned.1 h0)
  have hcur := hs.curReq hpf
  have hie' : k'.ie = false := by
    rw [hie]; cases hi : k.ie
    · rfl
    · exact absurd (hs.interrupts.1 hi).1 hpw
  have hdone' : k'.done = false := by
    rw [hdone]; cases hi : k.done
    · rfl
    · exact absurd (hs.completes hi) hpw
  have hrun := hs.running
  rw [← hor.1, ← hor.2.1] at hrun
  have hcur' : k'.orch.curReq = k.record.owner := by rw [hor.2.2, hcur]
  have dcmd : Done s.params.bufBytes k'.commandEnded := by
    have := hs.kinds; have := hs.lengths; have := hs.cursor
    constructor <;> simp_all [Ctrl.commandEnded, OpState.active]
  unfold Machine.recoveryFinished
  split
  · next x hp hc =>
    rw [hp, hc] at hrun
    have hid := hs.preIdle (by rw [← hor.1, hp])
    refine State.Inv.stepB (k := k) h hk (Taken.mux ?_ _ _) (by rw [record_applyMux, hrec])
    exact ⟨h1, by rw [hrec]; exact ho, by rw [hcur', hrec], hc, hrun, h2, hie', hdone', by rw [hrec, hid]; rfl, by rw [hrec]; exact hs.kinds, by rw [hrec]; exact hs.lengths, by rw [hrec]; exact hs.cursor⟩
  · next x hp hc =>
    refine h.release hk ho ?_ ?_ _ _
    · have := hs.kinds; have := hs.lengths; have := hs.cursor
      unfold Ctrl.postRecovered
      cases k'.orch.timedOut <;> constructor <;> simp_all [OpState.active, record_applyMux, orch_applyMux, bus_applyMux, done_applyMux, Kind.recordable]
    · simp [Ctrl.postRecovered, orch_applyMux, hcur']
  · exact h.release hk ho dcmd (by simpa [Ctrl.commandEnded] using hcur') _ _
  · exact h.release hk ho dcmd (by simpa [Ctrl.commandEnded] using hcur') _ _
  · exact h.release hk ho dcmd (by simpa [Ctrl.commandEnded] using hcur') _ _
  · next a b c d e =>
    revert hrun; 
    have n1 : k'.orch.phase ≠ .free := by rw [hor.1]; exact hpf
    have n2 : k'.orch.phase ≠ .wait := by rw [hor.1]; exact hpw
    clear hor hs hcur' hcur hk h
    cases hp : k'.orch.phase <;> cases hc : k'.orch.cmd <;> simp_all [Running.Fits, KeepsInv]

theorem State.Inv.abortFinished (h : s.Inv) (hk : s.ctrl? c = some k) (hr : k.orch.recPhase = .abortWait)
  (hrec : k'.record = k.record) (hie : k'.ie = k.ie) (hdone : k'.done = k.done) (hor : k'.orch.phase = k.orch.phase ∧ k'.orch.cmd = k.orch.cmd ∧ k'.orch.curReq = k.orch.curReq) (h2 : k'.bus.enabled = true) : KeepsInv (abortFinished s c k') := by
  have hs := h.sound c k hk
  have hpf : k.orch.phase ≠ .free := fun hp => by have := (hs.recovering.2 (.inl hp)); simp_all
  have hpw : k.orch.phase ≠ .wait := fun hp => by have := (hs.recovering.2 (.inr hp)); simp_all
  unfold Machine.abortFinished
  split
  · refine (State.Inv.draw h).setCtrl (k := k) (by simpa using hk) ?_ (by simp [Ctrl.resetStart, hrec])
    obtain ⟨a1, a2, a3, a4, a5, a6, a7, a8, a9, a10, a11, a12, a13, a14, a15, a16, a17⟩ := hs
    unfold Ctrl.resetStart
    constructor <;> simp_all
  · exact State.Inv.recoveryFinished h hk (by simp [hr]) hrec hie hdone hor rfl h2

theorem State.Inv.orchStep (h : s.Inv) (hk : s.ctrl? c = some k) (he : k.orchEnabled = true) : KeepsInv (orchStep s c k) := by
  have hs := h.sound c k hk
  unfold Machine.orchStep
  split
  · next hr =>
    have hcomp : k.orch.phase = .wait ∧ k.done = true := by simpa [Ctrl.orchEnabled, hr, Ctrl.completed] using he
    have ho : k.record.owner ≠ 0 := fun h0 => by have := hs.owned.1 h0; simp_all
    have hcur := hs.curReq (by simp [hcomp.1])
    unfold Machine.completion
    have hi : k.ie = false := by
      cases hi : k.ie
      · rfl
      · have := (hs.interrupts.1 hi).2; simp_all
    have hen : k.bus.enabled = true := by
      cases hen : k.bus.enabled
      · have := (hs.disabled.1 hen); simp_all
      · rfl
    have hact : k.record.opState.active = false := by
      cases ha : k.record.opState.active
      · rfl
      · have := ((hs.awaited hcomp.1).1 ha); simp_all
    dsimp only
    split
    · refine h.setCtrl hk ?_ (by simp [Ctrl.recoverStart, record_abortStart])
      obtain ⟨a1, a2, a3, a4, a5, a6, a7, a8, a9, a10, a11, a12, a13, a14, a15, a16, a17⟩ := hs
      obtain ⟨x, hx⟩ : ∃ x, k.orch.cmd = .transfer x := by
        rw [hcomp.1] at a10; revert a10; cases k.orch.cmd <;> simp [Running.Fits]
      unfold Ctrl.recoverStart Ctrl.abortStart
      cases k.bus.busy <;> constructor <;> simp_all [Running.Fits]
    · refine State.Inv.release (k := k) h hk ho ?_ (by exact hcur) _ _
      exact ⟨hr, hen, hi, rfl, hact, hs.kinds, hs.lengths, hs.cursor⟩
  · next hr =>
    refine State.Inv.abortFinished h hk hr rfl rfl rfl ⟨rfl, rfl, rfl⟩ ?_
    cases hen : k.bus.enabled
    · have := (hs.disabled.1 hen); simp_all
    · rfl
  · next hr =>
    split
    · refine State.Inv.recoveryFinished (k := k) (State.Inv.drawLines h _) (by simpa using hk) (by simp [hr]) rfl rfl rfl ⟨rfl, rfl, rfl⟩ rfl rfl
    · exact State.Inv.drawLines h _

theorem State.Inv.expiryStep (h : s.Inv) (hk : s.ctrl? c = some k) : KeepsInv (expiryStep s c k) := by
  have hs := h.sound c k hk
  unfold Machine.expiryStep
  split
  · exact h
  · next hr =>
    refine State.Inv.abortFinished h hk hr rfl rfl rfl ⟨rfl, rfl, rfl⟩ ?_
    show k.bus.enabled = true
    cases hen : k.bus.enabled
    · have := (hs.disabled.1 hen); simp_all
    · rfl
  · next hr =>
    exact State.Inv.recoveryFinished h hk (by simp [hr]) rfl rfl rfl ⟨rfl, rfl, rfl⟩ rfl rfl

theorem State.Inv.timeoutFires (h : s.Inv) (hk : s.ctrl? c = some k) (m) (he : k.timeoutEnabled m = true) : (s.setCtrl c k.timeoutFires).Inv := by
  have hs := h.sound c k hk
  have : k.orch.phase = .wait ∧ k.done = false := by
    simp [Ctrl.timeoutEnabled] at he; exact he.1
  exact h.setCtrl hk (hs.timeoutFires this.1 this.2) rfl

theorem State.Inv.preCheck {x} {r q} (h : s.Inv) (hk : s.ctrl? c = some k) (h0 : k.record.owner = 0) (hq : s.req? r = some q) (hq0 : q.outstanding = false) 
  (ht : Taken s.params.bufBytes x k') (ho : k'.record.owner = r) : KeepsInv (preCheck (s.setOutstanding r) c k' x) := by
  have key : ∀ (b : Bool) k2, k2.Sound s.params.bufBytes → k2.record.owner = r → (((s.setOutstanding r).drawLines b).2.setCtrl c k2).Inv := by
    intro b k2 h1 h2
    have := h.acquire (k' := k2) hk h0 hq hq0 h1 h2
    exact this.congr (by simp) (by simp [State.setCtrl]) (by simp) (by simpa using h.memory)
  have keyB : ∀ k2, k2.Sound s.params.bufBytes → k2.record.owner = r → ((s.setOutstanding r).setCtrl c k2).Inv := fun k2 h1 h2 => h.acquire hk h0 hq hq0 h1 h2
  obtain ⟨k1, h1, h2, h3⟩ := ht.arm
  unfold Machine.preCheck Machine.stepB
  rw [h1]
  split
  · next hc =>
    split
    · exact key _ _ (ht.preRecover hc.1) (by simp [Ctrl.preRecover, Ctrl.recoverStart, record_abortStart, Ctrl.unwedge, Ctrl.emit, ho])
    · exact key _ _ h2 (h3.trans ho)
  · exact keyB _ h2 (h3.trans ho)

theorem State.Inv.accept {r} {run : Result} (hrun : ∀ q, s.req? r = some q → q.outstanding = false → KeepsInv run) : KeepsInv (s.accept r run) := by
  unfold State.accept
  split
  · trivial
  · next q hq =>
    split
    · trivial
    · next ho => exact hrun q hq (by simpa using ho)

theorem State.Inv.onCtrl {r ci q} {run} (h : s.Inv) (hq : s.req? r = some q) (hq0 : q.outstanding = false) (hrun : ∀ k, s.ctrl? ci.toNat = some k → KeepsInv (run k)) : KeepsInv (s.onCtrl r ci run) := by
  unfold State.onCtrl
  split
  · exact h.respond hq hq0 _ _
  · exact hrun _ (by assumption)
theorem State.Inv.onPort {r ci q} {run} (h : s.Inv) (hq : s.req? r = some q) (hq0 : q.outstanding = false) (hrun : ∀ e, s.port? ci = some e → KeepsInv (run e)) : KeepsInv (s.onPort r ci run) := by
  unfold State.onPort
  split
  · unfold State.badPort; split
    · trivial
    · exact h.respond hq hq0 _ _
  · exact hrun _ (by assumption)
theorem State.Inv.onPortCtrl {ci e} {run} (h : s.Inv) (he : s.port? ci = some e) (hrun : ∀ k, s.ctrl? e.ctrl = some k → KeepsInv (run k)) : KeepsInv (s.onPortCtrl e run) := by
  have : e.ctrl < s.numCtrl := h.ports e (List.mem_of_getElem? he)
  unfold State.onPortCtrl
  split
  · next hn => exact absurd (List.getElem?_eq_none_iff.1 hn) (by simpa [State.numCtrl] using this)
  · exact hrun _ (by assumption)

theorem req_ne_zero {r : Byte} {q} (hq : s.req? r = some q) : r ≠ 0 := by rintro rfl; exact absurd hq (by simp)

theorem State.Inv.transfer {r p x} (h : s.Inv) : KeepsInv (transfer r p x s) := by
  unfold Machine.transfer
  refine State.Inv.accept fun q hq hq0 => ?_
  split
  · exact h.respond hq hq0 _ _
  next hx =>
  refine State.Inv.onPort h hq hq0 fun e he => ?_
  split
  · exact h.respond hq hq0 _ _
  next hl =>
  refine State.Inv.onPortCtrl h he fun k hk => ?_
  split
  · exact h.respond hq hq0 _ _
  next h0 =>
  have h0' : k.record.owner = 0 := by simpa using h0
  have hs := h.sound _ _ hk
  refine State.Inv.preCheck h hk h0' hq hq0 (Taken.take hs h0' _ _ _ (req_ne_zero hq) ⟨hx, by omega, by omega⟩) ?_
  unfold Ctrl.take; rw [record_applyMux]

theorem Ctrl.Sound.setTimeout {buf} (h : k.Sound buf) (a b) : (k.setTimeout a b).Sound buf := by
  obtain ⟨a1, a2, a3, a4, a5, a6, a7, a8, a9, a10, a11, a12, a13, a14, a15, a16, a17⟩ := h
  constructor <;> assumption
theorem Ctrl.Sound.retarget {buf} (h : k.Sound buf) (a b c) : (k.retarget a b c).Sound buf := by
  unfold Ctrl.retarget; split
  · exact h.congr rfl rfl rfl rfl rfl
  · exact h
theorem State.Inv.mapCtrls (h : s.Inv) (hz) (f : Ctrl → Ctrl) (hf : ∀ k, k.Sound s.params.bufBytes → (f k).Sound s.params.bufBytes) (ho : ∀ k, (f k).record = k.record) : ({ s with clockHz := hz, ctrls := s.ctrls.map f } : State).Inv := by
  have e1 : ∀ c, ({ s with clockHz := hz, ctrls := s.ctrls.map f } : State).ctrl? c = (s.ctrl? c).map f := fun c => by simp [State.ctrl?]
  obtain ⟨a1,a2,a3,a4,a5,a6⟩ := h
  constructor
  · intro c k hk
    rw [e1] at hk
    obtain ⟨k0, h0, rfl⟩ := Option.map_eq_some_iff.1 hk
    exact hf _ (a1 _ _ h0)
  · intro c k hk
    rw [e1] at hk
    obtain ⟨k0, h0, rfl⟩ := Option.map_eq_some_iff.1 hk
    rw [ho]; exact a2 c k0 h0
  · intro r q h1 h2
    obtain ⟨c, k, h3, h4⟩ := a3 r q h1 h2
    exact ⟨c, f k, by rw [e1, h3]; rfl, by rw [ho]; exact h4⟩
  · intro c c' k k' h1 h2
    rw [e1] at h1 h2
    obtain ⟨k0, h0, rfl⟩ := Option.map_eq_some_iff.1 h1
    obtain ⟨k0', h0', rfl⟩ := Option.map_eq_some_iff.1 h2
    rw [ho, ho]; exact a4 _ _ _ _ h0 h0'
  · simpa [State.numCtrl] using a5
  · exact a6

theorem State.Inv.exec (i) (h : s.Inv) : KeepsInv (exec i s) := by
  cases i <;> simp only [Machine.exec]
  case xfer => exact State.Inv.transfer h
  case xferS => exact State.Inv.transfer h
  case xferP => exact State.Inv.transfer h
  case xferSP => exact State.Inv.transfer h
  case setto =>
    refine State.Inv.accept fun q hq hq0 => State.Inv.onPort h hq hq0 fun e he => State.Inv.onPortCtrl h he fun k hk => ?_
    refine State.Inv.respond (State.Inv.setCtrl h hk ((h.sound _ _ hk).setTimeout _ _) rfl) (q := q) (by simpa using hq) hq0 _ _
  case setfreq =>
    refine State.Inv.accept fun q hq hq0 => State.Inv.onCtrl h hq hq0 fun k hk => ?_
    refine State.Inv.respond (State.Inv.setCtrl h hk ((h.sound _ _ hk).retarget _ _ _) ?_) (q := q) (by simpa using hq) hq0 _ _
    unfold Ctrl.retarget; split <;> rfl
  case clkchg =>
    refine State.Inv.accept fun q hq hq0 => ?_
    refine State.Inv.respond (q := q) (State.Inv.mapCtrls h _ _ (fun k hk => hk.program _) (fun k => rfl)) (by exact hq) hq0 _ _
  case busbusy =>
    exact State.Inv.accept fun q hq hq0 => State.Inv.onCtrl h hq hq0 fun k hk => h.respond hq hq0 _ _
  case lines =>
    refine State.Inv.accept fun q hq hq0 => State.Inv.onPort h hq hq0 fun e he => State.Inv.onPortCtrl h he fun k hk => ?_
    exact (State.Inv.drawLines h _).respond (by simpa using hq) hq0 _ _
  case rdreg =>
    refine State.Inv.accept fun q hq hq0 => State.Inv.onCtrl h hq hq0 fun k hk => ?_
    split
    · unfold readStatus; split
      · exact (State.Inv.draw h).respond (by simpa using hq) hq0 _ _
      · exact h.respond hq hq0 _ _
    · split
      · exact h.respond hq hq0 _ _
      · exact h.respond hq hq0 _ _
  case abort r ci =>
    refine State.Inv.accept fun q hq hq0 => State.Inv.onCtrl h hq hq0 fun k hk => ?_
    split
    · exact h.respond hq hq0 _ _
    · next h0 =>
      have h0' : k.record.owner = 0 := by simpa using h0
      exact h.acquire hk h0' hq hq0 ((h.sound _ _ hk).abortCmd h0' r (req_ne_zero hq)) rfl
  case reset r ci =>
    refine State.Inv.accept fun q hq hq0 => State.Inv.onCtrl h hq hq0 fun k hk => ?_
    split
    · exact h.respond hq hq0 _ _
    · next h0 =>
      have h0' : k.record.owner = 0 := by simpa using h0
      exact (State.Inv.draw h).acquire (by simpa using hk) h0' (by simpa using hq) hq0 (by simpa using (h.sound _ _ hk).resetCmd h0' r (req_ne_zero hq) _) rfl
  case recover r ci =>
    refine State.Inv.accept fun q hq hq0 => State.Inv.onCtrl h hq hq0 fun k hk => ?_
    split
    · exact h.respond hq hq0 _ _
    · next h0 =>
      have h0' : k.record.owner = 0 := by simpa using h0
      exact h.acquire hk h0' hq hq0 ((h.sound _ _ hk).recoverCmd h0' r (req_ne_zero hq) _) rfl

end Sys2Proof.Machine
end

