-- ==== Sys2Proof/Laws/BusSteps.lean ====
section
/-! SUPPORT. The bus invariant over the steps of every agent and over every command. -/

namespace Sys2Proof.Machine
variable {s t : State} {c : Nat} {k k' : Ctrl} {buf : Nat}

theorem Ctrl.BusSound.congr (h : k.BusSound) (hb : k'.bus = k.bus) (hr : k'.record.opState = k.record.opState) (h1 : k'.orch.recPhase = k.orch.recPhase) (h2 : k'.orch.phase = k.orch.phase) (h3 : k'.done = k.done) (h4 : k'.record.errorCode = k.record.errorCode) : k'.BusSound := by
  obtain ⟨a1,a2,a3,a4,a5,a6⟩ := h
  constructor <;> simp only [hb, hr, h1, h2, h3, h4] <;> assumption

/-- Outside a recovery, with no NACK pending. -/
theorem Ctrl.BusSound.quiet (hn : k.orch.recPhase = .none) (hf : k.bus.Fits k.record.opState) (hnk : k.bus.nackFlag = false)
   (hq : k.bus.busErr = true → k.bus.eq = [] ∧ k.bus.rxPending = false ∧ k.bus.rdy = false) : k.BusSound :=
  ⟨fun _ => hf, fun h => by simp [hn] at h, fun h => by simp [hn] at h, by simp [hnk], hq, by simp [hnk]⟩

theorem Ctrl.BusSound.raiseBusError (hs : k.Sound buf) (he : k.bus.enabled = true) (h : k.BusSound) : k.raiseBusError.BusSound := by
  obtain ⟨a1,a2,a3,a4,a5,a6⟩ := h
  have hnr : k.orch.recPhase ≠ .resetWait := fun hh => by have := hs.disabled.2 hh; simp_all
  unfold Ctrl.raiseBusError Ctrl.emit
  constructor
  · intro hr
    have hf := a1 hr
    cases hst : k.record.opState <;> simp_all [Bus.Fits]
  · simp
  · intro hr; exact absurd hr hnr
  · simpa using a4
  · simp
  · simp

theorem Ctrl.BusSound.raiseStretch (h : k.BusSound) : k.raiseStretch.BusSound := by
  obtain ⟨a1,a2,a3,a4,a5,a6⟩ := h
  unfold Ctrl.raiseStretch
  constructor
  · intro hr
    have hf := a1 hr
    cases hs : k.record.opState <;> simp_all [Bus.Fits]
  all_goals assumption

theorem Ctrl.BusSound.engStart (h : k.BusSound) (rest) (he : k.bus.eq = .start :: rest) (hbe : k.bus.busErr = false) (hn : k.bus.nackFlag = false) : (k.engStart rest).BusSound := by
  obtain ⟨a1,a2,a3,a4,a5,a6⟩ := h
  have hrec : k.orch.recPhase = .none := by
    cases hr : k.orch.recPhase
    · rfl
    · have := a2 hr; simp [he] at this
    · have := a3 hr; simp [he] at this
  have hf := a1 hrec
  refine Ctrl.BusSound.quiet (by exact hrec) ?_ (by exact hn) (fun hh => absurd (hbe.symm.trans hh) (by simp))
  show Bus.Fits _ k.record.opState
  cases hst : k.record.opState <;> rw [hst] at hf <;> simp [Bus.Fits, he, Ctrl.engStart] at hf ⊢
  · simp [hf.1]
  · obtain ⟨⟨v, h0⟩, h1⟩ := hf; simp [h0, h1]
  · simp [hf.1]

theorem Ctrl.BusSound.engStop (h : k.BusSound) (rest) (he : k.bus.eq = .stop :: rest) (hbe : k.bus.busErr = false) (hn : k.bus.nackFlag = false) : (k.engStop rest).BusSound := by
  obtain ⟨a1,a2,a3,a4,a5,a6⟩ := h
  have e1 : (k.engStop rest).record = k.record := by unfold Ctrl.engStop; split <;> rfl
  have e2 : (k.engStop rest).orch = k.orch := by unfold Ctrl.engStop; split <;> rfl
  have e3 : (k.engStop rest).bus = { k.bus with eq := rest, busy := false, rdy := false, rxPending := false, afterStart := false, mode := .tx, nackArmed := false } := by unfold Ctrl.engStop; split <;> rfl
  constructor <;> simp only [e1, e2, e3]
  · intro hr
    have hf := a1 hr
    cases hst : k.record.opState <;> rw [hst] at hf <;> simp [Bus.Fits, he] at hf ⊢
    · exact .inl hf.1
    · exact .inr (.inl hf.1)
  · intro hr; have := (a2 hr).1; simp [he] at this; simp [this]
  · intro hr; have := a3 hr; simp [he] at this
  · simp [hn]
  · simp [hbe]
  · simp [hn]

theorem Ctrl.BusSound.engReceive (h : k.BusSound) (hrx : k.bus.rxPending = true) (b) (he : k.bus.eq = []) (hbe : k.bus.busErr = false) (hn : k.bus.nackFlag = false) : (k.engReceive b).BusSound := by
  obtain ⟨a1,a2,a3,a4,a5,a6⟩ := h
  unfold Ctrl.engReceive Ctrl.emit
  constructor
  · intro hr
    have hf := a1 hr
    cases hst : k.record.opState <;> rw [hst] at hf <;> simp [Bus.Fits, he, hrx] at hf ⊢ <;> simp_all
  · intro hr; have := (a2 hr).2.1; simp_all
  · intro hr; have := (a3 hr); simp_all
  · simp [hn]
  · simp [hbe]
  · simp [hn]

theorem Ctrl.BusSound.engSend (h : k.BusSound) (hs : k.Sound buf) (v rest a) (he : k.bus.eq = .send v :: rest) (hbe : k.bus.busErr = false) (hn : k.bus.nackFlag = false) : (k.engSend v rest a).BusSound := by
  obtain ⟨a1,a2,a3,a4,a5,a6⟩ := h
  have hrec : k.orch.recPhase = .none := by
    cases hr : k.orch.recPhase
    · rfl
    · have := (a2 hr).1; simp [he] at this
    · have := (a3 hr).1; simp [he] at this
  have hf := a1 hrec
  have hst : (k.record.opState = .write ∧ (k.bus.afterStart = true → v.getLsbD 0 = false) ∧ k.bus.rxPending = false ∨ k.record.opState = .read) ∧ rest = [] ∧ k.bus.busy = true ∧ k.bus.rxPending = false ∧ k.bus.rdy = false := by
    cases hst : k.record.opState <;> rw [hst] at hf <;> simp [Bus.Fits, he] at hf ⊢
    · obtain ⟨h1, h2, h3, h4, h5⟩ := hf; subst h1; simp_all
    · exact ⟨hf.1, hf.2.1, hf.2.2⟩
  obtain ⟨h1, h2, h3, h4, h5⟩ := hst
  have hph : k.orch.phase = .wait := by
    rcases hs.recovering.1 hrec with hp | hp
    · have := hs.rests hp; rcases h1 with ⟨h1, -⟩ | h1 <;> rw [h1] at this <;> simp [OpState.active] at this
    · exact hp
  subst h2
  unfold Ctrl.engSend
  split
  · unfold Ctrl.engSendAck
    split
    · next hc =>
      simp at hc
      refine Ctrl.BusSound.quiet (by exact hrec) ?_ (by exact hn) (fun hh => absurd (hbe.symm.trans hh) (by simp))
      rcases h1 with ⟨h1, h6, h7⟩ | h1
      · have := h6 hc.1; simp at this; simp_all
      · show Bus.Fits _ k.record.opState
        rw [h1]; simp [Bus.Fits, h3, h5]
    · next hc =>
      refine Ctrl.BusSound.quiet (by exact hrec) ?_ (by exact hn) (fun hh => absurd (hbe.symm.trans hh) (by simp))
      show Bus.Fits _ k.record.opState
      rcases h1 with ⟨h1, h6, h7⟩ | h1 <;> rw [h1] <;> simp [Bus.Fits, h3, h4]
  · refine ⟨fun _ => ?_, fun hh => ?_, fun hh => ?_, fun _ => ?_, fun hh => absurd (hbe.symm.trans hh) (by simp), fun _ => ⟨.inl rfl, h4, rfl⟩⟩
    · show Bus.Fits _ k.record.opState
      rcases h1 with ⟨h1, h6, h7⟩ | h1 <;> rw [h1] <;> simp [Ctrl.engSendNack, Bus.Fits, h3, h4, Ctrl.emit]
    · exact absurd (hrec.symm.trans hh) (by simp)
    · exact absurd (hrec.symm.trans hh) (by simp)
    · refine ⟨hph, fun hd => ?_, ?_⟩
      · have := (hs.awaited hph).2; have h9 := (hs.awaited hph).1 (by rcases h1 with ⟨h1, -⟩ | h1 <;> rw [h1] <;> rfl); exact absurd (h9.symm.trans hd) (by simp)
      rcases h1 with ⟨h1, h6, h7⟩ | h1 <;> simp [Ctrl.engSendNack, Ctrl.emit, h1]


theorem Ctrl.BusSound.rowBusError (hs : k.Sound buf) (h : k.BusSound) (hi : k.ie = true) (hbe : k.bus.busErr = true) : k.rowBusError.BusSound := by
  obtain ⟨w, d, a, r, e⟩ := hs.waiting hi
  obtain ⟨a1,a2,a3,a4,a5,a6⟩ := h
  obtain ⟨h1,h2,h3⟩ := a5 hbe
  unfold Ctrl.rowBusError Ctrl.endWithError
  rw [push_stop _ e]
  constructor <;> simp [r, Bus.Fits, h1, h2, w]

theorem Ctrl.BusSound.rowNack (hs : k.Sound buf) (h : k.BusSound) (hi : k.ie = true) (hbe : k.bus.busErr = false)  (hn : k.bus.nackFlag = true) : k.rowNack.BusSound := by
  obtain ⟨w, d, a, r, e⟩ := hs.waiting hi
  obtain ⟨a1,a2,a3,a4,a5,a6⟩ := h
  obtain ⟨h1,h2,h3⟩ := a6 hn
  have hf := a1 r
  have h4 : k.bus.eq = [] := by
    rcases h1 with h1 | h1
    · exact h1
    · cases hst : k.record.opState <;> rw [hst] at hf a <;> simp_all [Bus.Fits, OpState.active]
  unfold Ctrl.rowNack Ctrl.endWithError
  rw [push_stop _ e]
  constructor <;> simp [r, Bus.Fits, h4, h2, hbe]

/-! ## The rows of the sequencer, ready and with no flag -/

theorem Ctrl.BusSound.rowAddress (hs : k.Sound buf) (h : k.BusSound) (hi : k.ie = true) (hst : k.record.opState = .start ∨ k.record.opState = .repeatStart)
   (hbe : k.bus.busErr = false)  (hn : k.bus.nackFlag = false) (hrdy : k.bus.rdy = true) : k.rowAddress.BusSound := by
  obtain ⟨w, d, a, r, e⟩ := hs.waiting hi
  obtain ⟨a1,a2,a3,a4,a5,a6⟩ := h
  have hf := a1 r
  have h1 : k.bus.eq = [] ∧ k.bus.busy = true ∧ k.bus.rxPending = false := by
    rcases hst with hst | hst <;> rw [hst] at hf <;> simp_all [Bus.Fits]
  unfold Ctrl.rowAddress Bus.send
  split
  · rw [push_clear _ _ (by exact e) (by exact hbe) (by exact hn)]
    refine Ctrl.BusSound.quiet (by exact r) ?_ (by exact hn) (fun hh => absurd (hbe.symm.trans hh) (by simp))
    simp [Bus.Fits, h1]
  · rw [push_clear _ _ (by exact e) (by exact hbe) (by exact hn)]
    refine Ctrl.BusSound.quiet (by exact r) ?_ (by exact hn) (fun hh => absurd (hbe.symm.trans hh) (by simp))
    simp [Bus.Fits, h1, addrWrite]

theorem Ctrl.BusSound.rowWriteByte (hs : k.Sound buf) (h : k.BusSound) (hi : k.ie = true) (hst : k.record.opState = .write)
   (hbe : k.bus.busErr = false)  (hn : k.bus.nackFlag = false) (hrdy : k.bus.rdy = true) (v) : (k.rowWriteByte v).BusSound := by
  obtain ⟨w, d, a, r, e⟩ := hs.waiting hi
  have hf := h.fits r
  rw [hst] at hf
  simp [Bus.Fits, hrdy] at hf
  unfold Ctrl.rowWriteByte Bus.send
  rw [push_clear _ _ (by exact e) (by exact hbe) (by exact hn)]
  refine Ctrl.BusSound.quiet (by exact r) ?_ (by exact hn) (fun hh => absurd (hbe.symm.trans hh) (by simp))
  simp [hst, Bus.Fits, hf]

theorem Ctrl.BusSound.rowWriteEnd (hs : k.Sound buf) (h : k.BusSound) (hi : k.ie = true) (hst : k.record.opState = .write)
   (hbe : k.bus.busErr = false)  (hn : k.bus.nackFlag = false) (hrdy : k.bus.rdy = true) : (k.rowWriteEnd).BusSound := by
  obtain ⟨w, d, a, r, e⟩ := hs.waiting hi
  have hf := h.fits r
  rw [hst] at hf
  simp [Bus.Fits, hrdy] at hf
  unfold Ctrl.rowWriteEnd 
  rw [push_stop _ e]
  cases k.record.flagStop
  · refine Ctrl.BusSound.quiet (by exact r) ?_ (by exact hn) (fun hh => absurd (hbe.symm.trans hh) (by simp))
    simp [Bus.Fits, hf, hrdy]
  · refine Ctrl.BusSound.quiet (by exact r) ?_ (by exact hn) (fun hh => absurd (hbe.symm.trans hh) (by simp))
    simp [Bus.Fits, hf]

theorem Ctrl.BusSound.rowWriteToRead (hs : k.Sound buf) (h : k.BusSound) (hi : k.ie = true) (hst : k.record.opState = .write)
   (hbe : k.bus.busErr = false)  (hn : k.bus.nackFlag = false) (hrdy : k.bus.rdy = true) : (k.rowWriteToRead).BusSound := by
  obtain ⟨w, d, a, r, e⟩ := hs.waiting hi
  have hf := h.fits r
  rw [hst] at hf
  simp [Bus.Fits, hrdy] at hf
  unfold Ctrl.rowWriteToRead 
  rw [push_clear _ .start (by exact e) (by exact hbe) (by exact hn)]
  simp only []
  rw [push_clear _ (.send _) (by exact e) (by exact hbe) (by exact hn)]
  refine Ctrl.BusSound.quiet (by exact r) ?_ (by exact hn) (fun hh => absurd (hbe.symm.trans hh) (by simp))
  simp [Bus.Fits, hf]

theorem Ctrl.BusSound.rowRead (hs : k.Sound buf) (h : k.BusSound) (hi : k.ie = true) (hst : k.record.opState = .read)
   (hc : k.record.cursor.toNat < k.record.rxLen.toNat)
   (hbe : k.bus.busErr = false)  (hn : k.bus.nackFlag = false) (hrdy : k.bus.rdy = true) : (k.rowRead).BusSound := by
  obtain ⟨w, d, a, r, e⟩ := hs.waiting hi
  have hf := h.fits r
  rw [hst] at hf
  simp [Bus.Fits, hrdy] at hf
  have hinc : (k.record.cursor + 1).toNat = k.record.cursor.toNat + 1 := by
    have := k.record.rxLen.isLt; simp [BitVec.toNat_add]; omega
  have heq : k.record.cursor + 1 = k.record.rxLen ↔ k.record.cursor.toNat + 1 = k.record.rxLen.toNat := by
    rw [← hinc]; exact ⟨fun h => by rw [h], fun h => BitVec.eq_of_toNat_eq h⟩
  unfold Ctrl.rowRead Ctrl.rowReadEnd Ctrl.rowReadByte
  simp only [rowReadArm_record, heq]
  unfold Ctrl.rowReadArm
  by_cases hlast : k.record.cursor.toNat + 1 = k.record.rxLen.toNat
  · simp only [if_pos hlast]
    rw [push_stop _ e]
    cases k.record.flagStop
    · refine Ctrl.BusSound.quiet (by exact r) ?_ (by exact hn) (fun hh => absurd (hbe.symm.trans hh) (by simp))
      simp [Bus.Fits, Bus.readData, Bus.stopQueued, hf]
    · refine Ctrl.BusSound.quiet (by exact r) ?_ (by exact hn) (fun hh => absurd (hbe.symm.trans hh) (by simp))
      simp [Bus.Fits, Bus.readData, Bus.stopQueued, hf]
  · simp only [if_neg hlast]
    split
    · refine Ctrl.BusSound.quiet (by exact r) ?_ (by exact hn) (fun hh => absurd (hbe.symm.trans hh) (by simp))
      simp [hst, Bus.Fits, Bus.readData, Bus.stopQueued, hf]
    · refine Ctrl.BusSound.quiet (by exact r) ?_ (by exact hn) (fun hh => absurd (hbe.symm.trans hh) (by simp))
      simp [hst, Bus.Fits, Bus.readData, Bus.stopQueued, hf]

/-! ## Recoveries -/
theorem Ctrl.BusSound.abortStart (he : k.bus.enabled = true) : k.abortStart.BusSound := by
  unfold Ctrl.abortStart
  simp only [push_stop _ (show ({ k.bus with
    busErr := false, stretch := false, nackFlag := false, eq := [], rxPending := false, rdy := false } : Bus).enabled = true from he)]
  cases k.bus.busy <;> constructor <;> simp

theorem Ctrl.BusSound.resetStart (p) : (k.resetStart p).BusSound := by
  unfold Ctrl.resetStart
  constructor <;> simp

theorem Ctrl.BusSound.abortExpire (h : k.BusSound) (hr : k.orch.recPhase = .abortWait) : (k.abortExpire).BusSound := by
  obtain ⟨a1,a2,a3,a4,a5,a6⟩ := h
  unfold Ctrl.abortExpire Ctrl.emit
  have := a2 hr
  constructor <;> simp_all

/-- What a recovery leaves of the bus when it ends. -/
structure AtRest (k : Ctrl) : Prop where
  eq : k.bus.eq = [] ∨ k.bus.eq = [.stop]
  rx : k.bus.rxPending = false
  rdy : k.bus.rdy = false
  nack : k.bus.nackFlag = false
  err : k.bus.busErr = true → k.bus.eq = []

theorem AtRest.idle (h : AtRest k) (hr : k.orch.recPhase = .none) (hi : k.record.opState = .idle) : k.BusSound := by
  refine Ctrl.BusSound.quiet hr ?_ h.nack fun hh => ⟨h.err hh, h.rx, h.rdy⟩
  rw [hi]; exact ⟨h.eq, h.rx, h.rdy⟩

theorem AtRest.ofAbort (h : k.BusSound) (hs : k.Sound buf) (hr : k.orch.recPhase = .abortWait) : AtRest k := by
  obtain ⟨a1,a2,a3,a4,a5,a6⟩ := h
  obtain ⟨h1,h2,h3⟩ := a2 hr
  refine ⟨h1,h2,h3,?_, fun hh => (a5 hh).1⟩
  cases hn : k.bus.nackFlag
  · rfl
  · have := hs.recovering.2 (.inr (a4 hn).1); simp_all

theorem AtRest.ofReset (h : k.BusSound) (hr : k.orch.recPhase = .resetWait) : AtRest k := by
  obtain ⟨h1,h2,h3,h4,h5,h6⟩ := h.resetting hr
  exact ⟨.inl h1,h2,h3,h6, fun hh => h1⟩


/-- Arming a controller that was taken. -/
theorem Ctrl.BusSound.arm {x} (ht : Taken buf x k) (h : k.BusSound) (hnk : k.bus.nackFlag = false) : ∀ k1, (k.load x).arm = some k1 → k1.BusSound := by
  obtain ⟨a1, a2, a3, a4, a5, a6, a7, a8, a9, a10, a11, a12⟩ := ht
  have hf := h.fits a1
  have herr := h.faulted
  intro k1 h1
  unfold Ctrl.arm at h1
  cases hs : k.record.opState <;> simp only [Ctrl.load, hs] at h1 <;> rw [hs] at hf
  case idle =>
    cases h1
    unfold Ctrl.beginWait Ctrl.pushStart
    cases hbe : k.bus.busErr
    · rw [push_clear _ _ (by exact a6) (by exact hbe) (by exact hnk)]
      refine Ctrl.BusSound.quiet (by exact a1) ?_ (by exact hnk) (fun hh => absurd (hbe.symm.trans hh) (by simp))
      rcases hf with ⟨h1 | h1, h2, h3⟩ <;> simp [Bus.Fits, h1, h2]
    · obtain ⟨e1, e2, e3⟩ := herr hbe
      have e4 : ({ k.bus with rdy := false }.push .start) = { k.bus with rdy := false } := by
        simp [Bus.push, Bus.discards, hbe]
      simp only [e4]
      refine Ctrl.BusSound.quiet (by exact a1) ?_ (by exact hnk) (fun hh => ⟨e1, e2, rfl⟩)
      simp [Bus.Fits, e1, e2]
  case writeSuspended =>
    obtain ⟨f1, f2, f3, f4, f5⟩ := hf
    split at h1 <;> cases h1
    · unfold Ctrl.beginWait Ctrl.pushStart
      cases hbe : k.bus.busErr
      · rw [push_clear _ _ (by exact a6) (by exact hbe) (by exact hnk)]
        refine Ctrl.BusSound.quiet (by exact a1) ?_ (by exact hnk) (fun hh => absurd (hbe.symm.trans hh) (by simp))
        simp [Bus.Fits, f1, f2, f3]
      · obtain ⟨e1, e2, e3⟩ := herr hbe
        have e4 : ({ k.bus with rdy := false }.push .start) = { k.bus with rdy := false } := by
          simp [Bus.push, Bus.discards, hbe]
        simp only [e4]
        refine Ctrl.BusSound.quiet (by exact a1) ?_ (by exact hnk) (fun hh => ⟨e1, e2, rfl⟩)
        simp [Bus.Fits, e1, e2, f2]
    · unfold Ctrl.beginWait
      refine Ctrl.BusSound.quiet (by exact a1) ?_ (by exact hnk) herr
      simp [Bus.Fits, f1, f2, f3]; exact f5
  case readSuspended =>
    obtain ⟨f1, f2, f3, f4⟩ := hf
    split at h1 <;> cases h1
    · exact Ctrl.BusSound.abortStart (by exact a6)
    · unfold Ctrl.beginWait
      refine Ctrl.BusSound.quiet (by exact a1) ?_ (by exact hnk) herr
      simp [Bus.Fits, f1, f2]
      intro h5; cases h6 : k.bus.rxPending
      · rfl
      · exact absurd ⟨h5, h6⟩ f4
  all_goals simp at h1

/-! ## The block -/

/-- An outcome that keeps the bus invariant. -/
def KeepsBusInv (o : Host.Outcome State Fault Refusal) : Prop := match o with | .next t => t.BusInv | _ => True

theorem State.BusInv.congr (h : s.BusInv) (hc : t.ctrls = s.ctrls) : t.BusInv := by
  constructor; intro c k hk; exact h.sound c k (by simpa [State.ctrl?, hc] using hk)
theorem State.BusInv.set (h : s.BusInv) (hb : k'.BusSound) : (s.setCtrl c k').BusInv := by
  constructor; intro c1 k1 h1
  by_cases hcc : c = c1
  · subst hcc
    simp only [State.ctrl?, State.setCtrl, List.getElem?_set] at h1
    simp at h1; obtain ⟨-, rfl⟩ := h1; exact hb
  · rw [ctrl?_setCtrl_ne _ _ _ hcc] at h1; exact h.sound _ _ h1

theorem State.BusInv.draw (h : s.BusInv) : s.draw.2.BusInv := h.congr (by simp)
theorem State.BusInv.drawLines (h : s.BusInv) (b) : (s.drawLines b).2.BusInv := h.congr (by simp)
theorem State.BusInv.respond (h : s.BusInv) (r e d) : (s.respond r e d).BusInv := h.congr (by simp)

theorem Ctrl.BusSound.applyMux (h : k.BusSound) (a b) : (k.applyMux a b).BusSound := by
  unfold Ctrl.applyMux; split
  · split
    · exact Ctrl.BusSound.congr h rfl rfl rfl rfl rfl rfl
    · exact h
  · exact h

theorem State.BusInv.release (h : s.BusInv) (res d) (hn : k.orch.recPhase = .none) (hf : k.bus.Fits k.record.opState) (hnk : k.bus.nackFlag = false)
   (hq : k.bus.busErr = true → k.bus.eq = [] ∧ k.bus.rxPending = false ∧ k.bus.rdy = false) : (Machine.release s c k res d).BusInv := by
  unfold Machine.release
  refine State.BusInv.respond (h.set ?_) _ _ _
  exact Ctrl.BusSound.quiet (by exact hn) (by exact hf) (by exact hnk) hq

theorem State.BusInv.recoveryFinished {x0 : Ctrl} (h : s.BusInv) (hs : x0.Sound s.params.bufBytes) (hr : AtRest k) (hn : k.orch.recPhase = .none) (hp : k.orch.phase = x0.orch.phase)
  (hrec : k.record = x0.record) (ht : ∀ x, k.orch.cmd = .transfer x → k.orch.phase = .preRecover → ∀ a b, Taken s.params.bufBytes x (k.applyMux a b)) : KeepsBusInv (Machine.recoveryFinished s c k) := by
  have hfin : k.bus.Fits .idle := ⟨hr.eq, hr.rx, hr.rdy⟩
  have hq := fun hh => And.intro (hr.err hh) (And.intro hr.rx hr.rdy)
  unfold Machine.recoveryFinished
  split
  · next x h1 h2 =>
    have hid : k.record.opState = .idle := by rw [hrec]; exact hs.preIdle (by rw [← hp]; exact h1)
    unfold stepB
    split
    · next k1 h3 =>
      exact h.set (Ctrl.BusSound.arm (ht x h2 h1 _ _) (Ctrl.BusSound.applyMux (hr.idle hn hid) _ _) (by simpa using hr.nack) k1 h3)
    · trivial
  · refine State.BusInv.release h _ _ ?_ ?_ ?_ ?_
    all_goals simp [Ctrl.postRecovered]
    · exact hn
    · exact hfin
    · exact hr.nack
    · exact hq
  · exact State.BusInv.release h _ _ hn hfin hr.nack hq
  · exact State.BusInv.release h _ _ hn hfin hr.nack hq
  · exact State.BusInv.release h _ _ hn hfin hr.nack hq
  · trivial

theorem Ctrl.BusSound.take (h : k.BusSound) (ps r p x) : (k.take ps r p x).BusSound := by
  unfold Ctrl.take
  exact Ctrl.BusSound.applyMux (k := { k with record := { k.record with owner := r }, orch := { k.orch with curReq := r, curPort := p, cmd := .transfer x } }) (Ctrl.BusSound.congr h rfl rfl rfl rfl rfl rfl) _ _

theorem no_nack_outside_wait (h : k.BusSound) (hp : k.orch.phase ≠ .wait) : k.bus.nackFlag = false := by
  cases hn : k.bus.nackFlag
  · rfl
  · exact absurd (h.nacks hn).1 hp

theorem State.BusInv.completion (h : s.BusInv) (hk : s.ctrl? c = some k) (hs : k.Sound s.params.bufBytes) (hr : k.orch.recPhase = .none) (hc : k.completed = true) : (completion s c k).BusInv := by
  have hb := h.sound c k hk
  have he : k.bus.enabled = true := by
    cases hh : k.bus.enabled
    · have := hs.disabled.1 hh; simp_all
    · rfl
  unfold Machine.completion
  split
  · exact h.set (Ctrl.BusSound.abortStart (by exact he))
  · next hne =>
    refine State.BusInv.release h _ _ hr (hb.fits hr) ?_ hb.faulted
    show k.bus.nackFlag = false
    cases hn : k.bus.nackFlag
    · rfl
    · have := (hb.nacks hn).2.1 (by simp [Ctrl.completed] at hc; exact hc.2)
      simp [this] at hne

theorem enabled_of_not_resetting {buf} (hs : k.Sound buf) (h : k.orch.recPhase ≠ .resetWait) : k.bus.enabled = true := by
  cases hh : k.bus.enabled
  · exact absurd (hs.disabled.1 hh) h
  · rfl

theorem taken_after_preRecovery {x} (hs : k'.Sound buf) (hc : k.orch.cmd = .transfer x) (hp : k.orch.phase = .preRecover)
  (h1 : k.orch.phase = k'.orch.phase) (h2 : k.orch.cmd = k'.orch.cmd) (h3 : k.orch.curReq = k'.orch.curReq) (hn : k.orch.recPhase = .none) (hr : k.record = k'.record) (he : k.bus.enabled = true) (hi : k.ie = k'.ie) (hd : k.done = k'.done) : Taken buf x k := by
  rw [h1] at hp
  have hrun := hs.running
  rw [← h2, hc, hp] at hrun
  have ho : k'.record.owner ≠ 0 := fun h => by have := hs.owned.1 h; simp_all
  have hi' : k'.ie = false := by
    cases h : k'.ie
    · rfl
    · have := (hs.interrupts.1 h).1; simp_all
  have hd' : k'.done = false := by
    cases h : k'.done
    · rfl
    · have := (hs.completes h); simp_all
  refine ⟨hn, by rwa [hr], by rw [h3, hr]; exact hs.forOwner ho, hc, hrun, he, by rw [hi, hi'], by rw [hd, hd'], ?_, ?_, ?_, ?_⟩ <;> rw [hr]
  · rw [hs.preIdle hp]; rfl
  · exact hs.kinds
  · exact hs.lengths
  · exact hs.cursor

theorem State.BusInv.abortFinished {x0 : Ctrl} (h : s.BusInv) (hs : x0.Sound s.params.bufBytes) (hr : AtRest k) (_ha : x0.orch.recPhase = .abortWait)
  (hp : k.orch.phase = x0.orch.phase) (hc : k.orch.cmd = x0.orch.cmd) (hcu : k.orch.curReq = x0.orch.curReq) (hrec : k.record = x0.record) (he : k.bus.enabled = true) (hi : k.ie = x0.ie) (hd : k.done = x0.done) : KeepsBusInv (abortFinished s c k) := by
  unfold Machine.abortFinished
  split
  · exact h.draw.set (Ctrl.BusSound.resetStart _)
  · refine State.BusInv.recoveryFinished (x0 := x0) h hs ⟨hr.1, hr.2, hr.3, hr.4, hr.5⟩ rfl hp hrec ?_
    intro x h1 h2 a b
    refine Taken.mux ?_ _ _
    exact taken_after_preRecovery hs h1 h2 hp hc hcu rfl hrec he hi hd

theorem State.BusInv.resetFin {x0 : Ctrl} (h : s.BusInv) (hs : x0.Sound s.params.bufBytes) (hr : AtRest k) (_ha : x0.orch.recPhase = .resetWait)
  (hp : k.orch.phase = x0.orch.phase) (hc : k.orch.cmd = x0.orch.cmd) (hcu : k.orch.curReq = x0.orch.curReq) (hrec : k.record = x0.record) (hi : k.ie = x0.ie) (hd : k.done = x0.done) : KeepsBusInv (Machine.recoveryFinished s c k.resetFinish) := by
    refine State.BusInv.recoveryFinished (x0 := x0) h hs ⟨hr.1, hr.2, hr.3, hr.4, hr.5⟩ rfl hp hrec ?_
    intro x h1 h2 a b
    refine Taken.mux ?_ _ _
    exact taken_after_preRecovery hs h1 h2 hp hc hcu rfl hrec rfl hi hd

theorem State.BusInv.orchStep (h : s.BusInv) (hi : s.Inv) (hk : s.ctrl? c = some k) (he : k.orchEnabled = true) : KeepsBusInv (orchStep s c k) := by
  have hs := hi.sound c k hk
  have hb := h.sound c k hk
  unfold Machine.orchStep
  split
  · next hr =>
    exact State.BusInv.completion h hk hs hr (by simpa [Ctrl.orchEnabled, hr] using he)
  · next hr =>
    exact State.BusInv.abortFinished h hs (AtRest.ofAbort hb hs hr) hr rfl rfl rfl rfl (enabled_of_not_resetting hs (by simp [hr])) rfl rfl
  · next hr =>
    split
    · exact State.BusInv.resetFin (x0 := k) (h.drawLines _) (by simpa using hs) (AtRest.ofReset hb hr) hr rfl rfl rfl rfl rfl rfl
    · exact h.drawLines _

theorem State.BusInv.expiryStep (h : s.BusInv) (hi : s.Inv) (hk : s.ctrl? c = some k) : KeepsBusInv (expiryStep s c k) := by
  have hs := hi.sound c k hk
  have hb := h.sound c k hk
  unfold Machine.expiryStep
  split
  · exact h
  · next hr =>
    have := AtRest.ofAbort hb hs hr
    refine State.BusInv.abortFinished (x0 := k) h hs ⟨.inl rfl, this.2, this.3, this.4, fun _ => rfl⟩ hr rfl rfl rfl rfl (show k.bus.enabled = true from enabled_of_not_resetting hs (by simp [hr])) rfl rfl
  · next hr =>
    have := AtRest.ofReset hb hr
    exact State.BusInv.resetFin (x0 := k) h hs ⟨this.1, this.2, this.3, this.4, this.5⟩ hr rfl rfl rfl rfl rfl rfl

theorem State.BusInv.timeoutFires (h : s.BusInv) (hi : s.Inv) (hk : s.ctrl? c = some k) (m) (he : k.timeoutEnabled m = true) : (s.setCtrl c k.timeoutFires).BusInv := by
  have hs := hi.sound c k hk
  have : k.orch.phase = .wait := by simp [Ctrl.timeoutEnabled] at he; exact he.1.1
  refine h.set (Ctrl.BusSound.abortStart ?_)
  show k.bus.enabled = true
  exact enabled_of_not_resetting hs (by rw [hs.recovering.2 (.inr this)]; simp)

theorem State.BusInv.engStep (h : s.BusInv) (hi : s.Inv) (hk : s.ctrl? c = some k) (he : k.engEnabled = true) : (engStep s c k).BusInv := by
  have hs := hi.sound c k hk
  have hb := h.sound c k hk
  simp [Ctrl.engEnabled] at he
  obtain ⟨⟨⟨h1, h2⟩, h3⟩, h4⟩ := he
  unfold Machine.engStep
  split
  · next rest hq => exact h.set (Ctrl.BusSound.engStart hb _ hq h2 h3)
  · next v rest hq => exact h.draw.set (Ctrl.BusSound.engSend hb hs _ _ _ hq h2 h3)
  · next rest hq => exact h.set (Ctrl.BusSound.engStop hb _ hq h2 h3)
  · next hq => exact h.draw.set (Ctrl.BusSound.engReceive hb (by simpa [hq] using h4) _ hq h2 h3)

theorem State.BusInv.seqStep (h : s.BusInv) (hi : s.Inv) (hk : s.ctrl? c = some k) (he : k.seqEnabled = true) : KeepsBusInv (seqStep s c k) := by
  have hs := hi.sound c k hk
  have hb := h.sound c k hk
  simp [Ctrl.seqEnabled] at he
  obtain ⟨⟨⟨h1, h2⟩, h3⟩, h4⟩ := he
  unfold Machine.seqStep
  split
  · next hbe => exact h.set (Ctrl.BusSound.rowBusError hs hb h2 hbe)
  next hbe =>
  have hbe : k.bus.busErr = false := by simpa using hbe
  split
  · next hn => exact h.set (Ctrl.BusSound.rowNack hs hb h2 hbe hn)
  next hn =>
  have hn : k.bus.nackFlag = false := by simpa using hn
  have hr : k.bus.rdy = true := by simpa [hbe, hn] using h4
  split
  · next hst => exact h.set (Ctrl.BusSound.rowAddress hs hb h2 (.inl hst) hbe hn hr)
  · next hst => exact h.set (Ctrl.BusSound.rowAddress hs hb h2 (.inr hst) hbe hn hr)
  · next hst =>
    unfold seqWrite
    split
    · split
      · trivial
      · exact h.set (Ctrl.BusSound.rowWriteByte hs hb h2 hst hbe hn hr _)
    · split
      · trivial
      · split
        · exact h.set (Ctrl.BusSound.rowWriteEnd hs hb h2 hst hbe hn hr)
        · exact h.set (Ctrl.BusSound.rowWriteToRead hs hb h2 hst hbe hn hr)
  · next hst =>
    unfold seqRead
    split
    · trivial
    · next hlt =>
      split
      · trivial
      · next s1 hs1 =>
        unfold State.rxStore at hs1
        split at hs1
        · cases hs1
          have hh : ({ s with mem := s.mem.write (rxAddr k.record.owner k.record.cursor.toNat) k.bus.data } : State).BusInv := h.congr rfl
          exact hh.set (Ctrl.BusSound.rowRead hs hb h2 hst (by omega) hbe hn hr)
        · cases hs1
  all_goals exact h

theorem State.BusInv.preCheck {x} (h : s.BusInv) (ht : Taken buf x k') (hb : k'.BusSound) (hn : k'.bus.nackFlag = false) : KeepsBusInv (preCheck s c k' x) := by
  unfold Machine.preCheck stepB
  split
  · split
    · exact (h.drawLines _).set (Ctrl.BusSound.abortStart (by exact ht.en))
    · split
      · exact (h.drawLines _).set (Ctrl.BusSound.arm ht hb hn _ (by assumption))
      · trivial
  · split
    · exact h.set (Ctrl.BusSound.arm ht hb hn _ (by assumption))
    · trivial

theorem State.BusInv.accept {r} {run : Result} (hrun : ∀ q, s.req? r = some q → KeepsBusInv run) : KeepsBusInv (s.accept r run) := by
  unfold State.accept
  split
  · trivial
  · split
    · trivial
    · exact hrun _ (by assumption)
theorem State.BusInv.onCtrl {r ci} {run} (h : s.BusInv) (hrun : ∀ k, s.ctrl? ci.toNat = some k → KeepsBusInv (run k)) : KeepsBusInv (s.onCtrl r ci run) := by
  unfold State.onCtrl
  split
  · exact h.respond _ _ _
  · exact hrun _ (by assumption)
theorem State.BusInv.onPort {r ci} {run} (h : s.BusInv) (hrun : ∀ e, KeepsBusInv (run e)) : KeepsBusInv (s.onPort r ci run) := by
  unfold State.onPort
  split
  · unfold State.badPort; split
    · trivial
    · exact h.respond _ _ _
  · exact hrun _
theorem State.BusInv.onPortCtrl {e} {run} (hrun : ∀ k, s.ctrl? e.ctrl = some k → KeepsBusInv (run k)) : KeepsBusInv (s.onPortCtrl e run) := by
  unfold State.onPortCtrl
  split
  · trivial
  · exact hrun _ (by assumption)
theorem State.BusInv.setOutstanding (h : s.BusInv) (r) : (s.setOutstanding r).BusInv := h.congr (by simp)

theorem State.BusInv.transfer {r p x} (h : s.BusInv) (hi : s.Inv) : KeepsBusInv (transfer r p x s) := by
  unfold Machine.transfer
  refine State.BusInv.accept fun q hq => ?_
  split
  · exact h.respond _ _ _
  next hx =>
  refine State.BusInv.onPort h fun e => ?_
  split
  · exact h.respond _ _ _
  next hl =>
  refine State.BusInv.onPortCtrl fun k hk => ?_
  split
  · exact h.respond _ _ _
  next h0 =>
  have h0' : k.record.owner = 0 := by simpa using h0
  have hs := hi.sound _ _ hk
  have hr0 : r ≠ 0 := by rintro rfl; exact absurd hq (by simp)
  have hb := h.sound _ _ hk
  refine State.BusInv.preCheck (buf := s.params.bufBytes) (State.BusInv.setOutstanding h _) (Taken.take hs h0' _ _ _ hr0 ⟨hx, by omega, by omega⟩) (Ctrl.BusSound.take hb _ _ _ _) ?_
  unfold Ctrl.take
  rw [bus_applyMux]
  show k.bus.nackFlag = false
  exact no_nack_outside_wait hb (by rw [(hs.free h0').1]; simp)

theorem Ctrl.BusSound.free_congr (h : k.BusSound) (hb : k'.bus = k.bus) (hr : k'.record.opState = k.record.opState) (h1 : k'.orch = k.orch) (h3 : k'.done = k.done) (h4 : k'.record.errorCode = k.record.errorCode) : k'.BusSound :=
  Ctrl.BusSound.congr h hb hr (by rw [h1]) (by rw [h1]) h3 h4

theorem State.BusInv.exec (i) (h : s.BusInv) (hi : s.Inv) : KeepsBusInv (exec i s) := by
  cases i <;> simp only [Machine.exec]
  case xfer => exact State.BusInv.transfer h hi
  case xferS => exact State.BusInv.transfer h hi
  case xferP => exact State.BusInv.transfer h hi
  case xferSP => exact State.BusInv.transfer h hi
  case setto =>
    refine State.BusInv.accept fun q hq => State.BusInv.onPort h fun e => State.BusInv.onPortCtrl fun k hk => ?_
    exact State.BusInv.respond (h.set (Ctrl.BusSound.free_congr (k' := k.setTimeout _ _) (h.sound _ _ hk) rfl rfl rfl rfl rfl)) _ _ _
  case setfreq =>
    refine State.BusInv.accept fun q hq => State.BusInv.onCtrl h fun k hk => ?_
    refine (h.set ?_).respond _ _ _
    unfold Ctrl.retarget; split
    · exact (Ctrl.BusSound.free_congr (h.sound _ _ hk) rfl rfl rfl rfl rfl)
    · exact h.sound _ _ hk
  case clkchg =>
    refine State.BusInv.accept fun q hq => ?_
    refine State.BusInv.respond ?_ _ _ _
    constructor
    intro c k hk
    simp only [State.ctrl?, List.getElem?_map] at hk
    obtain ⟨k0, h0, rfl⟩ := Option.map_eq_some_iff.1 hk
    exact (Ctrl.BusSound.free_congr (h.sound c k0 h0) rfl rfl rfl rfl rfl)
  case busbusy => exact State.BusInv.accept fun q hq => State.BusInv.onCtrl h fun k hk => h.respond _ _ _
  case lines =>
    refine State.BusInv.accept fun q hq => State.BusInv.onPort h fun e => State.BusInv.onPortCtrl fun k hk => ?_
    exact (h.drawLines _).respond _ _ _
  case rdreg =>
    refine State.BusInv.accept fun q hq => State.BusInv.onCtrl h fun k hk => ?_
    split
    · unfold readStatus; split
      · exact h.draw.respond _ _ _
      · exact h.respond _ _ _
    · split <;> exact h.respond _ _ _
  case abort r ci =>
    refine State.BusInv.accept fun q hq => State.BusInv.onCtrl h fun k hk => ?_
    split
    · exact h.respond _ _ _
    · next h0 =>
      exact (State.BusInv.setOutstanding h _).set (Ctrl.BusSound.abortStart ((hi.sound _ _ hk).free (by simpa using h0)).2.2.1)
  case reset r ci =>
    refine State.BusInv.accept fun q hq => State.BusInv.onCtrl h fun k hk => ?_
    split
    · exact h.respond _ _ _
    · exact (State.BusInv.setOutstanding h.draw _).set (Ctrl.BusSound.resetStart _)
  case recover r ci =>
    refine State.BusInv.accept fun q hq => State.BusInv.onCtrl h fun k hk => ?_
    split
    · exact h.respond _ _ _
    · next h0 =>
      exact (State.BusInv.setOutstanding h _).set (Ctrl.BusSound.abortStart ((hi.sound _ _ hk).free (by simpa using h0)).2.2.1)

end Sys2Proof.Machine
end

