-- ==== Sys2Proof/Laws/Decode.lean ====
section
/-! SUPPORT. Fields of the words the encoder and the answers are made of, and a word from its fields; what `Opcode.ofByte`
selects. -/

namespace Sys2Proof

/-- A field inside the low half of an append. -/
theorem extract_append_low {n m w : Nat} (x : BitVec n) (y : BitVec m) (s : Nat) (h : s + w ≤ m) :
    (x ++ y).extractLsb' s w = y.extractLsb' s w := by
  apply BitVec.eq_of_getLsbD_eq
  intro i hi
  rw [BitVec.getLsbD_extractLsb', BitVec.getLsbD_extractLsb', BitVec.getLsbD_append, if_pos (by omega)]

/-- A field inside the high half of an append. -/
theorem extract_append_high {n m w : Nat} (x : BitVec n) (y : BitVec m) (s : Nat) :
    (x ++ y).extractLsb' (m + s) w = x.extractLsb' s w := by
  apply BitVec.eq_of_getLsbD_eq
  intro i hi
  rw [BitVec.getLsbD_extractLsb', BitVec.getLsbD_extractLsb', BitVec.getLsbD_append, if_neg (by omega),
    show m + s + i - m = s + i by omega]

/-- All of a word. -/
theorem extract_all {n : Nat} (x : BitVec n) : x.extractLsb' 0 n = x := by
  apply BitVec.eq_of_getLsbD_eq
  intro i hi
  rw [BitVec.getLsbD_extractLsb', Nat.zero_add]
  simp [hi]

/-- Two neighbouring fields are one field. -/
theorem extract_append_extract {n : Nat} (x : BitVec n) (s a b : Nat) :
    x.extractLsb' (s + a) b ++ x.extractLsb' s a = x.extractLsb' s (b + a) := by
  apply BitVec.eq_of_getLsbD_eq
  intro i hi
  rw [BitVec.getLsbD_append, BitVec.getLsbD_extractLsb', BitVec.getLsbD_extractLsb', BitVec.getLsbD_extractLsb']
  by_cases h : i < a
  · simp [h, show i < b + a by omega]
  · simp [h, show i - a < b by omega, hi, show s + a + (i - a) = s + i by omega]

/-! ## Fields of a packed word (30_encoding.md R80) -/

variable (op : Opcode) (r x a : Byte) (y : Word) (n m : Half)

theorem opField_packArg : opField (packArg op r x a y) = op.byte :=
  (extract_append_low y _ 0 (by omega)).trans <| (extract_append_low a _ 0 (by omega)).trans <|
    (extract_append_low x _ 0 (by omega)).trans <| (extract_append_low r _ 0 (by omega)).trans (extract_all _)
theorem reqField_packArg : reqField (packArg op r x a y) = r :=
  (extract_append_low y _ 8 (by omega)).trans <| (extract_append_low a _ 8 (by omega)).trans <|
    (extract_append_low x _ 8 (by omega)).trans <| (extract_append_high r op.byte 0).trans (extract_all _)
theorem idxField_packArg : idxField (packArg op r x a y) = x :=
  (extract_append_low y _ 16 (by omega)).trans <| (extract_append_low a _ 16 (by omega)).trans <|
    (extract_append_high x (r ++ op.byte) 0).trans (extract_all _)
theorem addrField_packArg : addrField (packArg op r x a y) = a :=
  (extract_append_low y _ 24 (by omega)).trans <| (extract_append_high a (x ++ (r ++ op.byte)) 0).trans (extract_all _)
theorem argField_packArg : argField (packArg op r x a y) = y :=
  (extract_append_high y (a ++ (x ++ (r ++ op.byte))) 0).trans (extract_all _)
theorem txLenField_packX : txLenField (packX op r x a n m) = n :=
  (extract_append_high (m ++ n) (a ++ (x ++ (r ++ op.byte))) 0).trans <|
    (extract_append_low m n 0 (by omega)).trans (extract_all _)
theorem rxLenField_packX : rxLenField (packX op r x a n m) = m :=
  (extract_append_high (m ++ n) (a ++ (x ++ (r ++ op.byte))) 16).trans <|
    (extract_append_high m n 0).trans (extract_all _)

/-- A word is its fields. -/
theorem word_of_fields (w : Command) :
    argField w ++ (addrField w ++ (idxField w ++ (reqField w ++ opField w))) = w :=
  calc argField w ++ (addrField w ++ (idxField w ++ (reqField w ++ opField w)))
      = argField w ++ (addrField w ++ (idxField w ++ w.extractLsb' 0 16)) :=
        congrArg (fun z : BitVec 16 => argField w ++ (addrField w ++ (idxField w ++ z)))
          (extract_append_extract w 0 8 8)
    _ = argField w ++ (addrField w ++ w.extractLsb' 0 24) :=
        congrArg (fun z : BitVec 24 => argField w ++ (addrField w ++ z)) (extract_append_extract w 0 16 8)
    _ = argField w ++ w.extractLsb' 0 32 :=
        congrArg (fun z : BitVec 32 => argField w ++ z) (extract_append_extract w 0 24 8)
    _ = w.extractLsb' 0 64 := extract_append_extract w 0 32 32
    _ = w := extract_all w

/-- ARG is RXLEN over TXLEN (30_encoding.md R80). -/
theorem argField_eq (w : Command) : rxLenField w ++ txLenField w = argField w :=
  extract_append_extract w 32 16 16

/-! ## Bytes (20_memory.md R66) -/

/-- Byte `k` over the `k` bytes below it. -/
theorem byteOf_append {N : Nat} (w : BitVec N) (k : Nat) :
    byteOf w k ++ w.extractLsb' 0 (8 * k) = w.extractLsb' 0 (8 + 8 * k) := by
  have h := extract_append_extract w 0 (8 * k) 8
  rwa [show 0 + 8 * k = 8 * k by omega] at h

/-- The low four bytes of a word. -/
theorem low_bytes {N : Nat} (w : BitVec N) :
    byteOf w 3 ++ (byteOf w 2 ++ (byteOf w 1 ++ byteOf w 0)) = w.extractLsb' 0 32 := by
  have e1 : byteOf w 1 ++ byteOf w 0 = w.extractLsb' 0 16 := byteOf_append w 1
  have e2 : byteOf w 2 ++ w.extractLsb' 0 16 = w.extractLsb' 0 24 := byteOf_append w 2
  have e3 : byteOf w 3 ++ w.extractLsb' 0 24 = w.extractLsb' 0 32 := byteOf_append w 3
  rw [e1, e2, e3]

/-- A register value is its four bytes. -/
theorem registerOfBytes_byteOf (v : Word) :
    registerOfBytes (byteOf v 0) (byteOf v 1) (byteOf v 2) (byteOf v 3) = v :=
  (low_bytes v).trans (extract_all v)

/-- A 64-bit word is its eight bytes. -/
theorem wordOfBytes_byteOf (w : Command) :
    wordOfBytes (byteOf w 0) (byteOf w 1) (byteOf w 2) (byteOf w 3) (byteOf w 4) (byteOf w 5) (byteOf w 6)
      (byteOf w 7) = w := by
  unfold wordOfBytes
  have e4 : byteOf w 4 ++ w.extractLsb' 0 32 = w.extractLsb' 0 40 := byteOf_append w 4
  have e5 : byteOf w 5 ++ w.extractLsb' 0 40 = w.extractLsb' 0 48 := byteOf_append w 5
  have e6 : byteOf w 6 ++ w.extractLsb' 0 48 = w.extractLsb' 0 56 := byteOf_append w 6
  have e7 : byteOf w 7 ++ w.extractLsb' 0 56 = w.extractLsb' 0 64 := byteOf_append w 7
  rw [low_bytes, e4, e5, e6, e7]
  exact extract_all w

/-- Byte `k` of a serialised 64-bit word. -/
theorem bytesOfWord_get (w : Command) {k : Nat} (h : k < 8) : (bytesOfWord w)[k]? = some (byteOf w k) := by
  match k, h with
  | 0, _ | 1, _ | 2, _ | 3, _ | 4, _ | 5, _ | 6, _ | 7, _ => rfl

/-- Byte `k` of a serialised register value. -/
theorem bytesOfRegister_get (v : Word) {k : Nat} (h : k < 4) : (bytesOfRegister v)[k]? = some (byteOf v k) := by
  match k, h with
  | 0, _ | 1, _ | 2, _ | 3, _ => rfl

/-! ## The opcode map (30_encoding.md R84) -/

theorem ofByte_byte : Opcode.ofByte op.byte = some op := by cases op <;> decide

theorem pick_or_rest {b v : Byte} {o op : Opcode} {rest : Option Opcode}
    (h : (if b = v then some o else rest) = some op) : (b = v ∧ o = op) ∨ rest = some op := by
  by_cases hb : b = v
  · rw [if_pos hb] at h; exact .inl ⟨hb, Option.some.inj h⟩
  · rw [if_neg hb] at h; exact .inr h

/-- A value of OP selects the row it is the value of. -/
theorem ofByte_eq_some (b : Byte) (op : Opcode) : Opcode.ofByte b = some op ↔ b = op.byte := by
  constructor
  · unfold Opcode.ofByte
    intro h
    repeat (rcases pick_or_rest h with ⟨h1, h2⟩ | h; · subst h2; exact h1)
    cases h
  · rintro rfl
    exact ofByte_byte op

namespace Machine

/-- The fields of a response word (30_encoding.md R88). -/
theorem responseWord_fields (res : Kind) (d : Word) :
    (responseWord res d).extractLsb' 0 8 = res.code ∧ (responseWord res d).extractLsb' 8 24 = 0 ∧
      (responseWord res d).extractLsb' 32 32 = d :=
  ⟨(extract_append_low d _ 0 (by omega)).trans <| (extract_append_low (0#24) _ 0 (by omega)).trans (extract_all _),
    (extract_append_low d _ 8 (by omega)).trans <| (extract_append_high (0#24) res.code 0).trans (extract_all _),
    (extract_append_high d (0#24 ++ res.code) 0).trans (extract_all _)⟩

/-- A byte of a response word inside its high half is a byte of DATA. -/
theorem byteOf_responseWord_high (res : Kind) (d : Word) (k : Nat) :
    byteOf (responseWord res d) (4 + k) = byteOf d k := by
  unfold byteOf
  rw [show 8 * (4 + k) = 24 + 8 + 8 * k by omega]
  exact extract_append_high d (0#24 ++ res.code) (8 * k)

/-- The bytes of a response: the code, three zeros, the bytes of DATA (20_memory.md R66, 30_encoding.md R88). -/
theorem encodeResponse_eq (res : Kind) (d : Word) :
    encodeResponse res d = [res.code, 0, 0, 0] ++ bytesOfRegister d := by
  have low : ∀ k, k < 4 → byteOf (responseWord res d) k = byteOf (0#24 ++ res.code) k := fun k hk =>
    extract_append_low d (0#24 ++ res.code) (8 * k) (by omega)
  have hi := byteOf_responseWord_high res d
  unfold encodeResponse bytesOfWord bytesOfRegister
  rw [low 0 (by decide), low 1 (by decide), low 2 (by decide), low 3 (by decide), hi 0, hi 1, hi 2, hi 3]
  cases res <;> rfl

end Machine

end Sys2Proof
end

