-- ==== Sys2Proof/Laws/Commands.lean ====
section
/-! SUPPORT. The parts of a command and of an event with their conditions met: acceptance, the operand forms, the shared
steps in closed form. -/

namespace Sys2Proof.Machine
variable {s : State} {r p : Byte} {q : Requester} {c : Nat} {k : Ctrl} {e : PortEntry}

/-! ## Events and acceptance -/

theorem step_withEvent (s : State) (e : Event) : step (s.withEvent e) = runEvent s e := rfl

theorem onAgent_some (hk : s.ctrl? c = some k) (en run) :
    s.onAgent c en run = if en k then run k else .next s := by simp [State.onAgent, hk]

theorem accept_ready (h : s.Ready r q) (run : Result) : s.accept r run = run := by
  simp [State.accept, h.exists_, h.idle]

/-- Every command is accepted by R87 and R47 before its own rule. -/
theorem exec_accept (i : Instr) (s : State) : ∃ run, exec i s = s.accept i.requester run := by
  cases i <;> exact ⟨_, rfl⟩

/-- What a decoded command keeps of its word: the requester, and the controller index of format C. -/
theorem decode_fields {w : Command} {i : Instr} (h : decodeWord w = .ok i) :
    i.requester = reqField w ∧
      (opField w ∈ ([0x21, 0x30, 0x32, 0x40, 0x41, 0x42] : List Byte) → i.formatC = some (idxField w)) := by
  unfold decodeWord at h
  split at h
  · cases h
  next op hop =>
  split at h
  · cases h
  cases h
  rw [(ofByte_eq_some _ _).1 hop]
  cases op <;> simp [assemble, Instr.requester, Instr.formatC, Opcode.byte]

/-! ## Operand forms -/

theorem onCtrl_none {c : Byte} (h : s.numCtrl ≤ c.toNat) (run) : s.onCtrl r c run = s.answerIllegal r := by
  have : s.ctrl? c.toNat = none := List.getElem?_eq_none h
  simp only [State.onCtrl, this]

theorem port?_none (h : s.params.numPorts ≤ p.toNat) : s.port? p = none := List.getElem?_eq_none h

theorem port?_some (h : p.toNat < s.params.numPorts) : ∃ e, s.port? p = some e := ⟨_, List.getElem?_eq_getElem h⟩

theorem onPort_bad (h : s.params.numPorts ≤ p.toNat) (run) :
    s.onPort r p run =
      match s.params.invalidPort with
      | .refuse => .refused .invalidPort
      | .illegal => .next (s.respond r .illegalCommand 0) := by
  simp only [State.onPort, port?_none h, State.badPort]; cases s.params.invalidPort <;> rfl

theorem exec_xferOf (fs fp : Bool) (r p a : Byte) (n m : Half) (s : State) :
    exec (xferOf fs fp r p a n m) s = transfer r p { fs := fs, fp := fp, tx := n, rx := m, addr := a } s := by
  cases fs <;> cases fp <;> rfl

/-- A transfer that passes the checks before ownership. -/
theorem transfer_ok {x : TransferArgs} (hr : s.Ready r q) (hp : s.PortOn p e k) (hl : s.LengthsOk x.tx x.rx) :
    transfer r p x s =
      if k.record.owner ≠ 0 then .next (s.respond r .channelOccupied 0)
      else preCheck (s.setOutstanding r) e.ctrl (k.take s.params.portMap r p x) x := by
  unfold transfer
  rw [accept_ready hr, if_neg hl.some_]
  simp only [State.onPort, hp.entry, State.onPortCtrl, hp.ctrl]
  rw [if_neg (by have := hl.out; have := hl.in_; omega)]

/-! ## Shared steps in closed form -/

theorem applyMux_eq (k : Ctrl) (s : State) (p : Byte) :
    k.applyMux s.params.portMap p =
      { k with
        pinSet :=
          match s.port? p with
          | some e => if e.muxed then e.pinset else k.pinSet
          | none => k.pinSet } := by
  unfold Ctrl.applyMux State.port?
  cases s.params.portMap[p.toNat]? with
  | none => rfl
  | some e => cases h : e.muxed <;> simp [h]

theorem applyMux_port (h : s.port? p = some e) (k : Ctrl) :
    k.applyMux s.params.portMap p = { k with pinSet := if e.muxed then e.pinset else k.pinSet } := by
  rw [applyMux_eq, h]

theorem push_start_eq (b : Bus) (h : b.enabled = true) :
    b.push .start = { b with eq := if b.busErr || b.nackFlag then b.eq else b.eq ++ [.start] } := by
  rcases b with ⟨_, e, n, _, _, _, _, _, _, _, _, _⟩
  simp only at h
  subst h
  cases e <;> cases n <;> rfl

/-- The end of a recovery before arming, on an enabled Idle controller: the mux, load and arm (40_commands.md R116 to
R118, 43_recovery.md R238). -/
theorem recoveryFinished_pre {u : State} {x : TransferArgs} (hu : u.params = s.params) (c : Nat)
    (hp : k.orch.phase = .preRecover) (hc : k.orch.cmd = .transfer x) (hi : k.record.opState = .idle)
    (he : k.bus.enabled = true) :
    recoveryFinished u c k =
      .next (u.setCtrl c
        { k with
          record :=
            { k.record with
              flagStart := x.fs, flagStop := x.fp, txLen := x.tx, rxLen := x.rx, targetAddress := x.addr, cursor := 0
              errorCode := .ok, opState := .start, waitBudgetUs := k.record.timeoutUs }
          pinSet :=
            match s.port? k.orch.curPort with
            | some e => if e.muxed then e.pinset else k.pinSet
            | none => k.pinSet
          ie := true
          done := false
          bus :=
            { k.bus with
              rdy := false
              eq := if k.bus.busErr || k.bus.nackFlag then k.bus.eq else k.bus.eq ++ [.start] }
          orch := { k.orch with phase := .wait, timedOut := false } }) := by
  unfold recoveryFinished stepB
  rw [hp, hc]
  dsimp only
  rw [hu, applyMux_eq]
  simp only [Ctrl.load, Ctrl.arm, hi, Ctrl.pushStart, Ctrl.beginWait]
  rw [push_start_eq _ (by exact he)]

/-- The end of the recovery of a failed transfer (40_commands.md R124, R125). -/
theorem recoveryFinished_post {u : State} {x : TransferArgs} (hu : u.params = s.params) (c : Nat)
    (hp : k.orch.phase = .postRecover) (hc : k.orch.cmd = .transfer x) :
    recoveryFinished u c k =
      .next ((u.setCtrl c
        { k with
          record :=
            { k.record with
              errorCode := if k.orch.timedOut then .timeout else k.record.errorCode, opState := .idle, owner := 0 }
          pinSet :=
            match s.port? k.orch.curPort with
            | some e => if e.muxed then e.pinset else k.pinSet
            | none => k.pinSet
          ie := false
          orch := { k.orch with phase := .free, cmd := .none } }).respond k.orch.curReq
        (if k.orch.timedOut then .timeout else k.record.errorCode) 0) := by
  unfold recoveryFinished release Ctrl.postRecovered
  rw [hp, hc]
  dsimp only
  rw [hu, applyMux_eq]

theorem abortStart_eq (k : Ctrl) (h : k.bus.enabled = true) :
    k.abortStart =
      { k with
        bus :=
          { k.bus with
            busErr := false, stretch := false, nackFlag := false, rxPending := false, rdy := false
            eq := if k.bus.busy then [.stop] else [] }
        orch := { k.orch with abortSoftFail := false, recPhase := .abortWait } } := by
  unfold Ctrl.abortStart
  cases hb : k.bus.busy <;> simp [Bus.push, Bus.discards, h, hb]

theorem high_iff (l : Lines) : l.high = true ↔ l = { sda := true, scl := true } := by
  rcases l with ⟨a, b⟩; cases a <;> cases b <;> decide

theorem drawLines_setOutstanding (s : State) (r : Byte) (b : Bool) :
    (s.setOutstanding r).drawLines b =
      ((s.drawLines b).1, (s.drawLines b).2.setOutstanding r) := by
  unfold State.drawLines State.draw State.setOutstanding State.modifyReq
  by_cases hr : r = 0
  · subst hr; simp
  · simp only [hr, if_false]
    cases s.params.linesModel <;> cases b <;> cases s.draws <;> simp

theorem setCtrl_self (h : s.ctrl? c = some k) : s.setCtrl c k = s := by
  unfold State.setCtrl
  have hset : s.ctrls.set c k = s.ctrls := by
    apply List.ext_getElem?
    intro i
    rw [List.getElem?_set]
    unfold State.ctrl? at h
    split
    · next hi => subst hi; rw [h]; simp [(List.getElem?_eq_some_iff.1 h).1]
    · rfl
  rw [hset]

/-! ## Agents that are ready -/

theorem seqReady_enabled {st : OpState} (h : k.SeqReady st) (ha : st.active = true) : k.seqEnabled = true := by
  simp [Ctrl.seqEnabled, h.enabled, h.ie, h.rdy, h.state, ha]

theorem engReady_enabled (h : k.EngReady) (hq : k.bus.eq ≠ [] ∨ k.bus.rxPending = true) : k.engEnabled = true := by
  simp [Ctrl.engEnabled, h.enabled, h.noBusErr, h.noNack, hq]

end Sys2Proof.Machine
end

