-- ==== Sys2Proof/Laws/Frames.lean ====
section
/-! SUPPORT. What a step may change: one lemma for the agents of a controller, one for the commands. The statements about
the whole machine cite these. -/

namespace Sys2Proof.Machine
variable {s t u : State} {c : Nat} {k k' k'' : Ctrl}

/-! ## One controller -/

/-- What no agent of a controller writes, and that a trace only grows. -/
structure Ctrl.Follows (k k' : Ctrl) : Prop where
  timing : k'.timing = k.timing
  timeout : k'.record.timeoutUs = k.record.timeoutUs
  trace : ∃ new, k'.trace = k.trace ++ new

theorem Ctrl.Follows.same (h1 : k'.timing = k.timing) (h2 : k'.record.timeoutUs = k.record.timeoutUs)
    (h3 : k'.trace = k.trace) : k.Follows k' := ⟨h1, h2, [], by simp [h3]⟩

theorem Ctrl.Follows.refl (k : Ctrl) : k.Follows k := .same rfl rfl rfl

theorem Ctrl.Follows.trans (h : k.Follows k') (h' : k'.Follows k'') : k.Follows k'' := by
  obtain ⟨n, hn⟩ := h.trace
  obtain ⟨n', hn'⟩ := h'.trace
  exact ⟨h'.timing.trans h.timing, h'.timeout.trans h.timeout, n ++ n', by simp [hn, hn']⟩

theorem follows_engStart (rest) : k.Follows (k.engStart rest) := ⟨rfl, rfl, _, rfl⟩

theorem follows_engStop (rest) : k.Follows (k.engStop rest) := by
  unfold Ctrl.engStop; split
  · exact ⟨rfl, rfl, _, rfl⟩
  · exact .same rfl rfl rfl

theorem follows_engReceive (b) : k.Follows (k.engReceive b) := ⟨rfl, rfl, _, rfl⟩

theorem follows_engSend (v rest a) : k.Follows (k.engSend v rest a) := by
  cases a
  · simp only [Ctrl.engSend, Ctrl.engSendAck]; split <;> exact ⟨rfl, rfl, _, rfl⟩
  · exact ⟨rfl, rfl, _, rfl⟩

theorem follows_raiseBusError : k.Follows k.raiseBusError := ⟨rfl, rfl, _, rfl⟩

theorem follows_rowAddress : k.Follows k.rowAddress := by
  unfold Ctrl.rowAddress; split <;> exact .same rfl rfl rfl

theorem follows_rowReadArm : k.Follows k.rowReadArm := by
  unfold Ctrl.rowReadArm
  split
  · split <;> exact .same rfl rfl rfl
  · split <;> exact .same rfl rfl rfl

theorem follows_rowRead : k.Follows k.rowRead := by
  refine follows_rowReadArm.trans ?_
  unfold Ctrl.rowRead Ctrl.rowReadEnd
  split <;> exact .same rfl rfl rfl

theorem follows_applyMux (ps p) : k.Follows (k.applyMux ps p) := by
  unfold Ctrl.applyMux; split
  · split <;> exact .same rfl rfl rfl
  · exact .refl k

theorem follows_arm {x} (h : (k.load x).arm = some k') : k.Follows k' ∧ k'.record.owner = k.record.owner := by
  unfold Ctrl.arm at h
  split at h
  · cases h; exact ⟨.same rfl rfl rfl, rfl⟩
  · split at h <;> (cases h; exact ⟨.same rfl rfl rfl, rfl⟩)
  · split at h <;> (cases h; exact ⟨.same rfl rfl rfl, rfl⟩)
  all_goals cases h

theorem follows_take (ps r p x) : k.Follows (k.take ps r p x) := by
  obtain ⟨h1, h2, h3⟩ := follows_applyMux (k :=
    { k with
      record := { k.record with owner := r }
      orch := { k.orch with curReq := r, curPort := p, cmd := .transfer x } }) ps p
  exact ⟨h1, h2, h3⟩

theorem follows_preRecover : k.Follows k.preRecover := ⟨rfl, rfl, _, rfl⟩

/-! ## The agents of one controller -/

/-- What a step of an agent of controller `c` leaves: the parameters, the clock, the memory, the lists' lengths, every
other controller; its own follows. -/
structure AgentFrame (c : Nat) (s t : State) : Prop where
  params : t.params = s.params
  clock : t.clockHz = s.clockHz
  mem : t.mem = s.mem
  numCtrl : t.numCtrl = s.numCtrl
  numReq : t.numReq = s.numReq
  others : ∀ c', c' ≠ c → t.ctrl? c' = s.ctrl? c'
  own : ∀ k, s.ctrl? c = some k → ∃ k', t.ctrl? c = some k' ∧ k.Follows k'

theorem AgentFrame.refl (c : Nat) (s : State) : AgentFrame c s s :=
  ⟨rfl, rfl, rfl, rfl, rfl, fun _ _ => rfl, fun k h => ⟨k, h, .refl k⟩⟩

theorem AgentFrame.trans (h : AgentFrame c s t) (h' : AgentFrame c t u) : AgentFrame c s u :=
  ⟨h'.params.trans h.params, h'.clock.trans h.clock, h'.mem.trans h.mem, h'.numCtrl.trans h.numCtrl,
    h'.numReq.trans h.numReq, fun c' hc => (h'.others c' hc).trans (h.others c' hc),
    fun k hk => by
      obtain ⟨k1, h1, f1⟩ := h.own k hk
      obtain ⟨k2, h2, f2⟩ := h'.own k1 h1
      exact ⟨k2, h2, f1.trans f2⟩⟩

theorem AgentFrame.same (h1 : t.params = s.params) (h2 : t.clockHz = s.clockHz) (h3 : t.mem = s.mem)
    (h4 : t.ctrls = s.ctrls) (h5 : t.reqs.length = s.reqs.length) : AgentFrame c s t :=
  ⟨h1, h2, h3, by simp [State.numCtrl, h4], h5, fun c' _ => by simp [State.ctrl?, h4],
    fun k hk => ⟨k, by simpa [State.ctrl?, h4] using hk, .refl k⟩⟩

theorem AgentFrame.set (hk : s.ctrl? c = some k) (h : k.Follows k') : AgentFrame c s (s.setCtrl c k') :=
  ⟨rfl, rfl, rfl, by simp, rfl, fun _ hc => ctrl?_setCtrl_ne _ _ _ (Ne.symm hc), fun k0 h0 => by
    rw [hk] at h0
    cases h0
    exact ⟨k', by rw [ctrl?_setCtrl _ _ _ hk, if_pos rfl], h⟩⟩

theorem AgentFrame.draw : AgentFrame c s s.draw.2 := .same (by simp) (by simp) (by simp) (by simp) (by simp)

theorem AgentFrame.drawLines (b) : AgentFrame c s (s.drawLines b).2 :=
  .same (by simp) (by simp) (by simp) (by simp) (by simp)

theorem AgentFrame.respond (r res d) : AgentFrame c s (s.respond r res d) :=
  .same (by simp) (by simp) (by simp) (by simp) (modifyReq_numReq ..)

theorem AgentFrame.release (hk : s.ctrl? c = some k) (h : k.Follows k') (res d) :
    AgentFrame c s (Machine.release s c k' res d) := by
  unfold Machine.release
  refine .trans (.set hk ?_) (.respond _ _ _)
  exact ⟨h.timing, h.timeout, h.trace⟩

/-- What a step does with the token of controller `c`, held by the requester of `k`: it keeps the owner and answers
nobody, or it releases the controller and answers the requester its command is of, where the record holds a kind of R26
never with ModuleBusy or BusBusy (40_commands.md R125, 60_exceptions.md R263). -/
def Settles (c : Nat) (k : Ctrl) (s t : State) : Prop :=
  (t.reqs = s.reqs ∧ ∃ k', t.ctrl? c = some k' ∧ k'.record.owner = k.record.owner) ∨
  (∃ res d, t.reqs = (s.respond k.orch.curReq res d).reqs ∧
    (k.record.errorCode.recordable = true → res ≠ .moduleBusy ∧ res ≠ .busBusy) ∧
    ∃ k', t.ctrl? c = some k' ∧ k'.record.owner = 0)

theorem Settles.set (hk : u.ctrl? c = some k'') (hr : u.reqs = s.reqs) (h : k'.record.owner = k.record.owner) :
    Settles c k s (u.setCtrl c k') :=
  .inl ⟨hr, k', by rw [ctrl?_setCtrl _ _ _ hk, if_pos rfl], h⟩

theorem Settles.release (hk : u.ctrl? c = some k'') (hr : u.reqs = s.reqs) (hq : k'.orch.curReq = k.orch.curReq)
    {res} (d) (hres : k.record.errorCode.recordable = true → res ≠ .moduleBusy ∧ res ≠ .busBusy) : Settles c k s (Machine.release u c k' res d) := by
  refine .inr ⟨res, d, ?_, hres, _, by rw [Machine.release, respond_ctrl?, ctrl?_setCtrl _ _ _ hk, if_pos rfl], rfl⟩
  rw [Machine.release, hq, State.respond, State.respond]
  unfold State.modifyReq
  split
  · exact hr
  · simp [hr]

/-! ## The orchestrator -/

theorem frame_stepB {x} (hk : s.ctrl? c = some k) (h : k.Follows k') (ho : k'.record.owner = k.record.owner)
    (ht : stepB s c k' x = .next t) : AgentFrame c s t ∧ Settles c k s t := by
  unfold stepB at ht
  split at ht
  · next k1 h1 =>
    cases ht
    obtain ⟨f, o⟩ := follows_arm h1
    exact ⟨.set hk (h.trans f), .set hk rfl (o.trans ho)⟩
  · cases ht

theorem frame_recoveryFinished (hu : AgentFrame c s u) (hur : u.reqs = s.reqs) (hk : u.ctrl? c = some k)
    (h : k.Follows k') (ho : k'.record = k.record) (hq : k'.orch.curReq = k.orch.curReq)
    (ht : recoveryFinished u c k' = .next t) : AgentFrame c s t ∧ Settles c k s t := by
  unfold recoveryFinished at ht
  split at ht
  · obtain ⟨f, o⟩ := frame_stepB hk (h.trans (follows_applyMux _ _)) (by simp [ho]) ht
    refine ⟨hu.trans f, ?_⟩
    rcases o with ⟨o1, o2⟩ | ⟨res, d, o1, o2⟩
    · exact .inl ⟨o1.trans hur, o2⟩
    · refine .inr ⟨res, d, o1.trans ?_, o2⟩
      unfold State.respond State.modifyReq; split
      · exact hur
      · simp [hur]
  · cases ht
    refine ⟨hu.trans (.release hk (h.trans ((follows_applyMux u.params.portMap k'.orch.curPort).trans ?_)) _ _),
      .release hk hur (by simp [Ctrl.postRecovered, hq]) _ ?_⟩
    · exact .same rfl (by simp [Ctrl.postRecovered]) rfl
    · simp only [Ctrl.postRecovered, ho]
      cases k'.orch.timedOut <;> cases k.record.errorCode <;> decide
  all_goals
    cases ht
    try exact ⟨hu.trans (.release hk (h.trans (k'' := k'.commandEnded) (.same rfl rfl rfl)) _ _),
      .release (k' := k'.commandEnded) hk hur hq _ (fun _ => by decide)⟩

theorem frame_abortFinished (hk : s.ctrl? c = some k) (h : k.Follows k') (ho : k'.record = k.record)
    (hq : k'.orch.curReq = k.orch.curReq) (ht : abortFinished s c k' = .next t) : AgentFrame c s t ∧ Settles c k s t := by
  unfold abortFinished at ht
  split at ht
  · cases ht
    have hk' : s.draw.2.ctrl? c = some k := by simpa using hk
    exact ⟨AgentFrame.draw.trans (.set hk' (h.trans (.same rfl rfl rfl))),
      .set hk' (by simp) (show k'.record.owner = _ by rw [ho])⟩
  · exact frame_recoveryFinished (k' := { k' with orch := { k'.orch with recPhase := .none } }) (.refl c s) rfl hk
      (h.trans (.same rfl rfl rfl)) ho hq ht

/-- The orchestrator's step, whatever it is (40_commands.md R122, 43_recovery.md R231, R234). -/
theorem frame_orchStep (hk : s.ctrl? c = some k) (ht : orchStep s c k = .next t) : AgentFrame c s t ∧ Settles c k s t := by
  unfold orchStep at ht
  split at ht
  · cases ht
    unfold completion
    split
    · exact ⟨.set hk (.same rfl rfl rfl), .set hk rfl rfl⟩
    · refine ⟨.release (k' := { k with done := false }) hk (.same rfl rfl rfl) _ _,
        .release (k' := { k with done := false }) hk rfl rfl _ ?_⟩
      cases k.record.errorCode <;> decide
  · exact frame_abortFinished hk (.refl k) rfl rfl ht
  · have hk' : (s.drawLines k.bus.busy).2.ctrl? c = some k := by simpa using hk
    split at ht
    · exact frame_recoveryFinished (k' := k.resetFinish) (.drawLines _) (by simp) hk' (.same rfl rfl rfl) rfl rfl ht
    · cases ht
      exact ⟨.drawLines _, .inl ⟨by simp, k, hk', rfl⟩⟩

/-- The end of a poll window (43_recovery.md R232, R234). -/
theorem frame_expiryStep (hk : s.ctrl? c = some k) (ht : expiryStep s c k = .next t) : AgentFrame c s t ∧ Settles c k s t := by
  unfold expiryStep at ht
  split at ht
  · cases ht; exact ⟨.refl c s, .inl ⟨rfl, k, hk, rfl⟩⟩
  · exact frame_abortFinished (k' := k.abortExpire) hk ⟨rfl, rfl, _, rfl⟩ rfl rfl ht
  · exact frame_recoveryFinished (k' := k.resetExpire.resetFinish) (.refl c s) rfl hk ⟨rfl, rfl, _, rfl⟩ rfl rfl ht

theorem frame_timeoutFires (hk : s.ctrl? c = some k) :
    AgentFrame c s (s.setCtrl c k.timeoutFires) ∧ Settles c k s (s.setCtrl c k.timeoutFires) :=
  ⟨.set hk (.same rfl rfl rfl), .set hk rfl rfl⟩

/-! ## The sequencer, the engine, Env -/

theorem frame_engStep (hk : s.ctrl? c = some k) : AgentFrame c s (engStep s c k) ∧ Settles c k s (engStep s c k) := by
  have hk' : s.draw.2.ctrl? c = some k := by simpa using hk
  unfold engStep
  split
  · exact ⟨.set hk (follows_engStart _), .set hk rfl rfl⟩
  · refine ⟨AgentFrame.draw.trans (.set hk' (follows_engSend _ _ _)), .set hk' (by simp) ?_⟩
    unfold Ctrl.engSend Ctrl.engSendAck
    split
    · split <;> rfl
    · rfl
  · refine ⟨.set hk (follows_engStop _), .set hk rfl ?_⟩
    unfold Ctrl.engStop; split <;> rfl
  · exact ⟨AgentFrame.draw.trans (.set hk' (follows_engReceive _)), .set hk' (by simp) rfl⟩

/-- The sequencer's step: memory first, where it is in Read, then its controller (20_memory.md R61). -/
theorem frame_seqStep (hk : s.ctrl? c = some k) (ht : seqStep s c k = .next t) :
    ∃ m, AgentFrame c { s with mem := m } t ∧ Settles c k s t ∧
      (m = s.mem ∨
        (k.record.opState = .read ∧ k.record.cursor.toNat < k.record.rxLen.toNat ∧
          m = s.mem.write (rxAddr k.record.owner k.record.cursor.toNat) k.bus.data)) := by
  have quiet : ∀ k', k.Follows k' → k'.record.owner = k.record.owner → t = s.setCtrl c k' →
      ∃ m, AgentFrame c { s with mem := m } t ∧ Settles c k s t ∧
        (m = s.mem ∨
          (k.record.opState = .read ∧ k.record.cursor.toNat < k.record.rxLen.toNat ∧
            m = s.mem.write (rxAddr k.record.owner k.record.cursor.toNat) k.bus.data)) := by
    intro k' h ho ht
    subst ht
    exact ⟨s.mem, .set hk h, .set hk rfl ho, .inl rfl⟩
  unfold seqStep at ht
  split at ht
  · cases ht; exact quiet k.rowBusError (.same rfl rfl rfl) rfl rfl
  split at ht
  · cases ht; exact quiet k.rowNack (.same rfl rfl rfl) rfl rfl
  split at ht
  · cases ht; refine quiet _ follows_rowAddress ?_ rfl
    unfold Ctrl.rowAddress; split <;> rfl
  · cases ht; refine quiet _ follows_rowAddress ?_ rfl
    unfold Ctrl.rowAddress; split <;> rfl
  · unfold seqWrite at ht
    split at ht
    · split at ht
      · cases ht
      · next v _ => cases ht; exact quiet (k.rowWriteByte v) (.same rfl rfl rfl) rfl rfl
    split at ht
    · cases ht
    split at ht
    · cases ht; exact quiet k.rowWriteEnd (.same rfl rfl rfl) rfl rfl
    · cases ht; exact quiet k.rowWriteToRead (.same rfl rfl rfl) rfl rfl
  · next hst =>
    unfold seqRead State.rxStore at ht
    split at ht
    · cases ht
    next hc =>
    split at ht
    · cases ht
    · next s1 h1 =>
      cases ht
      split at h1
      · cases h1
        exact ⟨_, .set hk follows_rowRead, .inl ⟨rfl, k.rowRead,
          (ctrl?_setCtrl _ c _ (k0 := k) (by exact hk) c).trans (if_pos rfl), owner_rowRead⟩,
          .inr ⟨hst, by omega, rfl⟩⟩
      · cases h1
  all_goals
    cases ht
    exact ⟨s.mem, .refl c s, .inl ⟨rfl, k, hk, rfl⟩, .inl rfl⟩

/-! ## Commands -/

/-- What a command leaves of a controller. -/
structure Ctrl.Commanded (i : Instr) (k k' : Ctrl) : Prop where
  trace : ∃ new, k'.trace = k.trace ++ new
  timing : k'.timing = k.timing ∨ (∃ r hz, i = .clkchg r hz) ∨ ∃ r c hz, i = .setfreq r c hz
  timeout : k'.record.timeoutUs = k.record.timeoutUs ∨ ∃ r p us, i = .setto r p us
  owned : k.record.owner ≠ 0 →
    k' =
      { k with record := { k.record with timeoutUs := k'.record.timeoutUs }, timing := k'.timing, trace := k'.trace } ∧
    (k'.trace = k.trace ∨ k'.trace = k.trace ++ [.log .timingFallback])

theorem Ctrl.Commanded.refl (i : Instr) (k : Ctrl) : k.Commanded i k :=
  ⟨⟨[], by simp⟩, .inl rfl, .inl rfl, fun _ => ⟨rfl, .inl rfl⟩⟩

theorem Ctrl.Commanded.ofFollows {i : Instr} (h : k.Follows k') (h0 : k.record.owner = 0) : k.Commanded i k' :=
  ⟨h.trace, .inl h.timing, .inl h.timeout, fun ho => absurd h0 ho⟩

/-- What a command leaves of the block, and whom it answers: at most its own requester, at most once, never with
ModuleBusy or BusBusy, and after the answer that requester is free. -/
structure CommandFrame (i : Instr) (s t : State) : Prop where
  params : t.params = s.params
  mem : t.mem = s.mem
  numCtrl : t.numCtrl = s.numCtrl
  numReq : t.numReq = s.numReq
  clock : t.clockHz = s.clockHz ∨ ∃ r hz, i = .clkchg r hz
  ctrl : ∀ c k, s.ctrl? c = some k → ∃ k', t.ctrl? c = some k' ∧ k.Commanded i k'
  answers : ∀ r, t.responsesOf r = s.responsesOf r ∨
    ∃ res d q, t.responsesOf r = s.responsesOf r ++ [responseWord res d] ∧ res ≠ .moduleBusy ∧ res ≠ .busBusy ∧
      t.req? r = some q ∧ q.outstanding = false

/-- An answer, as a requester sees it. -/
theorem answers_respond (s : State) (r r' : Byte) {res : Kind} (d : Word) (h1 : res ≠ .moduleBusy)
    (h2 : res ≠ .busBusy) :
    (s.respond r res d).responsesOf r' = s.responsesOf r' ∨
      ∃ res' d' q, (s.respond r res d).responsesOf r' = s.responsesOf r' ++ [responseWord res' d'] ∧
        res' ≠ .moduleBusy ∧ res' ≠ .busBusy ∧ (s.respond r res d).req? r' = some q ∧ q.outstanding = false := by
  unfold State.responsesOf
  rw [req?_respond]
  by_cases hr : r = r'
  · subst hr
    rw [if_pos rfl]
    cases hq : s.req? r with
    | none => exact .inl rfl
    | some q => exact .inr ⟨res, d, _, rfl, h1, h2, rfl, rfl⟩
  · rw [if_neg hr]; exact .inl rfl

theorem responsesOf_congr (h : t.reqs = s.reqs) (r : Byte) : t.responsesOf r = s.responsesOf r := by
  simp [State.responsesOf, State.req?, h]

theorem responsesOf_setOutstanding (s : State) (r r' : Byte) :
    (s.setOutstanding r).responsesOf r' = s.responsesOf r' := by
  unfold State.responsesOf
  rw [req?_setOutstanding]
  by_cases h : r = r'
  · rw [if_pos h]; cases s.req? r' <;> rfl
  · rw [if_neg h]

/-- A command that answers at once, from a state that differs in controllers, clock and draws at most. -/
theorem CommandFrame.respond {i : Instr} (r : Byte) {res : Kind} (d : Word) (hp : u.params = s.params)
    (hm : u.mem = s.mem) (hr : u.reqs = s.reqs) (hn : u.numCtrl = s.numCtrl)
    (hcl : u.clockHz = s.clockHz ∨ ∃ r hz, i = .clkchg r hz)
    (hc : ∀ c k, s.ctrl? c = some k → ∃ k', u.ctrl? c = some k' ∧ k.Commanded i k')
    (h1 : res ≠ .moduleBusy) (h2 : res ≠ .busBusy) : CommandFrame i s (u.respond r res d) := by
  refine ⟨by simp [hp], by simp [hm], (modifyReq_numCtrl ..).trans hn, (modifyReq_numReq ..).trans ?_, by simpa using hcl,
    fun c k hk => by simpa using hc c k hk, fun r' => ?_⟩
  · simp [State.numReq, hr]
  · rw [← responsesOf_congr hr]; exact answers_respond u r r' d h1 h2

/-- A command that only answers. -/
theorem CommandFrame.answer {i : Instr} (r : Byte) {res : Kind} (d : Word) (h1 : res ≠ .moduleBusy)
    (h2 : res ≠ .busBusy) : CommandFrame i s (s.respond r res d) :=
  .respond r d rfl rfl rfl rfl (.inl rfl) (fun _ k hk => ⟨k, hk, .refl i k⟩) h1 h2

/-- A command that takes controller `c` and goes on. -/
theorem CommandFrame.takes {i : Instr} {r : Byte} (hu : AgentFrame c s u) (hur : u.reqs = s.reqs)
    (hk : s.ctrl? c = some k) (h0 : k.record.owner = 0) (h : k.Follows k') :
    CommandFrame i s ((u.setOutstanding r).setCtrl c k') := by
  obtain ⟨ku, hku, hf⟩ := hu.own k hk
  have hset : ∀ c', ((u.setOutstanding r).setCtrl c k').ctrl? c' = if c = c' then some k' else u.ctrl? c' := fun c' => by
    rw [ctrl?_setCtrl _ _ _ (k0 := ku) (by simpa using hku), setOutstanding_ctrl?]
  refine ⟨by simp [hu.params], by simp [hu.mem], ?_, (modifyReq_numReq ..).trans hu.numReq, .inl (by simp [hu.clock]),
    fun c' k1 h1 => ?_, fun r' => ?_⟩
  · rw [setCtrl_numCtrl]; exact (modifyReq_numCtrl ..).trans hu.numCtrl
  · rw [hset]
    by_cases hc : c = c'
    · subst hc
      rw [hk] at h1; cases h1
      exact ⟨k', if_pos rfl, .ofFollows h h0⟩
    · exact ⟨k1, by rw [if_neg hc, hu.others c' (Ne.symm hc)]; exact h1, .refl i k1⟩
  · left
    rw [responsesOf_congr (setCtrl_reqs ..), responsesOf_setOutstanding, responsesOf_congr hur]

/-- Every next state of an outcome is framed. -/
def FramesCommand (i : Instr) (s : State) (o : Result) : Prop := ∀ t, o = .next t → CommandFrame i s t

theorem framesCommand_next {i : Instr} (h : CommandFrame i s t) : FramesCommand i s (.next t) := by
  intro t' ht; cases ht; exact h

theorem framesCommand_accept {i : Instr} {r : Byte} {run : Result} (h : FramesCommand i s run) :
    FramesCommand i s (s.accept r run) := by
  unfold State.accept
  split
  · intro t ht; cases ht
  · split
    · intro t ht; cases ht
    · exact h

theorem framesCommand_illegal {i : Instr} {r : Byte} : FramesCommand i s (s.answerIllegal r) :=
  framesCommand_next (.answer r 0 (by decide) (by decide))

theorem framesCommand_onCtrl {i : Instr} {r ci : Byte} {run}
    (h : ∀ k, s.ctrl? ci.toNat = some k → FramesCommand i s (run k)) : FramesCommand i s (s.onCtrl r ci run) := by
  unfold State.onCtrl
  split
  · exact framesCommand_illegal
  · exact h _ (by assumption)

theorem framesCommand_onPort {i : Instr} {r p : Byte} {run} (h : ∀ e, FramesCommand i s (run e)) :
    FramesCommand i s (s.onPort r p run) := by
  unfold State.onPort
  split
  · unfold State.badPort; split
    · intro t ht; cases ht
    · exact framesCommand_illegal
  · exact h _

theorem framesCommand_onPortCtrl {i : Instr} {e : PortEntry} {run}
    (h : ∀ k, s.ctrl? e.ctrl = some k → FramesCommand i s (run k)) : FramesCommand i s (s.onPortCtrl e run) := by
  unfold State.onPortCtrl
  split
  · intro t ht; cases ht
  · exact h _ (by assumption)

theorem framesCommand_preCheck {i : Instr} {x} {r : Byte} (hk : s.ctrl? c = some k) (h0 : k.record.owner = 0)
    (h : k.Follows k') : FramesCommand i s (preCheck (s.setOutstanding r) c k' x) := by
  have armed : ∀ u, AgentFrame c s u → u.reqs = s.reqs → FramesCommand i s (stepB (u.setOutstanding r) c k' x) := by
    intro u hu hur t ht
    unfold stepB at ht
    split at ht
    · next k1 h1 => cases ht; exact .takes hu hur hk h0 (h.trans (follows_arm h1).1)
    · cases ht
  unfold preCheck
  rw [drawLines_setOutstanding]
  split
  · split
    · exact framesCommand_next (.takes (.drawLines _) (by simp) hk h0 (h.trans follows_preRecover))
    · exact armed _ (.drawLines _) (by simp)
  · exact armed _ (.refl c s) rfl

theorem framesCommand_transfer {i : Instr} {r p x} : FramesCommand i s (transfer r p x s) := by
  refine framesCommand_accept ?_
  split
  · exact framesCommand_next (.answer r 0 (by decide) (by decide))
  refine framesCommand_onPort fun e => ?_
  split
  · exact framesCommand_next (.answer r 0 (by decide) (by decide))
  refine framesCommand_onPortCtrl fun k hk => ?_
  split
  · exact framesCommand_next (.answer r 0 (by decide) (by decide))
  · next h0 => exact framesCommand_preCheck hk (not_not.1 h0) (follows_take ..)

theorem framesCommand_onFreeCtrl {i : Instr} {r ci start}
    (h : ∀ k, s.ctrl? ci.toNat = some k → k.record.owner = 0 → CommandFrame i s (start k)) :
    FramesCommand i s (onFreeCtrl r ci s start) := by
  refine framesCommand_accept (framesCommand_onCtrl fun k hk => ?_)
  split
  · exact framesCommand_next (.answer r 0 (by decide) (by decide))
  · next h0 => exact framesCommand_next (h k hk (not_not.1 h0))

/-- One controller replaced, the others as they were. -/
theorem commanded_set {i : Instr} (hk : s.ctrl? c = some k) (h : k.Commanded i k') (c' : Nat) (k1 : Ctrl)
    (h1 : s.ctrl? c' = some k1) : ∃ k2, (s.setCtrl c k').ctrl? c' = some k2 ∧ k1.Commanded i k2 := by
  rw [ctrl?_setCtrl _ _ _ hk]
  by_cases hc : c = c'
  · subst hc
    rw [hk] at h1; cases h1
    exact ⟨k', if_pos rfl, h⟩
  · exact ⟨k1, by rw [if_neg hc]; exact h1, .refl i k1⟩

/-- Programming leaves the trace, or logs that it fell back (42_timing.md R215). -/
theorem trace_program (k : Ctrl) (res : TimingResult) :
    (k.program res).trace = k.trace ∨ (k.program res).trace = k.trace ++ [.log .timingFallback] := by
  unfold Ctrl.program; dsimp only; split
  · exact .inr rfl
  · exact .inl rfl

/-- What a command leaves of a controller it programs. -/
theorem Ctrl.Commanded.ofProgram {i : Instr} {t : Timing} {res : TimingResult}
    (h : (∃ r hz, i = .clkchg r hz) ∨ ∃ r c hz, i = .setfreq r c hz) :
    k.Commanded i ({ k with timing := t }.program res) := by
  have ht := trace_program { k with timing := t } res
  refine ⟨?_, .inr h, .inl rfl, fun _ => ⟨rfl, ht⟩⟩
  rcases ht with ht | ht
  · exact ⟨[], by rw [ht]; simp⟩
  · exact ⟨_, ht⟩

theorem kind_answers (res : TimingResult) : res.kind ≠ .moduleBusy ∧ res.kind ≠ .busBusy := by
  unfold TimingResult.kind; split <;> decide

/-- Every command's frame. -/
theorem framesCommand_exec (i : Instr) (s : State) : FramesCommand i s (exec i s) := by
  cases i <;> simp only [exec]
  case xfer => exact framesCommand_transfer
  case xferS => exact framesCommand_transfer
  case xferP => exact framesCommand_transfer
  case xferSP => exact framesCommand_transfer
  case setto r p us =>
    refine framesCommand_accept (framesCommand_onPort fun e => framesCommand_onPortCtrl fun k hk => framesCommand_next ?_)
    exact .respond r 0 rfl rfl rfl (by simp) (.inl rfl)
      (commanded_set hk ⟨⟨[], by simp [Ctrl.setTimeout]⟩, .inl rfl, .inr ⟨r, p, us, rfl⟩, fun _ => ⟨rfl, .inl rfl⟩⟩) (by decide) (by decide)
  case setfreq r ci hz =>
    refine framesCommand_accept (framesCommand_onCtrl fun k hk => framesCommand_next ?_)
    refine .respond r 0 rfl rfl rfl (by simp) (.inl rfl) (commanded_set hk ?_) (kind_answers _).1 (kind_answers _).2
    unfold Ctrl.retarget
    split
    · exact .ofProgram (.inr ⟨r, ci, hz, rfl⟩)
    · exact .refl _ k
  case clkchg r hz =>
    refine framesCommand_accept (framesCommand_next ?_)
    refine .respond r 0 rfl rfl rfl (by simp [State.numCtrl]) (.inr ⟨r, hz, rfl⟩) (fun c k hk => ?_) ?_ ?_
    · refine ⟨k.reclock s.params.fastCalTable hz, by simp [State.ctrl?] at hk ⊢; simp [hk], ?_⟩
      exact .ofProgram (t := k.timing) (.inl ⟨r, hz, rfl⟩)
    all_goals unfold clockResult; split <;> decide
  case busbusy r ci =>
    exact framesCommand_accept (framesCommand_onCtrl fun k hk =>
      framesCommand_next (.answer r _ (by decide) (by decide)))
  case lines r p =>
    refine framesCommand_accept (framesCommand_onPort fun e => framesCommand_onPortCtrl fun k hk => framesCommand_next ?_)
    exact .respond r _ (by simp) (by simp) (by simp) (by simp [State.numCtrl]) (.inl (by simp))
      (fun _ k hk => ⟨k, by simpa using hk, .refl _ k⟩) (by decide) (by decide)
  case rdreg r ci j =>
    refine framesCommand_accept (framesCommand_onCtrl fun k hk => ?_)
    split
    · refine framesCommand_next ?_
      unfold readStatus
      split
      · exact .respond r _ (by simp) (by simp) (by simp) (by simp [State.numCtrl]) (.inl (by simp))
          (fun _ k hk => ⟨k, by simpa using hk, .refl _ k⟩) (by decide) (by decide)
      · exact .answer r _ (by decide) (by decide)
    · split
      · exact framesCommand_next (.answer r _ (by decide) (by decide))
      · exact framesCommand_illegal
  case abort r ci =>
    exact framesCommand_onFreeCtrl fun k hk h0 => .takes (.refl _ s) rfl hk h0 (.same rfl rfl rfl)
  case reset r ci =>
    exact framesCommand_onFreeCtrl fun k hk h0 => .takes .draw (by simp) hk h0 (.same rfl rfl rfl)
  case recover r ci =>
    exact framesCommand_onFreeCtrl fun k hk h0 => .takes (.refl _ s) rfl hk h0 (.same rfl rfl rfl)

/-! ## A step -/

/-- A step is the step of its next event, from the state without it, or nothing where no agent is enabled. -/
theorem step_next (h : step s = .next t) :
    (s.nextEvent.1 = none ∧ t = s.nextEvent.2) ∨ ∃ e, s.nextEvent.1 = some e ∧ runEvent s.nextEvent.2 e = .next t := by
  unfold step State.advance at h
  split at h
  · next e s1 heq => rw [heq]; exact .inr ⟨e, rfl, h⟩
  · next s1 heq => rw [heq]; cases h; exact .inl ⟨rfl, rfl⟩

@[simp] theorem nextEvent_params (s : State) : s.nextEvent.2.params = s.params := by
  unfold State.nextEvent; split
  · rfl
  · split <;> rfl
@[simp] theorem nextEvent_clockHz (s : State) : s.nextEvent.2.clockHz = s.clockHz := by
  unfold State.nextEvent; split
  · rfl
  · split <;> rfl
@[simp] theorem nextEvent_ctrls (s : State) : s.nextEvent.2.ctrls = s.ctrls := by
  unfold State.nextEvent; split
  · rfl
  · split <;> rfl
@[simp] theorem nextEvent_reqs (s : State) : s.nextEvent.2.reqs = s.reqs := by
  unfold State.nextEvent; split
  · rfl
  · split <;> rfl
@[simp] theorem nextEvent_mem (s : State) : s.nextEvent.2.mem = s.mem := by
  unfold State.nextEvent; split
  · rfl
  · split <;> rfl
@[simp] theorem nextEvent_ctrl? (s : State) (c : Nat) : s.nextEvent.2.ctrl? c = s.ctrl? c := by simp [State.ctrl?]
@[simp] theorem nextEvent_req? (s : State) (r : Byte) : s.nextEvent.2.req? r = s.req? r := by simp [State.req?]

theorem onAgent_next {en run} (h : s.onAgent c en run = .next t) :
    t = s ∨ ∃ k, s.ctrl? c = some k ∧ en k = true ∧ run k = .next t := by
  unfold State.onAgent at h
  split at h
  · cases h; exact .inl rfl
  next k hk =>
  split at h
  · next he => exact .inr ⟨k, hk, he, h⟩
  · cases h; exact .inl rfl

/-- Everything an event can have done when it answers a next state (00_scope.md R8). -/
inductive EventDid (s t : State) (e : Event) : Prop
  | idle (h : t = s)
  | access (r : Byte) (a : Word) (v : Byte) (he : e = .bufWrite r a v) (hm : s.mayAccess r a = true)
      (h : t = { s with mem := s.mem.write a.toNat v })
  | illegal (r : Byte) (w : Command) (he : e = .command r w) (h : t = s.respond r .illegalCommand 0)
  | command (r : Byte) (w : Command) (i : Instr) (he : e = .command r w) (hd : decodeWord w = .ok i)
      (hx : exec i s = .next t) (h : CommandFrame i s t)
  | agent (c : Nat) (k : Ctrl)
      (hc : e ∈ [Event.orch c, .timeout c, .windowExpiry c, .eng c, .busError c, .setStretch c])
      (hk : s.ctrl? c = some k) (h : AgentFrame c s t) (h2 : Settles c k s t)
  | seq (c : Nat) (k : Ctrl) (m : Memory) (hc : e = .seq c) (hk : s.ctrl? c = some k)
      (h : AgentFrame c { s with mem := m } t) (h2 : Settles c k s t)
      (hm : m = s.mem ∨
        (k.record.opState = .read ∧ k.record.cursor.toNat < k.record.rxLen.toNat ∧
          m = s.mem.write (rxAddr k.record.owner k.record.cursor.toNat) k.bus.data))

theorem event_did {e : Event} (h : runEvent s e = .next t) : EventDid s t e := by
  cases e <;> simp only [runEvent] at h
  case command r w =>
    unfold acceptWord at h
    split at h
    · cases h
    split at h
    · next i hi => exact .command r w i rfl hi h (framesCommand_exec i s t h)
    · unfold State.accept at h
      split at h
      · cases h
      split at h
      · cases h
      · cases h; exact .illegal r w rfl rfl
  case bufRead r a =>
    unfold bufferRead at h; split at h
    · cases h; exact .idle rfl
    · cases h
  case bufWrite r a v =>
    unfold bufferWrite at h; split at h
    · next hm => cases h; exact .access r a v rfl hm rfl
    · cases h
  all_goals obtain h | ⟨k, hk, he, h⟩ := onAgent_next h
  all_goals first | exact .idle h | skip
  case orch.inr => exact .agent _ k (by simp) hk (frame_orchStep hk h).1 (frame_orchStep hk h).2
  case timeout.inr => cases h; exact .agent _ k (by simp) hk (frame_timeoutFires hk).1 (frame_timeoutFires hk).2
  case windowExpiry.inr => exact .agent _ k (by simp) hk (frame_expiryStep hk h).1 (frame_expiryStep hk h).2
  case seq.inr => obtain ⟨m, h1, h2, h3⟩ := frame_seqStep hk h; exact .seq _ k m rfl hk h1 h2 h3
  case eng.inr => cases h; exact .agent _ k (by simp) hk (frame_engStep hk).1 (frame_engStep hk).2
  case busError.inr => cases h; exact .agent _ k (by simp) hk (.set hk follows_raiseBusError) (.set hk rfl rfl)
  case setStretch.inr => cases h; exact .agent _ k (by simp) hk (.set hk (.same rfl rfl rfl)) (.set hk rfl rfl)

end Sys2Proof.Machine
end

