-- ==== Sys2Proof/Tests/Slice0.lean ====
section
/-! SUPPORT. The model's own tests. Expected words are those of 30_encoding.md R95, expected results those of the examples
of 40_commands.md and of 95_test_vectors.md. After them, one witness for the hypotheses of each statement. -/

namespace Sys2Proof.Tests
open Sys2Proof Sys2Proof.Machine

/-! ## Well-formedness: an ill-formed term for each check -/

theorem test_wellFormed_refuses_register_9 : (Instr.rdreg 1 0 9).wellFormed = false := by decide
theorem test_wellFormed_takes_register_8 : (Instr.rdreg 1 0 8).wellFormed = true := by decide
theorem test_legal_refuses_requester_0 : (Instr.lines 0 0).legal 2 1 = false := by decide
theorem test_legal_refuses_requester_3_of_2 : (Instr.lines 3 0).legal 2 1 = false := by decide
theorem test_legal_refuses_controller_1_of_1 : (Instr.busbusy 1 1).legal 2 1 = false := by decide
theorem test_legal_takes_requester_2_of_2 : (Instr.busbusy 2 0).legal 2 1 = true := by decide

/-! ## Decoding: the words of R95, one per row of the opcode map, and the rejections of R86 -/

theorem test_decode_xfer : decodeTableWord 64 0x0004000350010210 = some (.xfer 2 1 0x50 3 4) := by decide
theorem test_decode_xferS : decodeTableWord 64 0x00000001A0000111 = some (.xferS 1 0 0xA0 1 0) := by decide
theorem test_decode_xferP : decodeTableWord 64 0x00010000A0000112 = some (.xferP 1 0 0xA0 0 1) := by decide
theorem test_decode_xferSP : decodeTableWord 64 0x00000002A0000113 = some (.xferSP 1 0 0xA0 2 0) := by decide
theorem test_decode_setto : decodeTableWord 64 0x000061A800000120 = some (.setto 1 0 25000) := by decide
theorem test_decode_setfreq : decodeTableWord 64 0x000186A000000121 = some (.setfreq 1 0 100000) := by decide
theorem test_decode_clkchg : decodeTableWord 64 0x00E4E1C000000122 = some (.clkchg 1 15000000) := by decide
theorem test_decode_busbusy : decodeTableWord 64 0x0000000000000130 = some (.busbusy 1 0) := by decide
theorem test_decode_lines : decodeTableWord 64 0x0000000000000131 = some (.lines 1 0) := by decide
theorem test_decode_rdreg : decodeTableWord 64 0x0000000100000132 = some (.rdreg 1 0 1) := by decide
theorem test_decode_abort : decodeTableWord 64 0x0000000000000140 = some (.abort 1 0) := by decide
theorem test_decode_reset : decodeTableWord 64 0x0000000000000141 = some (.reset 1 0) := by decide
theorem test_decode_recover : decodeTableWord 64 0x0000000000000142 = some (.recover 1 0) := by decide

theorem test_decode_reads_bytes_low_first :
    decode [0x10, 0x02, 0x01, 0x50, 0x03, 0x00, 0x04, 0x00, 0xFF] = .ok (.xfer 2 1 0x50 3 4, [0xFF]) := by rfl
theorem test_encode_writes_bytes_low_first :
    encode (.xfer 2 1 0x50 3 4) = [0x10, 0x02, 0x01, 0x50, 0x03, 0x00, 0x04, 0x00] := by decide
/-- R66 for a register value (FASTTIMING with t_high 0x0102, t_low 0x0304), and for the answer to it. -/
theorem test_register_bytes_low_first : bytesOfRegister 0x01020304 = [0x04, 0x03, 0x02, 0x01] ∧
    registerOfBytes 0x04 0x03 0x02 0x01 = 0x01020304 := by decide
theorem test_response_bytes_low_first :
    encodeResponse .timeout 0x01020304 = [0x06, 0x00, 0x00, 0x00, 0x04, 0x03, 0x02, 0x01] := by decide
theorem test_decode_short : decode [0x10, 0x02, 0x01, 0x50, 0x03, 0x00, 0x04] = .error .truncated := by rfl
theorem test_decode_unknown : decodeWord 0x0000000000000114 = .error .unknownOpcode := by rfl
theorem test_decode_addr : decodeWord 0x0000000001000120 = .error .addrReserved := by rfl
theorem test_decode_idx : decodeWord 0x0000000000010122 = .error .idxReserved := by rfl
theorem test_decode_arg : decodeWord 0x0000000100000130 = .error .argReserved := by rfl
theorem test_decode_register_9 : decodeWord 0x0000000900000132 = .error .registerIndex := by rfl

/-! ## Small states -/

/-- The state of an outcome. -/
def after (o : Result) : Option State :=
  match o with
  | .next t => some t
  | .fault _ | .refused _ => none

/-- The state after the events, or the state itself where one of them stops. -/
def run (es : List Event) (s : State) : State := (runEvents es s).getD s

/-- The block after reset with bytes 0x10, 0x20 in the transmit buffer of requester 1, and the given draws. -/
def block (draws : List Byte) : State := { State.reset with mem := [(0x20000, 0x10), (0x20001, 0x20)], draws := draws }

/-- The block under LINES_MODEL = FREE. -/
def freeLines (draws : List Byte) : State :=
  { block draws with params := { Params.s0 with linesModel := .free } }

/-- Controller 0. -/
def ctrl0 (s : State) : Ctrl := s.ctrls.headD default

/-- Requester 1. -/
def req1 (s : State) : Requester := s.reqs.headD default

/-- Port 0. -/
def port0 : PortEntry := { ctrl := 0, muxed := false, pinset := false }

/-- XFER.SP r1, p0, 0xA0, tx=2, rx=0 accepted on the block. -/
def armed (draws : List Byte) : State := run [.command 1 0x00000002A0000113] (block draws)

/-- The same, its START performed. -/
def started (draws : List Byte) : State := run [.eng 0] (armed draws)

/-- The same, its address byte queued, then sent and acknowledged. -/
def addressed : State := run [.seq 0, .eng 0] (started [0, 0, 0])

/-- Requester 1 has written one byte without STOP (the example of R127): the controller is in WriteSuspended. -/
def suspendedWrite : State :=
  run [.command 1 0x00000001A0000110, .eng 0, .seq 0, .eng 0, .seq 0, .eng 0, .seq 0, .orch 0] (block [0, 0])

/-- Requester 1 has read two bytes without STOP (the example of R128): the controller is in ReadSuspended. -/
def suspendedRead : State :=
  run [.command 1 0x00020000A0000111, .eng 0, .seq 0, .eng 0, .eng 0, .seq 0, .eng 0, .seq 0, .eng 0, .orch 0]
    (block [0, 0x11, 0x22, 0x33])

/-- A read of two bytes with STOP, its first byte received. -/
def receiving : State :=
  run [.command 1 0x00020000A0000113, .eng 0, .seq 0, .eng 0, .eng 0] (block [0, 0x11, 0x22])

/-! ## Steps: the examples of the spec's rules -/

/-- R127 (with 0x10 for its byte): trace, end state, cursor, response. -/
theorem test_xfer : (ctrl0 suspendedWrite).trace = [.s, .w 0xA0 .ack, .w 0x10 .ack] ∧
    (ctrl0 suspendedWrite).record.opState = .writeSuspended ∧ (ctrl0 suspendedWrite).record.cursor = 1 ∧
    (req1 suspendedWrite).responses = [0] := by decide

/-- R128: the read-ahead byte is traced and not stored. -/
theorem test_xferS : (ctrl0 suspendedRead).trace = [.s, .w 0xA1 .ack, .r 0x11 .ack, .r 0x22 .ack, .r 0x33 .ack] ∧
    (ctrl0 suspendedRead).record.opState = .readSuspended ∧
    suspendedRead.mem.read 0x30000 = 0x11 ∧ suspendedRead.mem.read 0x30001 = 0x22 := by decide

/-- R129: after the example of R127, a one-byte read with STOP. -/
def resumed : State :=
  run [.command 1 0x00010000A0000112, .eng 0, .seq 0, .eng 0, .eng 0, .seq 0, .eng 0, .orch 0]
    { suspendedWrite with draws := [0, 0x7E] }

theorem test_xferP : (ctrl0 resumed).trace =
      [.s, .w 0xA0 .ack, .w 0x10 .ack, .sr, .w 0xA1 .ack, .r 0x7E .nack, .p] ∧
    resumed.mem.read 0x30000 = 0x7E ∧ (ctrl0 resumed).record.opState = .idle ∧
    (ctrl0 resumed).record.cursor = 1 := by decide

/-- R130: a two-byte write with START and STOP. -/
def written : State := run [.seq 0, .eng 0, .seq 0, .eng 0, .seq 0, .eng 0, .orch 0] addressed

theorem test_xferSP : (ctrl0 written).trace = [.s, .w 0xA0 .ack, .w 0x10 .ack, .w 0x20 .ack, .p] ∧
    (ctrl0 written).record.opState = .idle ∧ (ctrl0 written).record.cursor = 2 ∧
    (req1 written).responses = [0] := by decide

/-- R131: 0 means the default; the value otherwise. -/
theorem test_setto :
    (after (exec (.setto 1 0 0) (block []))).map (fun t => (ctrl0 t).record.timeoutUs) = some 25000 ∧
    (after (exec (.setto 1 0 1000) (block []))).map (fun t => (ctrl0 t).record.timeoutUs) = some 1000 := by decide

/-- R132, and R221's fallback: 400000 Hz at 15 MHz has no table entry, D = 9. -/
theorem test_setfreq :
    (after (exec (.setfreq 1 0 100000) (block []))).map (fun t => ((ctrl0 t).timing.divLo, (ctrl0 t).timing.fastEn)) =
      some (0x25, false) ∧
    (after (exec (.setfreq 1 0 400000) (block []))).map (fun t => ((ctrl0 t).timing.divLo, (ctrl0 t).trace)) =
      some (9, [.log .timingFallback]) := by decide

/-- R133, R221: 48 MHz gives D = 120 at 100 kHz; a clock of 1 gives D = 0, BusFrequencyInvalid, fields kept. -/
theorem test_clkchg :
    (after (exec (.clkchg 1 48000000) (block []))).map (fun t => ((ctrl0 t).timing.divLo, (req1 t).responses)) =
      some (0x78, [0]) ∧
    (after (exec (.clkchg 1 1) (block []))).map (fun t => ((ctrl0 t).timing.divLo, t.clockHz, (req1 t).responses)) =
      some (0x25, 1, [2]) := by decide

/-- R134: DATA 1 after the example of R127, 0 after that of R130. -/
theorem test_busbusy :
    (after (exec (.busbusy 1 0) suspendedWrite)).map (fun t => (req1 t).responses) = some [0, 0x0000000100000000] ∧
    (after (exec (.busbusy 1 0) written)).map (fun t => (req1 t).responses) = some [0, 0] := by decide

/-- R135: an idle bus answers DATA 3; drawn levels otherwise, SDA in bit 0. -/
theorem test_lines :
    (after (exec (.lines 1 0) (block []))).map (fun t => (req1 t).responses) = some [0x0000000300000000] ∧
    (after (exec (.lines 1 0) (freeLines [2]))).map (fun t => (req1 t).responses) = some [0x0000000200000000] := by
  decide

/-- R136: the cursor after the example of R130 is 2. STATUS after reset has `enabled` only (10_state.md R48). -/
theorem test_rdreg :
    (after (exec (.rdreg 1 0 1) written)).map (fun t => (req1 t).responses) = some [0, 0x0000000200000000] ∧
    (after (exec (.rdreg 1 0 0) (block []))).map (fun t => (req1 t).responses) = some [0x0000800000000000] := by decide

/-- R137: an ABORT of a suspended controller queues the STOP; the trace gains P, DATA 0, Idle. -/
def aborted : State := run [.command 1 0x0000000000000140, .eng 0, .orch 0] suspendedWrite

theorem test_abort : (ctrl0 aborted).trace = [.s, .w 0xA0 .ack, .w 0x10 .ack, .p] ∧
    (ctrl0 aborted).record.opState = .idle ∧ (req1 aborted).responses = [0, 0] := by decide

/-- R138: RESET on an idle bus; the window of a reset whose lines never read high ends with DATA 2. -/
theorem test_reset :
    (req1 (run [.command 1 0x0000000000000141, .orch 0] (block [1]))).responses = [0] ∧
    (req1 (run [.command 1 0x0000000000000141, .orch 0, .windowExpiry 0] (freeLines [1, 2]))).responses =
      [0x0000000200000000] := by decide

/-- R139: after NoAddressMatch RECOVER runs only the abort. -/
def refusedAddress : State :=
  run [.seq 0, .eng 0, .seq 0, .orch 0, .eng 0, .orch 0] { (started []) with draws := [1] }

theorem test_recover : (ctrl0 refusedAddress).record.errorCode = .noAddressMatch ∧
    (req1 (run [.command 1 0x0000000000000142, .orch 0] refusedAddress)).responses = [4, 0] := by decide

/-! ## Witnesses: states and operands that meet the hypotheses of each statement -/

theorem ready_block (draws : List Byte) : (block draws).Ready 1 (req1 (block draws)) := ⟨rfl, rfl⟩
theorem ready_suspendedWrite : suspendedWrite.Ready 1 (req1 suspendedWrite) := ⟨by decide, by decide⟩
theorem ready_suspendedRead : suspendedRead.Ready 1 (req1 suspendedRead) := ⟨by decide, by decide⟩
theorem port_block (draws : List Byte) : (block draws).PortOn 0 port0 (ctrl0 (block draws)) := ⟨rfl, rfl⟩

theorem lengths_block (draws : List Byte) (n m : Half) (h : ¬(n = 0 ∧ m = 0)) (hn : n.toNat ≤ 16) (hm : m.toNat ≤ 16) :
    (block draws).LengthsOk n m := ⟨h, hn, hm⟩

theorem witness_DecodeOfEncode : (Instr.rdreg 1 0 8).wellFormed = true := by decide

theorem witness_EncodeOfDecode : decodeWord 0x0000000800000132 = .ok (.rdreg 1 0 8) := by rfl

theorem witness_AcceptanceAndAnswer :
    State.reset.req? 1 = some (req1 State.reset) ∧ State.reset.req? 2 = some (req1 State.reset) := by decide

theorem witness_StepRunsDecodedCommand :
    (decodeWord 0x00000002A0000113 = .ok (.xferSP 1 0 0xA0 2 0) ∧ reqField 0x00000002A0000113 = 1) ∧
    decodeTableWord 64 0x0000000000000130 = some (.busbusy 1 0) := ⟨⟨rfl, by decide⟩, by decide⟩

/-- One word for each clause of R84 to R86, sent by requester 1: unknown opcodes on both sides of a row, each reserved
field, the controller index NUM_CTRL, and the register indices 8 (legal) and 9. -/
theorem witness_IllegalCommandsAnswered : (block []).Ready 1 (req1 (block [])) ∧
    (reqField 0x0000000000000114 = 1 ∧ reqField 0x0000000900000132 = 1 ∧ (block []).numCtrl = 1) ∧
    IllegalWord 1 0x0000000000000114 ∧ IllegalWord 1 0x000000000000011F ∧ IllegalWord 1 0x0000000001000120 ∧
    IllegalWord 1 0x0000000000010122 ∧ IllegalWord 1 0x0000000100000130 ∧ IllegalWord 1 0x0000000000010130 ∧
    IllegalWord 1 0x0000000900000132 ∧ ¬IllegalWord 1 0x0000000800000132 :=
  ⟨ready_block [], by decide, .inl (by decide), .inl (by decide), .inr (.inl (by decide)),
    .inr (.inr (.inl (by decide))), .inr (.inr (.inr (.inl (by decide)))),
    .inr (.inr (.inr (.inr (.inl (by decide))))), .inr (.inr (.inr (.inr (.inr (by decide))))),
    by rintro (h | h | h | h | h | h) <;> revert h <;> decide⟩

/-- REQ 0, NUM_REQ + 1, and another requester's; a second command. -/
theorem witness_RefusedCommands :
    (reqField 0x0000000000000030 = 0 ∧ State.reset.numReq < (reqField 0x0000000000000330).toNat ∧
      reqField 0x0000000000000130 ≠ 2) ∧
    (armed []).req? 1 = some (req1 (armed [])) ∧ (req1 (armed [])).outstanding = true ∧
    reqField 0x0000000000000130 = 1 := by decide

/-- Ports 0 and 1 of one, lengths 16 and 17 of 16. -/
theorem witness_ChecksBeforeOwnership : (block []).Ready 1 (req1 (block [])) ∧
    (block []).params.numPorts ≤ (1 : Byte).toNat ∧ (0 : Byte).toNat < (block []).params.numPorts ∧
    (block []).params.bufBytes < (17 : Half).toNat ∧ ¬(block []).params.bufBytes < (16 : Half).toNat :=
  ⟨ready_block [], by decide⟩

/-- Requester 2 finds the controller of `armed` owned; requester 1 finds that of `block` free, with 16 bytes each way. -/
theorem witness_OwnershipCheckAndSet :
    ((armed []).Ready 2 (req1 State.reset) ∧ (armed []).PortOn 0 port0 (ctrl0 (armed [])) ∧
      (armed []).LengthsOk 1 0 ∧ (ctrl0 (armed [])).record.owner ≠ 0) ∧
    (block []).Ready 1 (req1 (block [])) ∧ (block []).PortOn 0 port0 (ctrl0 (block [])) ∧
    (block []).LengthsOk 16 16 ∧ (ctrl0 (block [])).record.owner = 0 :=
  ⟨⟨⟨by decide, by decide⟩, ⟨by decide, by decide⟩, ⟨by decide, by decide, by decide⟩, by decide⟩,
    ready_block [], port_block [], ⟨by decide, by decide, by decide⟩, by decide⟩

theorem witness_TransferArmsFromIdle : (block []).LengthsOk 1 0 ∧ (block []).LengthsOk 0 16 ∧
    (ctrl0 (block [])).record.owner = 0 ∧ (ctrl0 (block [])).record.opState = .idle ∧
    (ctrl0 (block [])).bus.enabled = true ∧ (ctrl0 (block [])).bus.busy = false ∧
    ((block []).drawLines false).1 = { sda := true, scl := true } :=
  ⟨⟨by decide, by decide, by decide⟩, ⟨by decide, by decide, by decide⟩, by decide, by decide, by decide, by decide,
    by decide⟩

/-- The bus is busy (the STOP of the transfer before is not performed yet, R300); or SDA reads low. -/
theorem witness_BusyBusIsRecoveredFirst :
    let late := run [.seq 0, .eng 0, .seq 0, .eng 0, .seq 0, .orch 0] addressed
    (late.Ready 1 (req1 late) ∧ late.PortOn 0 port0 (ctrl0 late) ∧ (ctrl0 late).record.owner = 0 ∧
      (ctrl0 late).record.opState = .idle ∧ (ctrl0 late).bus.enabled = true ∧ (ctrl0 late).bus.busy = true) ∧
    ((freeLines [2]).Ready 1 (req1 (freeLines [2])) ∧ (freeLines [2]).PortOn 0 port0 (ctrl0 (freeLines [2])) ∧
      (freeLines [2]).LengthsOk 1 1 ∧ (ctrl0 (freeLines [2])).bus.enabled = true ∧
      ((freeLines [2]).drawLines false).1 ≠ { sda := true, scl := true }) :=
  ⟨⟨⟨by decide, by decide⟩, ⟨by decide, by decide⟩, by decide⟩, ⟨by decide, by decide⟩, ⟨by decide, by decide⟩,
    ⟨by decide, by decide, by decide⟩, by decide⟩

theorem witness_TransferResumesSuspendedWrite : suspendedWrite.Ready 1 (req1 suspendedWrite) ∧
    suspendedWrite.PortOn 0 port0 (ctrl0 suspendedWrite) ∧ suspendedWrite.LengthsOk 0 1 ∧
    suspendedWrite.LengthsOk 1 0 ∧ (ctrl0 suspendedWrite).record.owner = 0 ∧
    (ctrl0 suspendedWrite).record.opState = .writeSuspended ∧ (ctrl0 suspendedWrite).bus.enabled = true :=
  ⟨ready_suspendedWrite, ⟨by decide, by decide⟩, ⟨by decide, by decide, by decide⟩,
    ⟨by decide, by decide, by decide⟩, by decide⟩

/-- Reads of 2 bytes (resumed), of 1 byte, and with a write of 1 byte (both rejected). -/
theorem witness_TransferResumesSuspendedRead : suspendedRead.Ready 1 (req1 suspendedRead) ∧
    suspendedRead.PortOn 0 port0 (ctrl0 suspendedRead) ∧ suspendedRead.LengthsOk 0 2 ∧ suspendedRead.LengthsOk 0 1 ∧
    suspendedRead.LengthsOk 1 2 ∧ (ctrl0 suspendedRead).record.owner = 0 ∧
    (ctrl0 suspendedRead).record.opState = .readSuspended ∧ (ctrl0 suspendedRead).bus.enabled = true :=
  ⟨ready_suspendedRead, ⟨by decide, by decide⟩, ⟨by decide, by decide, by decide⟩,
    ⟨by decide, by decide, by decide⟩, ⟨by decide, by decide, by decide⟩, by decide⟩

theorem witness_SettoWritesTimeout : (block []).Ready 1 (req1 (block [])) ∧
    (block []).PortOn 0 port0 (ctrl0 (block [])) ∧ (block []).params.numPorts ≤ (1 : Byte).toNat :=
  ⟨ready_block [], port_block [], by decide⟩

theorem witness_SetfreqProgramsController :
    (block []).Ready 1 (req1 (block [])) ∧ (block []).ctrl? (0 : Byte).toNat = some (ctrl0 (block [])) :=
  ⟨ready_block [], by decide⟩

theorem witness_ClkchgReprogramsAll : (block []).Ready 1 (req1 (block [])) := ready_block []

/-- A table entry for a fast target; the divider at 1, at 0xFFFF and one over it. -/
theorem witness_ProgramTimingRule :
    (100000 < (100001 : Word).toNat ∧
      [({ clock := 4, target := 100001, tLow := 1, tHigh := 2 } : CalEntry)].find?
        (fun e => decide (e.clock = 4 ∧ e.target = 100001)) = some { clock := 4, target := 100001, tLow := 1, tHigh := 2 }) ∧
    ((400000 : Word).toNat / (4 * (100000 : Word).toNat) = 1 ∧ (100000 : Word).toNat ≤ 100000) ∧
    (262143 : Word).toNat / (4 * (1 : Word).toNat) = 0xFFFF ∧ 0xFFFF < (262144 : Word).toNat / (4 * (1 : Word).toNat) ∧
    (3 : Word).toNat / (4 * (1 : Word).toNat) = 0 := by decide

theorem witness_BusAndLineQueries : (block []).Ready 1 (req1 (block [])) ∧
    (block []).ctrl? (0 : Byte).toNat = some (ctrl0 (block [])) ∧ (block []).PortOn 0 port0 (ctrl0 (block [])) ∧
    (block []).params.linesModel = .idleWhenNotBusy ∧ (ctrl0 (block [])).bus.busy = false ∧
    ((freeLines [2]).PortOn 0 port0 (ctrl0 (freeLines [2])) ∧ (freeLines [2]).params.linesModel = .free ∧
      (freeLines [2]).draws = [2]) ∧
    (ctrl0 suspendedWrite).bus.busy = true ∧ (block []).params.numPorts ≤ (1 : Byte).toNat :=
  ⟨ready_block [], by decide, port_block [], by decide, by decide, ⟨⟨by decide, by decide⟩, by decide⟩, by decide⟩

/-- Idle, active (read by requester 2), suspended; the register indices 8 and 9 are tested in `test_decode_register_9`. -/
theorem witness_RdregAnswersRegister :
    ((block []).Ready 1 (req1 (block [])) ∧ (block []).ctrl? (0 : Byte).toNat = some (ctrl0 (block [])) ∧
      (ctrl0 (block [])).record.opState = .idle) ∧
    ((armed []).Ready 2 (req1 State.reset) ∧ (armed []).ctrl? (0 : Byte).toNat = some (ctrl0 (armed [])) ∧
      (ctrl0 (armed [])).record.opState = .start) ∧ 9 ≤ (9 : Word).toNat :=
  ⟨⟨ready_block [], by decide⟩, ⟨⟨by decide, by decide⟩, by decide⟩, by decide⟩

theorem witness_RecoveryCommandsOccupied : (armed []).Ready 2 (req1 State.reset) ∧
    (armed []).ctrl? (0 : Byte).toNat = some (ctrl0 (armed [])) ∧ (ctrl0 (armed [])).record.owner ≠ 0 :=
  ⟨⟨by decide, by decide⟩, by decide⟩

theorem witness_AbortAndRecoverStart : suspendedWrite.Ready 1 (req1 suspendedWrite) ∧
    suspendedWrite.ctrl? (0 : Byte).toNat = some (ctrl0 suspendedWrite) ∧ (ctrl0 suspendedWrite).record.owner = 0 ∧
    (ctrl0 suspendedWrite).bus.enabled = true := ⟨ready_suspendedWrite, by decide⟩

theorem witness_ResetStart : suspendedWrite.Ready 1 (req1 suspendedWrite) ∧
    suspendedWrite.ctrl? (0 : Byte).toNat = some (ctrl0 suspendedWrite) ∧ (ctrl0 suspendedWrite).record.owner = 0 :=
  ⟨ready_suspendedWrite, by decide⟩

/-- ABORT of a suspended controller: its STOP queued, then performed. -/
def aborting : State := run [.command 1 0x0000000000000140, .eng 0] suspendedWrite

theorem witness_AbortCommandEnds : aborting.ctrl? 0 = some (ctrl0 aborting) ∧
    (ctrl0 aborting).orch.phase = .cmdRecover ∧ (ctrl0 aborting).orch.cmd = .abort ∧
    (ctrl0 aborting).orch.recPhase = .abortWait ∧ BusAction.stop ∉ (ctrl0 aborting).bus.eq ∧
    aborting.params.timeoutModel = .anyTime := by decide

/-- RESET polling: both lines high, or SDA low. -/
def polling (draws : List Byte) : State := run [.command 1 0x0000000000000141] (freeLines (1 :: draws))

/-- RECOVER (after Ok) polling its reset. -/
def recovering : State := run [.command 1 0x0000000000000142, .orch 0] (block [1])

theorem witness_ResetPollEndsCommand :
    ((polling [3]).ctrl? 0 = some (ctrl0 (polling [3])) ∧ (ctrl0 (polling [3])).orch.phase = .cmdRecover ∧
      (ctrl0 (polling [3])).orch.cmd = .reset ∧ (ctrl0 (polling [3])).orch.recPhase = .resetWait ∧
      ((polling [3]).drawLines (ctrl0 (polling [3])).bus.busy).1 = { sda := true, scl := true }) ∧
    ((polling [2]).drawLines (ctrl0 (polling [2])).bus.busy).1 ≠ { sda := true, scl := true } ∧
    (polling [2]).params.timeoutModel = .anyTime ∧ (ctrl0 recovering).orch.cmd = .recover ∧
    (ctrl0 recovering).orch.recPhase = .resetWait ∧ (ctrl0 recovering).orch.phase = .cmdRecover := by decide

/-- RECOVER in its abort: after Ok, and after NoAddressMatch. Each may end by the poll or by the window, under STUCK_ONLY
too, the engine having nothing to do. A reset whose window ended leaves `lines_not_idle`. -/
theorem witness_RecoverAbortThenReset :
    let a := run [.command 1 0x0000000000000142] (block [1])
    let b := run [.command 1 0x0000000000000142] refusedAddress
    let low := run [.command 1 0x0000000000000141, .windowExpiry 0] (freeLines [1])
    (a.ctrl? 0 = some (ctrl0 a) ∧ (ctrl0 a).orch.recPhase = .abortWait ∧ (ctrl0 a).orch.cmd ≠ .abort ∧
      BusAction.stop ∉ (ctrl0 a).bus.eq ∧ a.params.timeoutModel = .anyTime ∧ (ctrl0 a).engEnabled = false ∧
      (ctrl0 a).orch.recPrior ≠ .noAddressMatch) ∧
    (b.ctrl? 0 = some (ctrl0 b) ∧ (ctrl0 b).orch.recPhase = .abortWait ∧ (ctrl0 b).orch.cmd ≠ .abort ∧
      BusAction.stop ∉ (ctrl0 b).bus.eq ∧ b.params.timeoutModel = .anyTime ∧ (ctrl0 b).engEnabled = false ∧
      (ctrl0 b).orch.recPrior = .noAddressMatch ∧ (ctrl0 b).orch.phase = .cmdRecover ∧
      (ctrl0 b).orch.cmd = .recover) ∧
    (ctrl0 low).orch.linesNotIdle = true := by decide

/-- The write of `addressed` complete; the address of `started` refused and its fault row taken. -/
theorem witness_CompletionAnswersOrRecovers :
    let a := run [.seq 0, .eng 0, .seq 0, .eng 0, .seq 0] addressed
    let b := run [.seq 0, .eng 0, .seq 0] { (started []) with draws := [1] }
    (a.ctrl? 0 = some (ctrl0 a) ∧ (ctrl0 a).orch.recPhase = .none ∧ (ctrl0 a).orch.phase = .wait ∧
      (ctrl0 a).done = true ∧ (ctrl0 a).bus.enabled = true ∧ (ctrl0 a).record.errorCode = .ok) ∧
    (b.ctrl? 0 = some (ctrl0 b) ∧ (ctrl0 b).orch.recPhase = .none ∧ (ctrl0 b).orch.phase = .wait ∧
      (ctrl0 b).done = true ∧ (ctrl0 b).bus.enabled = true ∧ (ctrl0 b).record.errorCode = .noAddressMatch) := by decide

/-- `armed` with its queue emptied: a transfer awaited with nothing able to step. -/
def silent : State :=
  let k := ctrl0 (armed [])
  { armed [] with ctrls := [{ k with bus := { k.bus with eq := [] } }] }

/-- Not awaited; awaited under ANY_TIME; awaited under STUCK_ONLY with the engine able to step, and with nothing able. -/
theorem witness_TimeoutStartsRecovery :
    (ctrl0 (block [])).orch.phase ≠ .wait ∧
    ((armed []).ctrl? 0 = some (ctrl0 (armed [])) ∧ (ctrl0 (armed [])).orch.phase = .wait ∧
      (ctrl0 (armed [])).done = false ∧ (ctrl0 (armed [])).bus.enabled = true ∧
      (armed []).params.timeoutModel = .anyTime ∧ (ctrl0 (armed [])).engEnabled = true) ∧
    (ctrl0 silent).orch.phase = .wait ∧ (ctrl0 silent).done = false ∧ (ctrl0 silent).seqEnabled = false ∧
    (ctrl0 silent).engEnabled = false := by decide

/-- A transfer timed out, its abort's window ended: the reset of its recovery polls. -/
def failing : State := run [.timeout 0, .windowExpiry 0] (armed [1])

/-- The address of `started` refused: the abort of its recovery, its STOP queued, then performed. -/
def refusing : State := run [.seq 0, .eng 0, .seq 0, .orch 0] { (started []) with draws := [1] }
def refusalStopped : State := run [.eng 0] refusing

/-- The abort after NoAddressMatch, by poll and by window; the reset after a timeout, by poll and by window; and a reset
whose lines read low. -/
theorem witness_PostRecoveryAnswersError :
    let x : TransferArgs := { fs := true, fp := true, tx := 2, rx := 0, addr := 0xA0 }
    let low := { failing with params := { Params.s0 with linesModel := .free }, draws := [2] }
    (refusalStopped.ctrl? 0 = some (ctrl0 refusalStopped) ∧ (ctrl0 refusalStopped).orch.phase = .postRecover ∧
      (ctrl0 refusalStopped).orch.cmd = .transfer x ∧ (ctrl0 refusalStopped).orch.recPhase = .abortWait ∧
      (ctrl0 refusalStopped).orch.recPrior = .noAddressMatch ∧ BusAction.stop ∉ (ctrl0 refusalStopped).bus.eq) ∧
    (refusing.ctrl? 0 = some (ctrl0 refusing) ∧ (ctrl0 refusing).orch.phase = .postRecover ∧
      (ctrl0 refusing).orch.cmd = .transfer x ∧ (ctrl0 refusing).orch.recPhase = .abortWait ∧
      (ctrl0 refusing).orch.recPrior = .noAddressMatch ∧ (ctrl0 refusing).bus.eq = [.stop] ∧
      refusing.params.timeoutModel = .anyTime) ∧
    (failing.ctrl? 0 = some (ctrl0 failing) ∧ (ctrl0 failing).orch.phase = .postRecover ∧
      (ctrl0 failing).orch.cmd = .transfer x ∧ (ctrl0 failing).orch.recPhase = .resetWait ∧
      (failing.drawLines (ctrl0 failing).bus.busy).1 = { sda := true, scl := true } ∧
      failing.params.timeoutModel = .anyTime) ∧
    (low.drawLines (ctrl0 low).bus.busy).1 ≠ { sda := true, scl := true } := by decide

/-- R124, R125 on them: the answer is NoAddressMatch (4), and the trace logs the window. -/
theorem test_refused_address_answers :
    (run [.orch 0] refusalStopped).responsesOf 1 = [4] ∧ (run [.windowExpiry 0] refusing).responsesOf 1 = [4] ∧
    (ctrl0 (run [.windowExpiry 0] refusing)).trace = [.s, .w 0xA0 .nack, .log .abortTimeout] := by decide

/-- A transfer that found SDA low: the reset of the recovery before it polls, and now reads both lines high. -/
def preparing : State := run [.command 1 0x00000002A0000113, .orch 0] (freeLines [2, 1, 3])

/-- A transfer that found SDA low after one that ended NoAddressMatch: the abort of the recovery before it. -/
def preparingAfterRefusal : State :=
  run [.command 1 0x00000002A0000113]
    { (run [.orch 0] refusalStopped) with params := { Params.s0 with linesModel := .free }, draws := [2] }

/-- The abort after NoAddressMatch, by poll and by window; the reset, by poll and by window; and one whose lines read
low. -/
theorem witness_PreRecoveryArms :
    let x : TransferArgs := { fs := true, fp := true, tx := 2, rx := 0, addr := 0xA0 }
    let a := preparingAfterRefusal
    let low := { preparing with draws := [2] }
    (a.ctrl? 0 = some (ctrl0 a) ∧ (ctrl0 a).orch.phase = .preRecover ∧ (ctrl0 a).orch.cmd = .transfer x ∧
      (ctrl0 a).record.opState = .idle ∧ (ctrl0 a).orch.recPhase = .abortWait ∧
      (ctrl0 a).orch.recPrior = .noAddressMatch ∧ (ctrl0 a).bus.enabled = true ∧ BusAction.stop ∉ (ctrl0 a).bus.eq ∧
      a.params.timeoutModel = .anyTime) ∧
    (preparing.ctrl? 0 = some (ctrl0 preparing) ∧ (ctrl0 preparing).orch.phase = .preRecover ∧
      (ctrl0 preparing).orch.cmd = .transfer x ∧ (ctrl0 preparing).record.opState = .idle ∧
      (ctrl0 preparing).orch.recPhase = .resetWait ∧
      (preparing.drawLines (ctrl0 preparing).bus.busy).1 = { sda := true, scl := true } ∧
      preparing.params.timeoutModel = .anyTime) ∧
    (low.drawLines (ctrl0 low).bus.busy).1 ≠ { sda := true, scl := true } := by decide

/-- R236, R118 on it: no reset, the START queued and the transfer awaited. -/
theorem test_arms_after_refusal :
    let t := ctrl0 (run [.orch 0] preparingAfterRefusal)
    t.orch.phase = .wait ∧ t.record.opState = .start ∧ t.bus.eq = [.start] ∧ t.bus.enabled = true ∧
      t.record.errorCode = .ok := by decide

/-- Disabled (a reset polls), masked (Idle), and nothing pending (`armed`). -/
theorem witness_AgentsWithoutStep :
    ((polling [3]).ctrl? 0 = some (ctrl0 (polling [3])) ∧ (ctrl0 (polling [3])).bus.enabled = false) ∧
    (ctrl0 (block [])).ie = false ∧ (ctrl0 (block [])).record.opState = .idle ∧
    ((ctrl0 (block [])).bus.eq = [] ∧ (ctrl0 (block [])).bus.rxPending = false) ∧
    ((ctrl0 (armed [])).bus.busErr = false ∧ (ctrl0 (armed [])).bus.nackFlag = false ∧
      (ctrl0 (armed [])).bus.rdy = false) := by decide

theorem witness_SequencerSendsAddress : (started []).ctrl? 0 = some (ctrl0 (started [])) ∧
    (ctrl0 (started [])).SeqReady .start :=
  ⟨by decide, by decide, by decide, by decide, by decide, by decide, by decide⟩

theorem witness_SequencerWritesByte : addressed.ctrl? 0 = some (ctrl0 addressed) ∧ (ctrl0 addressed).SeqReady .write ∧
    (ctrl0 addressed).record.cursor.toNat < (ctrl0 addressed).record.txLen.toNat ∧
    addressed.req? (ctrl0 addressed).record.owner = some (req1 addressed) ∧
    (ctrl0 addressed).record.cursor.toNat < addressed.params.bufBytes :=
  ⟨by decide, ⟨by decide, by decide, by decide, by decide, by decide, by decide⟩, by decide⟩

theorem witness_SequencerEndsWrite :
    let s := run [.seq 0, .eng 0, .seq 0, .eng 0] addressed
    s.ctrl? 0 = some (ctrl0 s) ∧ (ctrl0 s).SeqReady .write ∧ (ctrl0 s).record.cursor = (ctrl0 s).record.txLen ∧
      (ctrl0 s).record.rxLen = 0 :=
  ⟨by decide, ⟨by decide, by decide, by decide, by decide, by decide, by decide⟩, by decide⟩

/-- XFER.SP of one byte out and one in, its write phase over. -/
theorem witness_SequencerTurnsToRead :
    let s := run [.command 1 0x00010001A0000113, .eng 0, .seq 0, .eng 0, .seq 0, .eng 0] (block [0, 0])
    s.ctrl? 0 = some (ctrl0 s) ∧ (ctrl0 s).SeqReady .write ∧ (ctrl0 s).record.cursor = (ctrl0 s).record.txLen ∧
      (ctrl0 s).record.rxLen ≠ 0 :=
  ⟨by decide, ⟨by decide, by decide, by decide, by decide, by decide, by decide⟩, by decide⟩

/-- The first of two bytes, then the final byte, with STOP. -/
theorem witness_SequencerReadsByte :
    let last := run [.seq 0, .eng 0] receiving
    (receiving.ctrl? 0 = some (ctrl0 receiving) ∧ (ctrl0 receiving).SeqReady .read ∧
      receiving.req? (ctrl0 receiving).record.owner = some (req1 receiving) ∧
      (ctrl0 receiving).record.cursor.toNat + 1 < (ctrl0 receiving).record.rxLen.toNat ∧
      (ctrl0 receiving).record.cursor.toNat < receiving.params.bufBytes ∧
      BusAction.stop ∉ (ctrl0 receiving).bus.eq) ∧
    (last.ctrl? 0 = some (ctrl0 last) ∧ (ctrl0 last).SeqReady .read ∧
      (ctrl0 last).record.cursor.toNat + 1 = (ctrl0 last).record.rxLen.toNat ∧
      (ctrl0 last).record.flagStop = true ∧ BusAction.stop ∉ (ctrl0 last).bus.eq) :=
  ⟨⟨by decide, ⟨by decide, by decide, by decide, by decide, by decide, by decide⟩, by decide⟩,
    ⟨by decide, ⟨by decide, by decide, by decide, by decide, by decide, by decide⟩, by decide⟩⟩

/-- The final byte of a read without STOP. -/
theorem witness_SequencerReadsByte_suspending :
    let s := run [.command 1 0x00020000A0000111, .eng 0, .seq 0, .eng 0, .eng 0, .seq 0, .eng 0] (block [0, 0x11, 0x22])
    s.ctrl? 0 = some (ctrl0 s) ∧ (ctrl0 s).SeqReady .read ∧
      (ctrl0 s).record.cursor.toNat + 1 = (ctrl0 s).record.rxLen.toNat ∧ (ctrl0 s).record.flagStop = false :=
  ⟨by decide, ⟨by decide, by decide, by decide, by decide, by decide, by decide⟩, by decide⟩

theorem witness_SequencerTakesFault :
    let a := run [.busError 0] (armed [])
    let b := run [.seq 0, .eng 0] { (started []) with draws := [1] }
    (a.ctrl? 0 = some (ctrl0 a) ∧ (ctrl0 a).bus.enabled = true ∧ (ctrl0 a).ie = true ∧
      (ctrl0 a).record.opState = .start ∧ (ctrl0 a).bus.busErr = true) ∧
    (b.ctrl? 0 = some (ctrl0 b) ∧ (ctrl0 b).bus.enabled = true ∧ (ctrl0 b).ie = true ∧
      (ctrl0 b).record.opState = .write ∧ (ctrl0 b).bus.busErr = false ∧ (ctrl0 b).bus.nackFlag = true) := by decide

theorem witness_EngineStartStopReceive :
    let r := run [.command 1 0x00020000A0000113, .eng 0, .seq 0, .eng 0] (block [0, 0x11])
    let p := run [.command 1 0x0000000000000140] suspendedWrite
    ((armed []).ctrl? 0 = some (ctrl0 (armed [])) ∧ (ctrl0 (armed [])).EngReady ∧
      (ctrl0 (armed [])).bus.eq = [.start]) ∧
    (p.ctrl? 0 = some (ctrl0 p) ∧ (ctrl0 p).EngReady ∧ (ctrl0 p).bus.eq = [.stop]) ∧
    (r.ctrl? 0 = some (ctrl0 r) ∧ (ctrl0 r).EngReady ∧ (ctrl0 r).bus.eq = [] ∧ (ctrl0 r).bus.rxPending = true) :=
  ⟨⟨by decide, ⟨by decide, by decide, by decide⟩, by decide⟩, ⟨by decide, ⟨by decide, by decide, by decide⟩, by decide⟩,
    ⟨by decide, ⟨by decide, by decide, by decide⟩, by decide⟩⟩

/-- A write address to be acknowledged or refused; a read address to be acknowledged. -/
theorem witness_EngineSendsByte :
    let a := run [.seq 0] (started [0])
    let b := run [.seq 0] (started [1])
    let c := run [.command 1 0x00020000A0000113, .eng 0, .seq 0] (block [0])
    (a.ctrl? 0 = some (ctrl0 a) ∧ (ctrl0 a).EngReady ∧ (ctrl0 a).bus.eq = [.send 0xA0] ∧
      a.draw.1.getLsbD 0 = false ∧ (0xA0 : Byte).getLsbD 0 = false) ∧
    (b.ctrl? 0 = some (ctrl0 b) ∧ (ctrl0 b).EngReady ∧ b.draw.1.getLsbD 0 = true) ∧
    (c.ctrl? 0 = some (ctrl0 c) ∧ (ctrl0 c).EngReady ∧ (ctrl0 c).bus.eq = [.send 0xA1] ∧
      c.draw.1.getLsbD 0 = false ∧ (ctrl0 c).bus.afterStart = true ∧ (0xA1 : Byte).getLsbD 0 = true) :=
  ⟨⟨by decide, ⟨by decide, by decide, by decide⟩, by decide⟩, ⟨by decide, ⟨by decide, by decide, by decide⟩, by decide⟩,
    ⟨by decide, ⟨by decide, by decide, by decide⟩, by decide⟩⟩

theorem witness_EnvRaisesFlags :
    (block []).ctrl? 0 = some (ctrl0 (block [])) ∧ (ctrl0 (block [])).bus.enabled = true := by decide

theorem witness_BufferMemory : Memory.wf (block []).mem = true ∧ 65535 < 2 ^ 16 := by decide

/-- Index 0 and index 15 of 16 are the requester's own, index 16 is not; `armed` has a command outstanding. -/
theorem witness_RequesterBufferAccess : (block []).params.bufBytes ≤ 65535 ∧
    ((block []).req? 1 = some (req1 (block [])) ∧ (req1 (block [])).outstanding = false ∧
      (0x20000 : Word).toNat = txAddr 1 0 ∧ (0x3000F : Word).toNat = rxAddr 1 15 ∧ 15 < (block []).params.bufBytes) ∧
    (¬∃ i, i < (block []).params.bufBytes ∧ ((0x20010 : Word).toNat = txAddr 1 i ∨ (0x20010 : Word).toNat = rxAddr 1 i)) ∧
    (armed []).req? 1 = some (req1 (armed [])) ∧ (req1 (armed [])).outstanding = true := by
  refine ⟨by decide, by decide, ?_, by decide, by decide⟩
  rintro ⟨i, hi, h⟩
  have hi' : i < 2 ^ 16 := Nat.lt_trans hi (by decide)
  rw [txAddr_eq 1 hi', rxAddr_eq 1 hi'] at h
  have hb : i < 16 := hi
  simp at h
  omega

/-- Both ways a byte of memory changes: the sequencer in Read, and a requester's own write. -/
theorem witness_StepWritesOneBufferByte :
    (after (step (receiving.withEvent (.seq 0)))).map (fun t => t.mem.read 0x30000) = some 0x11 ∧
    receiving.mem.read 0x30000 = 0 ∧
    (after (step ((block []).withEvent (.bufWrite 1 0x2000F 7)))).map (fun t => t.mem.read 0x2000F) = some 7 ∧
    (block []).mem.read 0x2000F = 0 := by decide

/-- Requesters 1 and 2 of two; a standard, a fast and an invalid target. -/
theorem witness_ResetState : (2 : Byte) ≠ 0 ∧ (2 : Byte).toNat ≤ Params.s0.numReq ∧
    Params.s0.targetHzReset[0]? = some 100000 ∧ programTiming [] 15000000 100000 = .divider 37 false ∧
    programTiming [] 4000000 400000 = .divider 2 true ∧ programTiming [] 15000000 0 = .invalid := by decide

theorem witness_ResetIsSound : Params.s0.wf = true ∧ Memory.wf (block []).mem = true := by decide

/-! ### States with the invariants -/

/-- The control invariant of a block with one controller, two requesters and one port, from checks on its parts. -/
theorem inv_of_parts {s : State} {k : Ctrl} {q q' : Requester} (hc : s.ctrls = [k]) (hr : s.reqs = [q, q'])
    (hs : k.Sound s.params.bufBytes) (h1 : k.record.owner = if q.outstanding then 1 else 0)
    (h2 : q'.outstanding = false) (hp : ∀ e ∈ s.params.portMap, e.ctrl < 1) (hm : Memory.wf s.mem = true) : s.Inv := by
  have at0 : ∀ c k', s.ctrl? c = some k' → c = 0 ∧ k' = k := by
    intro c k' h
    rw [State.ctrl?, hc] at h
    cases c with
    | zero => exact ⟨rfl, by simpa using h.symm⟩
    | succ c => simp at h
  have req : s.req? 1 = some q := by simp [State.req?, hr]
  refine ⟨?_, ?_, ?_, ?_, by simpa [State.numCtrl, hc] using hp, hm⟩
  · intro c k' h; rw [(at0 c k' h).2]; exact hs
  · intro c k' h ho
    rw [(at0 c k' h).2] at ho ⊢
    cases hq : q.outstanding
    · rw [hq] at h1; exact absurd h1 ho
    · rw [hq] at h1; rw [h1]; exact ⟨q, req, hq⟩
  · intro r q1 hr1 ho
    refine ⟨0, k, by rw [State.ctrl?, hc]; rfl, ?_⟩
    unfold State.req? at hr1
    split at hr1
    · cases hr1
    next hr0 =>
    rw [hr] at hr1
    have hpos : 0 < r.toNat := by
      rcases Nat.eq_zero_or_pos r.toNat with h | h
      · exact absurd (BitVec.eq_of_toNat_eq h) hr0
      · exact h
    match hi : r.toNat - 1, hr1 with
    | 0, hr1 =>
      have hq : q = q1 := by simpa using hr1
      rw [h1, hq, if_pos ho]
      exact BitVec.eq_of_toNat_eq (show 1 = r.toNat by omega)
    | 1, hr1 =>
      have hq : q' = q1 := by simpa using hr1
      rw [← hq, h2] at ho; cases ho
    | n + 2, hr1 => simp at hr1
  · intro c c' k1 k2 h h' _ _
    rw [(at0 c k1 h).1, (at0 c' k2 h').1]

theorem sound_block : (ctrl0 (block [])).Sound 16 := by
  constructor <;> first | decide | trivial
theorem inv_block : (block []).Inv :=
  inv_of_parts (k := ctrl0 (block [])) (q := req1 (block [])) (q' := req1 (block [])) rfl rfl sound_block rfl rfl
    (by decide) (by decide)
theorem busInv_block : (block []).BusInv := by
  refine ⟨fun c k h => ?_⟩
  cases c with
  | succ c => cases h
  | zero =>
    cases h
    exact ⟨fun _ => ⟨.inl rfl, rfl, rfl⟩, fun h => (by cases h), fun h => (by cases h), fun h => (by cases h),
      fun h => (by cases h), fun h => (by cases h)⟩

theorem witness_StepKeepsInv : (block []).Inv ∧ ∃ t, step ((block []).withEvent (.busError 0)) = .next t :=
  ⟨inv_block, _, rfl⟩
theorem witness_NoStepFaults : (block []).Inv := inv_block
theorem witness_StepKeepsBusInv : (block []).Inv ∧ (block []).BusInv := ⟨inv_block, busInv_block⟩

theorem sound_suspendedWrite : (ctrl0 suspendedWrite).Sound 16 := by
  constructor <;> first | decide | trivial
theorem sound_suspendedRead : (ctrl0 suspendedRead).Sound 16 := by
  constructor <;> first | decide | trivial

theorem inv_suspendedWrite : suspendedWrite.Inv :=
  inv_of_parts (k := ctrl0 suspendedWrite) (q := req1 suspendedWrite) (q' := req1 State.reset) (by decide) (by decide)
    sound_suspendedWrite (by decide) (by decide) (by decide) (by decide)
theorem inv_suspendedRead : suspendedRead.Inv :=
  inv_of_parts (k := ctrl0 suspendedRead) (q := req1 suspendedRead) (q' := req1 State.reset) (by decide) (by decide)
    sound_suspendedRead (by decide) (by decide) (by decide) (by decide)

/-- The bus invariant of a block with one controller. -/
theorem busInv_of_one {s : State} {k : Ctrl} (hc : s.ctrls = [k]) (hb : k.BusSound) : s.BusInv := by
  refine ⟨fun c k' h => ?_⟩
  rw [State.ctrl?, hc] at h
  cases c with
  | succ c => simp at h
  | zero => cases h; exact hb

/-- The bus side of a controller outside a recovery, with no fault flag. -/
theorem busSound_of_clear {k : Ctrl} (hr : k.orch.recPhase = .none) (hf : k.bus.Fits k.record.opState)
    (hn : k.bus.nackFlag = false) (hb : k.bus.busErr = false) : k.BusSound where
  fits _ := hf
  aborting h := by simp [hr] at h
  resetting h := by simp [hr] at h
  nacks h := by simp [hn] at h
  faulted h := by simp [hb] at h
  refusedByte h := by simp [hn] at h

theorem witness_QueueBoundAndSuspension :
    (suspendedWrite.Inv ∧ suspendedWrite.BusInv ∧ suspendedWrite.ctrl? 0 = some (ctrl0 suspendedWrite) ∧
      (ctrl0 suspendedWrite).orch.phase = .free ∧ (ctrl0 suspendedWrite).record.opState = .writeSuspended ∧
      (ctrl0 suspendedWrite).bus.busErr = false) ∧
    (suspendedRead.Inv ∧ suspendedRead.BusInv ∧ suspendedRead.ctrl? 0 = some (ctrl0 suspendedRead) ∧
      (ctrl0 suspendedRead).orch.phase = .free ∧ (ctrl0 suspendedRead).record.opState = .readSuspended ∧
      (ctrl0 suspendedRead).bus.busErr = false) :=
  ⟨⟨inv_suspendedWrite, busInv_of_one (k := ctrl0 suspendedWrite) (by decide) (busSound_of_clear (by decide)
      ⟨by decide, by decide, by decide, by decide, by decide⟩ (by decide) (by decide)), by decide⟩,
    ⟨inv_suspendedRead, busInv_of_one (k := ctrl0 suspendedRead) (by decide) (busSound_of_clear (by decide)
      ⟨by decide, by decide, by decide, by decide⟩ (by decide) (by decide)), by decide⟩⟩

/-- A recovery in progress whose next step leaves it in progress. -/
def failed : State := run [.timeout 0] (armed [1])

theorem sound_failed : (ctrl0 failed).Sound 16 := by
  constructor <;> first | decide | trivial
theorem inv_failed : failed.Inv :=
  inv_of_parts (k := ctrl0 failed) (q := req1 failed) (q' := req1 State.reset) (by decide) (by decide) sound_failed
    (by decide) (by decide) (by decide) (by decide)

theorem witness_RecoveryIsSilent : failed.Inv ∧ failed.ctrl? 0 = some (ctrl0 failed) ∧
    (ctrl0 failed).orch.recPhase ≠ .none ∧
    ((after (step (failed.withEvent (.windowExpiry 0)))).map (fun t => (ctrl0 t).orch.recPhase)) = some .resetWait :=
  ⟨inv_failed, by decide⟩

theorem witness_TraceOnlyGrows : (block []).ctrl? 0 = some (ctrl0 (block [])) ∧
    ∃ t, step ((block []).withEvent (.busError 0)) = .next t := ⟨by decide, _, rfl⟩

/-- Two controllers, a bus error on the first. -/
def twoControllers : State :=
  State.resetWith { Params.s0 with targetHzReset := [100000, 50000] } [] [] [] 0

theorem witness_ControllersAreIndependent : (1 : Nat) ≠ 0 ∧ (twoControllers.ctrl? 1).isSome = true ∧
    ∃ t, step (twoControllers.withEvent (.busError 0)) = .next t ∧ t.ctrl? 0 ≠ twoControllers.ctrl? 0 :=
  ⟨by decide, by decide, _, rfl, by decide⟩

/-- SETTO of requester 2 on the controller requester 1 owns, and SETFREQ, which logs its fallback. -/
theorem witness_OwnedControllerUndisturbed : (armed []).ctrl? 0 = some (ctrl0 (armed [])) ∧
    (ctrl0 (armed [])).record.owner ≠ 0 ∧
    (after (exec (.setto 2 0 7) (armed []))).map (fun t => (ctrl0 t).record.timeoutUs) = some 7 ∧
    (after (exec (.setfreq 2 0 400000) (armed []))).map (fun t => (ctrl0 t).trace) = some [.log .timingFallback] := by
  decide

/-- CLKCHG changes the clock and the timing fields, SETTO the timeout. -/
theorem witness_TimingAndTimeoutWriters :
    (after (step ((block []).withEvent (.command 1 0x02DC6C0000000122)))).map
      (fun t => (t.clockHz, (ctrl0 t).timing.divLo)) = some (48000000, 0x78) ∧
    (block []).clockHz = 15000000 ∧ (ctrl0 (block [])).timing.divLo = 0x25 ∧
    (after (step ((block []).withEvent (.command 1 0x000003E800000120)))).map
      (fun t => (ctrl0 t).record.timeoutUs) = some 1000 ∧ (ctrl0 (block [])).record.timeoutUs = 25000 := by decide

theorem sound_failing : (ctrl0 failing).Sound 16 := by
  constructor <;> first | decide | trivial
theorem inv_failing : failing.Inv :=
  inv_of_parts (k := ctrl0 failing) (q := req1 failing) (q' := req1 State.reset) (by decide) (by decide) sound_failing
    (by decide) (by decide) (by decide) (by decide)

/-- A step that takes the token, and one that releases it with an answer. -/
theorem witness_TokenAndAnswers :
    ((block []).Inv ∧ (ctrl0 (block [])).record.owner = 0 ∧
      (after (step ((block []).withEvent (.command 1 0x00000002A0000113)))).map
        (fun t => (ctrl0 t).record.owner) = some 1) ∧
    (failing.Inv ∧ (ctrl0 failing).record.owner = 1 ∧
      (after (step (failing.withEvent (.orch 0)))).map (fun t => ((ctrl0 t).record.owner, t.responsesOf 1)) =
        some (0, [6])) := ⟨⟨inv_block, by decide⟩, inv_failing, by decide⟩

theorem sound_armed : (ctrl0 (armed [])).Sound 16 := by
  constructor <;> first | decide | trivial

theorem witness_TimeoutAnswersWithinTwoWindows : (armed []).Inv ∧ (armed []).params.timeoutModel = .anyTime ∧
    (armed []).ctrl? 0 = some (ctrl0 (armed [])) ∧ (ctrl0 (armed [])).orch.phase = .wait ∧
    (ctrl0 (armed [])).done = false :=
  ⟨inv_of_parts (k := ctrl0 (armed [])) (q := req1 (armed [])) (q' := req1 State.reset) (by decide) (by decide)
    sound_armed (by decide) (by decide) (by decide) (by decide), by decide⟩

/-- Writes of 1 and of 16 bytes. -/
theorem witness_WriteTransferOnTheBus (rest : List Byte) :
    let s := block (List.replicate 17 0 ++ rest)
    s.Inv ∧ s.BusInv ∧ s.Ready 1 (req1 s) ∧ s.PortOn 0 port0 (ctrl0 s) ∧ s.LengthsOk 1 0 ∧ s.LengthsOk 16 0 ∧
      (ctrl0 s).record.owner = 0 ∧ (ctrl0 s).record.opState = .idle ∧ (ctrl0 s).bus.busy = false ∧
      (ctrl0 s).bus.busErr = false ∧ (ctrl0 s).bus.eq = [] ∧ s.params.linesModel = .idleWhenNotBusy ∧
      s.draws = List.replicate ((16 : Half).toNat + 1) 0 ++ rest :=
  ⟨inv_block.congr rfl rfl rfl inv_block.memory, busInv_of_one rfl (busInv_block.sound 0 _ rfl), ready_block _,
    port_block _, lengths_block _ 1 0 (by decide) (by decide) (by decide),
    lengths_block _ 16 0 (by decide) (by decide) (by decide), rfl, rfl, rfl, rfl, rfl, rfl, rfl⟩

/-- A read of 2 bytes; a read of 1 byte needs one byte less. -/
theorem witness_ReadTransferOnTheBus (b b' : Byte) (rest : List Byte) :
    let s := block (0 :: ([b, b'] ++ rest))
    s.Inv ∧ s.BusInv ∧ s.Ready 1 (req1 s) ∧ s.PortOn 0 port0 (ctrl0 s) ∧ s.LengthsOk 0 2 ∧ s.LengthsOk 0 1 ∧
      s.params.bufBytes ≤ 65535 ∧ (ctrl0 s).record.owner = 0 ∧ (ctrl0 s).record.opState = .idle ∧
      (ctrl0 s).bus.busy = false ∧ (ctrl0 s).bus.busErr = false ∧ (ctrl0 s).bus.eq = [] ∧
      (ctrl0 s).bus.nackArmed = false ∧ s.params.linesModel = .idleWhenNotBusy ∧
      ([b, b'] : List Byte).length = (2 : Half).toNat ∧ s.draws = 0 :: ([b, b'] ++ rest) :=
  ⟨inv_block.congr rfl rfl rfl inv_block.memory, busInv_of_one rfl (busInv_block.sound 0 _ rfl), ready_block _,
    port_block _, lengths_block _ 0 2 (by decide) (by decide) (by decide),
    lengths_block _ 0 1 (by decide) (by decide) (by decide), show 16 ≤ 65535 by decide, rfl, rfl, rfl, rfl, rfl,
    rfl, rfl, rfl, rfl⟩

/-! ## The host's two questions, on one word of each row with REQ = 1 -/

theorem test_rows_run :
    ([0x10, 0x11, 0x12, 0x13, 0x20, 0x21, 0x22, 0x30, 0x31, 0x32, 0x40, 0x41, 0x42] : List Nat).all
      (fun op => (decodeTableWord 64 (0x100 + op)).isSome &&
        (after (step (State.reset.withFetchWord 64 (0x100 + op)))).isSome) = true := by decide

end Sys2Proof.Tests
end

section
/-! PROOFS. The statements of spec/00_scope.md: what every step keeps, which command a step runs, and the state after
reset. -/

namespace Sys2Proof.Machine

section StepExtends

variable {s t u : State} {c : Nat} {k k' : Ctrl}

/-! ## What every step keeps (00_scope.md R10, 10_state.md R45) -/

/-- `t` has the parameters and the counts of `s`, and every bus trace of `s` goes on in `t`. -/
structure State.Extends (s t : State) : Prop where
  params : t.params = s.params
  numCtrl : t.numCtrl = s.numCtrl
  numReq : t.numReq = s.numReq
  traces : ∀ c k, s.ctrl? c = some k → ∃ k' new, t.ctrl? c = some k' ∧ k'.trace = k.trace ++ new

/-- A change that leaves the parameters, the controllers and the number of requesters. -/
theorem State.Extends.same (hp : t.params = s.params) (hc : t.ctrls = s.ctrls)
    (hr : t.reqs.length = s.reqs.length) : s.Extends t where
  params := hp
  numCtrl := by simp [State.numCtrl, hc]
  numReq := hr
  traces c k hk := ⟨k, [], by simpa [State.ctrl?, hc] using hk, by simp⟩

theorem State.Extends.trans (h : s.Extends t) (h' : t.Extends u) : s.Extends u where
  params := h'.params.trans h.params
  numCtrl := h'.numCtrl.trans h.numCtrl
  numReq := h'.numReq.trans h.numReq
  traces c k hk := by
    obtain ⟨k1, new1, hk1, htr1⟩ := h.traces c k hk
    obtain ⟨k2, new2, hk2, htr2⟩ := h'.traces c k1 hk1
    exact ⟨k2, new1 ++ new2, hk2, by rw [htr2, htr1, List.append_assoc]⟩

theorem AgentFrame.toExtends (h : AgentFrame c s t) : s.Extends t where
  params := h.params
  numCtrl := h.numCtrl
  numReq := h.numReq
  traces c' k hk := by
    by_cases hc : c' = c
    · subst hc
      obtain ⟨k', hk', hf⟩ := h.own k hk
      obtain ⟨new, htr⟩ := hf.trace
      exact ⟨k', new, hk', htr⟩
    · exact ⟨k, [], (h.others c' hc).trans hk, by simp⟩

theorem CommandFrame.toExtends {i : Instr} (h : CommandFrame i s t) : s.Extends t where
  params := h.params
  numCtrl := h.numCtrl
  numReq := h.numReq
  traces c k hk := by
    obtain ⟨k', hk', hd⟩ := h.ctrl c k hk
    obtain ⟨new, htr⟩ := hd.trace
    exact ⟨k', new, hk', htr⟩

theorem EventDid.toExtends {e : Event} (h : EventDid s t e) : s.Extends t := by
  cases h with
  | idle h => subst h; exact .same rfl rfl rfl
  | access r a v _ _ h => subst h; exact .same rfl rfl rfl
  | illegal r w _ h => subst h; exact (AgentFrame.respond (c := 0) ..).toExtends
  | command r w i _ _ _ h => exact h.toExtends
  | agent c k _ _ h => exact h.toExtends
  | seq c k m _ _ h =>
    have hmem : s.Extends { s with mem := m } := .same rfl rfl rfl
    exact hmem.trans h.toExtends

/-- Taking the next event changes the schedule and the counter of free values only (00_scope.md R8). -/
theorem nextEvent_extends (s : State) : s.Extends s.nextEvent.2 := .same (by simp) (by simp) (by simp)

theorem step_extends (h : step s = .next t) : s.Extends t := by
  rcases step_next h with ⟨_, ht⟩ | ⟨e, _, hrun⟩
  · rw [ht]; exact nextEvent_extends s
  · exact (nextEvent_extends s).trans (event_did hrun).toExtends

end StepExtends

/-- Settles O53: a step is its next event's, and what any event does extends the state. -/
theorem traceOnlyGrows : Obligations.TraceOnlyGrows := by
  unfold Obligations.TraceOnlyGrows
  intro s t hst
  obtain ⟨hp, hc, hr, htr⟩ := step_extends hst
  exact ⟨hp, hc, hr, htr⟩

/-! ## The command a step runs (00_scope.md R8, 30_encoding.md R92, 40_commands.md R110) -/

/-- A word sent by the requester that its REQ names runs as the command it decodes to. -/
theorem acceptWord_of_decode {s : State} {r : Byte} {w : Command} {i : Instr} (hd : decodeWord w = .ok i)
    (hr : reqField w = r) : acceptWord s r w = exec i s := by
  unfold acceptWord
  rw [if_neg (not_not_intro hr), hd]

/-- Decoding the eight bytes of a word decodes the word. -/
theorem decode_bytesOfWord (w : Command) : decode (bytesOfWord w) = (decodeWord w).map (·, []) := by
  simp only [bytesOfWord, decode, wordOfBytes_byteOf]
  cases decodeWord w <;> rfl

/-- What the decoder reads from an instruction of the opcode table, it reads from its word. -/
theorem decodeTableWord_eq_some {nbits w : Nat} {i : Instr} (h : decodeTableWord nbits w = some i) :
    decodeWord (tableWord nbits w) = .ok i := by
  unfold decodeTableWord at h
  rw [decode_bytesOfWord] at h
  cases hd : decodeWord (tableWord nbits w) with
  | error e => rw [hd] at h; cases h
  | ok j => rw [hd] at h; cases h; rfl

theorem withFetchWord_eq_withEvent (s : State) (nbits w : Nat) :
    s.withFetchWord nbits w = s.withEvent (.command (reqField (tableWord nbits w)) (tableWord nbits w)) := rfl

/-- Settles O7: the next event is the requester's word, which `acceptWord` decodes; a table row's word is one such. -/
theorem stepRunsDecodedCommand : Obligations.StepRunsDecodedCommand := by
  unfold Obligations.StepRunsDecodedCommand
  have hword : ∀ (s : State) (r : Byte) (w : Command) (i : Instr), decodeWord w = .ok i → reqField w = r →
      step (s.withEvent (.command r w)) = exec i s := fun s r w i hd hr => by
    rw [step_withEvent]
    exact acceptWord_of_decode hd hr
  refine ⟨hword, fun s nbits w i h => ?_⟩
  rw [withFetchWord_eq_withEvent]
  exact hword s _ _ i (decodeTableWord_eq_some h) rfl

/-! ## The state after reset (70_reset_and_hazards.md R290, R291) -/

section Reset

variable {p : Params} {mem : Memory} {events : List Event} {draws : List Byte} {count : Nat}

/-- A controller after reset is Idle and free, with every length, the cursor and the owner 0. -/
theorem resetFor_sound (buf : Nat) (p : Params) (hz : Word) : (Ctrl.resetFor p hz).Sound buf := by
  constructor <;> simp [Ctrl.resetFor, OpState.active, Kind.recordable, Running.Fits]

/-- A controller after reset runs no recovery, and its bus has an empty queue and no flag. -/
theorem resetFor_busSound (p : Params) (hz : Word) : (Ctrl.resetFor p hz).BusSound := by
  constructor <;> simp [Ctrl.resetFor, Bus.Fits]

theorem ctrl?_resetWith {c : Nat} {k : Ctrl} (h : (State.resetWith p mem events draws count).ctrl? c = some k) :
    ∃ hz, k = Ctrl.resetFor p hz := by
  obtain ⟨hz, _, hk⟩ := List.mem_map.1 (List.mem_of_getElem? h)
  exact ⟨hz, hk.symm⟩

theorem req?_resetWith {r : Byte} {q : Requester}
    (h : (State.resetWith p mem events draws count).req? r = some q) : q.outstanding = false := by
  unfold State.req? at h
  split at h
  · cases h
  · rw [List.eq_of_mem_replicate (List.mem_of_getElem? h)]

/-- PORT_MAP of parameters in their ranges names controllers of the block (00_scope.md R10). -/
theorem Params.ctrl_lt_of_wf (h : p.wf = true) {e : PortEntry} (he : e ∈ p.portMap) : e.ctrl < p.numCtrl := by
  simp only [Params.wf, Bool.and_eq_true, List.all_eq_true, decide_eq_true_eq] at h
  exact h.1.2 e he

/-- Nobody owns a controller and nobody waits, so the rules of ownership hold. -/
theorem resetWith_inv (hp : p.wf = true) (hm : Memory.wf mem = true) :
    (State.resetWith p mem events draws count).Inv where
  sound c k hk := by
    obtain ⟨hz, rfl⟩ := ctrl?_resetWith hk
    exact resetFor_sound _ p hz
  ownerWaits c k hk ho := by
    obtain ⟨hz, rfl⟩ := ctrl?_resetWith hk
    exact absurd rfl ho
  waiterOwns r q hq ho := by
    rw [req?_resetWith hq] at ho
    cases ho
  ownsOne c c' k k' hk _ ho := by
    obtain ⟨hz, rfl⟩ := ctrl?_resetWith hk
    exact absurd rfl ho
  ports e he := by
    have hnum : (State.resetWith p mem events draws count).numCtrl = p.numCtrl := List.length_map _
    rw [hnum]
    exact Params.ctrl_lt_of_wf hp he
  memory := hm

theorem resetWith_busInv : (State.resetWith p mem events draws count).BusInv where
  sound c k hk := by
    obtain ⟨hz, rfl⟩ := ctrl?_resetWith hk
    exact resetFor_busSound p hz

end Reset

/-- The parameters of State.reset are in their ranges. -/
theorem Params.s0_wf : Params.s0.wf = true := by decide

/-- Settles O47: every controller is reset to a sound one, and nobody owns or waits; State.reset is the case of the
parameters of S0 and empty buffers. -/
theorem resetIsSound : Obligations.ResetIsSound := by
  unfold Obligations.ResetIsSound
  exact ⟨fun _ _ _ _ _ hp hm => ⟨resetWith_inv hp hm, resetWith_busInv⟩,
    resetWith_inv Params.s0_wf Memory.wf_nil, resetWith_busInv, Params.s0_wf⟩

end Sys2Proof.Machine
end

section
/-! PROOFS. The statements of spec/10_state.md: the invariants every step keeps, the queue and the suspended states, who
writes the timing fields, the token and the answers, and the registers of RDREG. -/

namespace Sys2Proof.Machine

section Invariants

variable {s t : State} {c : Nat} {k : Ctrl}

/-! ## What holds of every outcome of a step (00_scope.md R8) -/

variable {P : Result → Prop}

/-- An agent that has no step leaves the state as it was. -/
theorem onAgent_of_enabled (hidle : P (.next s)) {en : Ctrl → Bool} {run : Ctrl → Result}
    (hrun : ∀ k, s.ctrl? c = some k → en k = true → P (run k)) : P (s.onAgent c en run) := by
  unfold State.onAgent
  split
  · exact hidle
  next k hk =>
  split
  · next hen => exact hrun k hk hen
  · exact hidle

/-- A requester's buffer access is allowed or refused (20_memory.md R60, R62). -/
theorem access_of_allowed (hbad : P (.refused .bufferAccess)) (ht : P (.next t)) (b : Bool) :
    P (if b then .next t else .refused .bufferAccess) := by
  cases b
  · exact hbad
  · exact ht

/-- A step runs its next event on the state without it, or leaves that state. -/
theorem step_of_event (hidle : P (.next s.nextEvent.2)) (hrun : ∀ e, P (runEvent s.nextEvent.2 e)) : P (step s) := by
  unfold step State.advance
  split
  · next e s1 heq => rw [heq] at hrun; exact hrun e
  · next s1 heq => rw [heq] at hidle; exact hidle

/-! ## The control invariant over a step (10_state.md R23 to R27, R47, R52; 40_commands.md R126; 41_sequencer.md R173) -/

theorem keepsInv_acceptWord (h : s.Inv) (r : Byte) (w : Command) : KeepsInv (acceptWord s r w) := by
  unfold acceptWord
  split
  · trivial
  split
  · next i _ => exact h.exec i
  · exact State.Inv.accept fun q hq hidle => h.respond hq hidle _ _

/-- Every event keeps the control invariant, and none faults. -/
theorem keepsInv_runEvent (h : s.Inv) (e : Event) : KeepsInv (runEvent s e) := by
  cases e with
  | command r w => exact keepsInv_acceptWord h r w
  | bufRead r a => exact access_of_allowed (P := KeepsInv) trivial h _
  | bufWrite r a v =>
    exact access_of_allowed (P := KeepsInv) (t := { s with mem := s.mem.write a.toNat v }) trivial
      (h.congr rfl rfl rfl (Memory.wf_write h.memory _ _)) _
  | orch c => exact onAgent_of_enabled h fun _ hk hen => h.orchStep hk hen
  | timeout c => exact onAgent_of_enabled (P := KeepsInv) h fun _ hk hen => h.timeoutFires hk _ hen
  | windowExpiry c => exact onAgent_of_enabled h fun _ hk _ => h.expiryStep hk
  | seq c => exact onAgent_of_enabled h fun _ hk hen => h.seqStep hk hen
  | eng c => exact onAgent_of_enabled (P := KeepsInv) h fun _ hk _ => h.engStep hk
  | busError c =>
    exact onAgent_of_enabled (P := KeepsInv) h fun _ hk _ => h.setCtrl hk (h.sound _ _ hk).raiseBusError rfl
  | setStretch c =>
    exact onAgent_of_enabled (P := KeepsInv) h fun _ hk _ => h.setCtrl hk (h.sound _ _ hk).raiseStretch rfl

/-- Taking the next event changes nothing the control invariant looks at. -/
theorem nextEvent_inv (h : s.Inv) : s.nextEvent.2.Inv := h.congr (by simp) (by simp) (by simp) (by simpa using h.memory)

theorem keepsInv_step (h : s.Inv) : KeepsInv (step s) :=
  step_of_event (nextEvent_inv h) (keepsInv_runEvent (nextEvent_inv h))

/-- Settles O48: every event keeps the control invariant, and a step is its next event's. -/
theorem stepKeepsInv : Obligations.StepKeepsInv := by
  unfold Obligations.StepKeepsInv
  intro s t hinv hst
  have hkeep := keepsInv_step hinv
  rwa [hst] at hkeep

/-- Settles O49: an outcome that keeps the control invariant is no fault. -/
theorem noStepFaults : Obligations.NoStepFaults := by
  unfold Obligations.NoStepFaults
  intro s f hinv hst
  have hkeep := keepsInv_step hinv
  rwa [hst] at hkeep

/-! ## The bus invariant over a step (10_state.md R41, 41_sequencer.md R174, R189) -/

theorem keepsBusInv_acceptWord (h : s.BusInv) (hi : s.Inv) (r : Byte) (w : Command) :
    KeepsBusInv (acceptWord s r w) := by
  unfold acceptWord
  split
  · trivial
  split
  · next i _ => exact h.exec i hi
  · exact State.BusInv.accept fun _ _ => h.respond _ _ _

/-- Every event keeps the bus invariant, from a state with both. -/
theorem keepsBusInv_runEvent (h : s.BusInv) (hi : s.Inv) (e : Event) : KeepsBusInv (runEvent s e) := by
  cases e with
  | command r w => exact keepsBusInv_acceptWord h hi r w
  | bufRead r a => exact access_of_allowed (P := KeepsBusInv) trivial h _
  | bufWrite r a v =>
    exact access_of_allowed (P := KeepsBusInv) (t := { s with mem := s.mem.write a.toNat v }) trivial (h.congr rfl) _
  | orch c => exact onAgent_of_enabled h fun _ hk hen => h.orchStep hi hk hen
  | timeout c => exact onAgent_of_enabled (P := KeepsBusInv) h fun _ hk hen => h.timeoutFires hi hk _ hen
  | windowExpiry c => exact onAgent_of_enabled h fun _ hk _ => h.expiryStep hi hk
  | seq c => exact onAgent_of_enabled h fun _ hk hen => h.seqStep hi hk hen
  | eng c => exact onAgent_of_enabled (P := KeepsBusInv) h fun _ hk hen => h.engStep hi hk hen
  | busError c =>
    exact onAgent_of_enabled (P := KeepsBusInv) h fun _ hk hen =>
      h.set ((h.sound _ _ hk).raiseBusError (hi.sound _ _ hk) hen)
  | setStretch c => exact onAgent_of_enabled (P := KeepsBusInv) h fun _ hk _ => h.set (h.sound _ _ hk).raiseStretch

/-- Taking the next event writes no controller. -/
theorem nextEvent_busInv (h : s.BusInv) : s.nextEvent.2.BusInv := h.congr (by simp)

theorem keepsBusInv_step (h : s.BusInv) (hi : s.Inv) : KeepsBusInv (step s) :=
  step_of_event (nextEvent_busInv h) (keepsBusInv_runEvent (nextEvent_busInv h) (nextEvent_inv hi))

/-- Settles O50: every event keeps the bus invariant, and a step is its next event's. -/
theorem stepKeepsBusInv : Obligations.StepKeepsBusInv := by
  unfold Obligations.StepKeepsBusInv
  intro s t hinv hbus hst
  have hkeep := keepsBusInv_step hbus hinv
  rwa [hst] at hkeep

/-! ## What the queue and a suspended controller hold (10_state.md R41, 41_sequencer.md R174, R176) -/

/-- No state of the sequencer has more than two actions queued. -/
theorem Bus.Fits.eq_length_le {b : Bus} {st : OpState} (h : b.Fits st) : b.eq.length ≤ 2 := by
  cases st with
  | idle => obtain ⟨hq | hq, _⟩ := h <;> simp [hq]
  | start => obtain ⟨hq | hq | hq, _⟩ := h <;> simp [hq]
  | write => obtain ⟨hq | ⟨v, hq⟩, _⟩ := h <;> simp [hq]
  | read => obtain ⟨hq | ⟨v, hq⟩ | ⟨v, hq⟩, _⟩ := h <;> simp [hq]
  | repeatStart => obtain ⟨hq | hq, _⟩ := h <;> simp [hq]
  | writeSuspended => obtain ⟨hq, _⟩ := h; simp [hq]
  | readSuspended => obtain ⟨hq, _⟩ := h; simp [hq]

/-- In a recovery at most its STOP is queued; outside one the queue fits the state. -/
theorem Ctrl.BusSound.eq_length_le (h : k.BusSound) : k.bus.eq.length ≤ 2 := by
  cases hr : k.orch.recPhase with
  | none => exact (h.fits hr).eq_length_le
  | abortWait => obtain ⟨hq | hq, _⟩ := h.aborting hr <;> simp [hq]
  | resetWait => obtain ⟨hq, _⟩ := h.resetting hr; simp [hq]

/-- A controller no command runs on has interrupts masked and a bus that fits its state. -/
theorem Ctrl.Sound.free_fits {buf : Nat} (hs : k.Sound buf) (hb : k.BusSound) (hp : k.orch.phase = .free) :
    k.ie = false ∧ k.bus.Fits k.record.opState := by
  obtain ⟨_, hrec, _, hie, _, _⟩ := hs.free (hs.owned.2 hp)
  exact ⟨hie, hb.fits hrec⟩

/-- Settles O51: both claims are read off the bus invariant, at the state of the sequencer. -/
theorem queueBoundAndSuspension : Obligations.QueueBoundAndSuspension := by
  unfold Obligations.QueueBoundAndSuspension
  intro s c k hinv hbus hk
  have hs := hinv.sound c k hk
  have hb := hbus.sound c k hk
  refine ⟨hb.eq_length_le.trans (by decide), fun hp hst herr => ?_, fun hp hst herr => ?_⟩
  · obtain ⟨hie, hf⟩ := hs.free_fits hb hp
    rw [hst] at hf
    obtain ⟨_, hbusy, _, hrdy | herr', _⟩ := hf
    · exact ⟨hie, hbusy, hrdy⟩
    · simp [herr] at herr'
  · obtain ⟨hie, hf⟩ := hs.free_fits hb hp
    rw [hst] at hf
    obtain ⟨_, hbusy, hrdy | hrx | herr', _⟩ := hf
    · exact ⟨hie, hbusy, .inl hrdy⟩
    · exact ⟨hie, hbusy, .inr hrx⟩
    · simp [herr] at herr'

end Invariants

/-! ## Who writes the clock, the timing fields and the timeout (10_state.md R28, R43, R44; 40_commands.md R146) -/

section Writers

variable {s t : State} {c : Nat}

/-- `t` has the clock of `s`, and the timing fields and the timeout of every controller of `s`. -/
structure State.SameSetup (s t : State) : Prop where
  clock : t.clockHz = s.clockHz
  timing : ∀ c k k', s.ctrl? c = some k → t.ctrl? c = some k' → k'.timing = k.timing
  timeout : ∀ c k k', s.ctrl? c = some k → t.ctrl? c = some k' → k'.record.timeoutUs = k.record.timeoutUs

theorem State.SameSetup.same (hclk : t.clockHz = s.clockHz) (hc : t.ctrls = s.ctrls) : s.SameSetup t := by
  have hctrl : ∀ c k k', s.ctrl? c = some k → t.ctrl? c = some k' → k' = k := fun c k k' hk hk' => by
    rw [State.ctrl?, hc, ← State.ctrl?, hk] at hk'
    exact (Option.some.inj hk').symm
  exact ⟨hclk, fun c k k' hk hk' => by rw [hctrl c k k' hk hk'], fun c k k' hk hk' => by rw [hctrl c k k' hk hk']⟩

/-- What controller `c'` is after a step of an agent of controller `c` follows what it was. -/
theorem AgentFrame.follows (h : AgentFrame c s t) {c' : Nat} {k k' : Ctrl} (hk : s.ctrl? c' = some k)
    (hk' : t.ctrl? c' = some k') : k.Follows k' := by
  by_cases hc : c' = c
  · subst hc
    obtain ⟨k1, hk1, hf⟩ := h.own k hk
    rw [hk'] at hk1
    cases hk1
    exact hf
  · rw [h.others c' hc, hk] at hk'
    cases hk'
    exact .refl k

theorem AgentFrame.sameSetup (h : AgentFrame c s t) : s.SameSetup t :=
  ⟨h.clock, fun _ _ _ hk hk' => (h.follows hk hk').timing, fun _ _ _ hk hk' => (h.follows hk hk').timeout⟩

/-- Only a decoded command can write the setup. -/
theorem EventDid.sameSetup_or_command {e : Event} (h : EventDid s t e) :
    s.SameSetup t ∨ ∃ r w i, e = .command r w ∧ decodeWord w = .ok i ∧ CommandFrame i s t := by
  cases h with
  | idle h => subst h; exact .inl (.same rfl rfl)
  | access r a v _ _ h => subst h; exact .inl (.same rfl rfl)
  | illegal r w _ h => subst h; exact .inl (.same (respond_clockHz ..) (respond_ctrls ..))
  | command r w i he hd _ h => exact .inr ⟨r, w, i, he, hd, h⟩
  | agent c k _ _ h => exact .inl h.sameSetup
  | seq c k m _ _ h =>
    obtain ⟨hclk, htim, hout⟩ := h.sameSetup
    exact .inl ⟨hclk, htim, hout⟩

theorem CommandFrame.commanded {i : Instr} (h : CommandFrame i s t) {k k' : Ctrl} (hk : s.ctrl? c = some k)
    (hk' : t.ctrl? c = some k') : k.Commanded i k' := by
  obtain ⟨k1, hk1, hc⟩ := h.ctrl c k hk
  rw [hk'] at hk1
  cases hk1
  exact hc

/-- Settles O56: an event that is no decoded command keeps the setup, and a command's frame names the writers. -/
theorem timingAndTimeoutWriters : Obligations.TimingAndTimeoutWriters := by
  unfold Obligations.TimingAndTimeoutWriters
  intro s t e hst
  rw [step_withEvent] at hst
  obtain hsame | ⟨r, w, i, he, hd, hf⟩ := (event_did hst).sameSetup_or_command
  · exact ⟨fun hne => absurd hsame.clock hne, fun c k k' hk hk' hne => absurd (hsame.timing c k k' hk hk') hne,
      fun c k k' hk hk' hne => absurd (hsame.timeout c k k' hk hk') hne⟩
  refine ⟨fun hne => ?_, fun c k k' hk hk' hne => ?_, fun c k k' hk hk' hne => ?_⟩
  · obtain hclk | ⟨r', hz, rfl⟩ := hf.clock
    · exact absurd hclk hne
    · exact ⟨r, w, _, he, hd, rfl⟩
  · obtain htim | ⟨r', hz, rfl⟩ | ⟨r', c', hz, rfl⟩ := (hf.commanded hk hk').timing
    · exact absurd htim hne
    · exact ⟨r, w, _, he, hd, rfl⟩
    · exact ⟨r, w, _, he, hd, rfl⟩
  · obtain hout | ⟨r', p, us, rfl⟩ := (hf.commanded hk hk').timeout
    · exact absurd hout hne
    · exact ⟨r, w, _, he, hd, rfl⟩

end Writers

/-! ## The token and the answers (10_state.md R27, 30_encoding.md R88, 40_commands.md R114, R125, 60_exceptions.md R263) -/

section Token

variable {s t u : State} {c : Nat} {k k' : Ctrl}

/-- The owner `o` of a controller becomes `o'`: it is set from none, or cleared with an answer to the requester that held
it. -/
def TokenMoves (s t : State) (o o' : Byte) : Prop :=
  (o = 0 ∨ o' = 0) ∧ (o' = 0 → ∃ res d, t.responsesOf o = s.responsesOf o ++ [responseWord res d])

/-- Requester `r` gets no answer, or one that is neither ModuleBusy nor BusBusy and leaves it no command outstanding. -/
def AnsweredOnce (s t : State) (r : Byte) : Prop :=
  t.responsesOf r = s.responsesOf r ∨
    ∃ res d q, t.responsesOf r = s.responsesOf r ++ [responseWord res d] ∧ res ≠ .moduleBusy ∧ res ≠ .busBusy ∧
      t.req? r = some q ∧ q.outstanding = false

theorem req?_congr (h : t.reqs = s.reqs) (r : Byte) : t.req? r = s.req? r := by simp [State.req?, h]

/-- The answers look at the requesters only. -/
theorem AnsweredOnce.congr {r : Byte} (h : AnsweredOnce s u r) (ht : t.reqs = u.reqs) : AnsweredOnce s t r := by
  unfold AnsweredOnce
  rwa [responsesOf_congr ht, req?_congr ht]

theorem AnsweredOnce.same {r : Byte} (ht : t.reqs = s.reqs) : AnsweredOnce s t r := .inl (responsesOf_congr ht r)

/-- The responses of a requester of the block after it is answered. -/
theorem responsesOf_respond {r : Byte} {q : Requester} (hq : s.req? r = some q) (res : Kind) (d : Word) :
    (s.respond r res d).responsesOf r = s.responsesOf r ++ [responseWord res d] := by
  simp [State.responsesOf, req?_respond, hq]

/-- A controller of a sound block is released with an answer to its owner (40_commands.md R125). -/
theorem Settles.tokenMoves (h : Settles c k s t) (hinv : s.Inv) (hk : s.ctrl? c = some k) (hk' : t.ctrl? c = some k')
    (hne : k'.record.owner ≠ k.record.owner) : TokenMoves s t k.record.owner k'.record.owner := by
  obtain ⟨_, k1, hk1, ho⟩ | ⟨res, d, hreqs, _, k1, hk1, ho⟩ := h
  all_goals
    rw [hk'] at hk1
    cases hk1
  · exact absurd ho hne
  · have hown : k.record.owner ≠ 0 := fun h0 => hne (ho.trans h0.symm)
    obtain ⟨q, hq, _⟩ := hinv.ownerWaits c k hk hown
    refine ⟨.inr ho, fun _ => ⟨res, d, ?_⟩⟩
    rw [responsesOf_congr hreqs, (hinv.sound c k hk).forOwner hown, responsesOf_respond hq]

/-- A step of an agent of controller `c` answers at most its owner. -/
theorem Settles.answeredOnce (h : Settles c k s t) (hkind : k.record.errorCode.recordable = true) (r : Byte) :
    AnsweredOnce s t r := by
  obtain ⟨hreqs, _⟩ | ⟨res, d, hreqs, hres, _⟩ := h
  · exact .same hreqs
  · obtain ⟨hmod, hbusy⟩ := hres hkind
    exact AnsweredOnce.congr (answers_respond s _ r d hmod hbusy) hreqs

/-- An owned controller keeps its owner under every command (40_commands.md R140). -/
theorem Ctrl.Commanded.owner_eq {i : Instr} (h : k.Commanded i k') (ho : k.record.owner ≠ 0) :
    k'.record.owner = k.record.owner := by
  obtain ⟨heq, _⟩ := h.owned ho
  rw [heq]

/-- A step of an agent of controller `c0`, where it moves the token of controller `c`, is of `c` itself. -/
theorem AgentFrame.tokenMoves {c0 : Nat} {k0 : Ctrl} {m : Memory} (h : AgentFrame c0 { s with mem := m } t)
    (h2 : Settles c0 k0 s t) (hk0 : s.ctrl? c0 = some k0) (hinv : s.Inv) (hk : s.ctrl? c = some k)
    (hk' : t.ctrl? c = some k') (hne : k'.record.owner ≠ k.record.owner) :
    TokenMoves s t k.record.owner k'.record.owner := by
  by_cases hc : c = c0
  · subst hc
    rw [hk] at hk0
    cases hk0
    exact h2.tokenMoves hinv hk hk' hne
  · have hsame : t.ctrl? c = s.ctrl? c := h.others c hc
    rw [hsame, hk] at hk'
    cases hk'
    exact absurd rfl hne

/-- What an event does with the token of controller `c`, where it changes the owner. -/
theorem EventDid.tokenMoves {e : Event} (h : EventDid s t e) (hinv : s.Inv) (hk : s.ctrl? c = some k)
    (hk' : t.ctrl? c = some k') (hne : k'.record.owner ≠ k.record.owner) :
    TokenMoves s t k.record.owner k'.record.owner := by
  have kept : t.ctrl? c = s.ctrl? c → TokenMoves s t k.record.owner k'.record.owner := fun hsame => by
    rw [hsame, hk] at hk'
    cases hk'
    exact absurd rfl hne
  cases h with
  | idle h => exact kept (by rw [h])
  | access r a v _ _ h => exact kept (by rw [h]; rfl)
  | illegal r w _ h => exact kept (by rw [h, respond_ctrl?])
  | command r w i _ _ _ h =>
    have hfree : k.record.owner = 0 := by
      by_contra ho
      exact hne ((h.commanded hk hk').owner_eq ho)
    exact ⟨.inl hfree, fun ho => absurd (ho.trans hfree.symm) hne⟩
  | agent c0 k0 _ hk0 h h2 => exact AgentFrame.tokenMoves (m := s.mem) h h2 hk0 hinv hk hk' hne
  | seq c0 k0 m _ hk0 h h2 => exact h.tokenMoves h2 hk0 hinv hk hk' hne

/-- What a requester sees of an event. -/
theorem EventDid.answeredOnce {e : Event} (h : EventDid s t e) (hinv : s.Inv) (r : Byte) : AnsweredOnce s t r := by
  cases h with
  | idle h => exact .same (by rw [h])
  | access r' a v _ _ h => exact .same (by rw [h])
  | illegal r' w _ h => rw [h]; exact answers_respond s r' r 0 (by decide) (by decide)
  | command r' w i _ _ _ h => exact h.answers r
  | agent c k _ hk _ h2 => exact h2.answeredOnce (hinv.sound c k hk).kinds r
  | seq c k m _ hk _ h2 => exact h2.answeredOnce (hinv.sound c k hk).kinds r

theorem step_tokenMoves (hinv : s.Inv) (hst : step s = .next t) (hk : s.ctrl? c = some k) (hk' : t.ctrl? c = some k')
    (hne : k'.record.owner ≠ k.record.owner) : TokenMoves s t k.record.owner k'.record.owner := by
  rcases step_next hst with ⟨_, ht⟩ | ⟨e, _, hrun⟩
  · rw [ht, nextEvent_ctrl?, hk] at hk'
    cases hk'
    exact absurd rfl hne
  · have hmove := (event_did hrun).tokenMoves (nextEvent_inv hinv) ((nextEvent_ctrl? s c).trans hk) hk' hne
    unfold TokenMoves at hmove ⊢
    rwa [responsesOf_congr (nextEvent_reqs s)] at hmove

theorem step_answeredOnce (hinv : s.Inv) (hst : step s = .next t) (r : Byte) : AnsweredOnce s t r := by
  rcases step_next hst with ⟨_, ht⟩ | ⟨e, _, hrun⟩
  · exact .same (by rw [ht, nextEvent_reqs])
  · have hans := (event_did hrun).answeredOnce (nextEvent_inv hinv) r
    unfold AnsweredOnce at hans ⊢
    rwa [responsesOf_congr (nextEvent_reqs s)] at hans

/-- Settles O57: an agent's step releases its controller with an answer to the owner, a command answers its own requester
at most and takes free controllers only. -/
theorem tokenAndAnswers : Obligations.TokenAndAnswers := by
  unfold Obligations.TokenAndAnswers
  exact ⟨fun _ _ _ _ _ hinv hst hk hk' hne => step_tokenMoves hinv hst hk hk' hne,
    fun _ _ r hinv hst => step_answeredOnce hinv hst r⟩

end Token

/-! ## The registers of RDREG (10_state.md R48, R49, 40_commands.md R136) -/

section Registers

variable {s : State} {r c : Byte} {q : Requester} {k : Ctrl}

/-- The STATUS word is laid out as 10_state.md R48 says: a one-bit field is the bit at its place, a wider one is reached
past the fields beside it. -/
theorem statusWith_shown (k : Ctrl) (err : BitVec 4) : k.StatusShown err (k.statusWith err) := by
  constructor <;> simp only [Ctrl.statusWith]
  case state =>
    repeat rw [BitVec.extractLsb'_append_eq_of_add_le (by decide)]
    exact extract_all _
  case error =>
    repeat rw [BitVec.extractLsb'_append_eq_of_add_le (by decide)]
    exact (extract_append_high err (0#1 ++ k.record.opState.code) 0).trans (extract_all err)
  case zeros =>
    rw [BitVec.extractLsb'_append_eq_of_add_le (by decide)]
    exact (extract_append_high (0#4) _ 0).trans (extract_all _)
  case owner => exact (extract_append_high k.record.owner _ 0).trans (extract_all _)
  all_goals
    simp only [BitVec.getLsbD_append]
    simp

/-- RDREG of STATUS, on a controller that exists. -/
theorem exec_rdreg_zero (h : s.Ready r q) (hk : s.ctrl? c.toNat = some k) :
    exec (.rdreg r c 0) s = .next (readStatus r k s) := by
  simp only [exec, execRdreg, accept_ready h, State.onCtrl, hk, if_true]

/-- RDREG of another register, on a controller that exists. -/
theorem exec_rdreg_plain (h : s.Ready r q) (hk : s.ctrl? c.toNat = some k) {j v : Word} (hj : j ≠ 0)
    (hv : k.plainRegister s.clockHz j.toNat = some v) : exec (.rdreg r c j) s = .next (s.respond r .ok v) := by
  simp only [exec, execRdreg, accept_ready h, State.onCtrl, hk, if_neg hj, hv]

/-- No register has an index of 9 or more (10_state.md R49). -/
theorem plainRegister_eq_none (k : Ctrl) (hz : Word) {n : Nat} (hn : 9 ≤ n) : k.plainRegister hz n = none := by
  obtain ⟨m, rfl⟩ := Nat.exists_eq_add_of_le' hn
  rfl

/-- RDREG of an index that names no register, on a controller that exists. -/
theorem exec_rdreg_illegal (h : s.Ready r q) (hk : s.ctrl? c.toNat = some k) {j : Word} (hj : 9 ≤ j.toNat) :
    exec (.rdreg r c j) s = .next (s.respond r .illegalCommand 0) := by
  have hj0 : j ≠ 0 := by rintro rfl; exact absurd hj (by decide)
  simp only [exec, execRdreg, accept_ready h, State.onCtrl, hk, if_neg hj0, plainRegister_eq_none k _ hj]
  rfl

theorem readStatus_active (h : k.record.opState.active = true) :
    readStatus r k s = s.draw.2.respond r .ok (k.statusWith (s.draw.1.extractLsb' 0 4)) := if_pos h

theorem readStatus_resting (h : k.record.opState.active = false) :
    readStatus r k s = s.respond r .ok (k.statusWith k.record.errorCode.nibble) := by
  unfold readStatus
  rw [h]
  rfl

/-- Settles O22: STATUS by whether a transfer is active, the eight other registers one by one, then the indexes that name
none. -/
theorem rdregAnswersRegister : Obligations.RdregAnswersRegister := by
  unfold Obligations.RdregAnswersRegister
  intro s r q c k hready hk
  have plain := fun {j v : Word} => exec_rdreg_plain (j := j) (v := v) hready hk
  refine ⟨fun hst => ?_, fun hst => ?_, rfl, plain (by decide) ?_, plain (by decide) rfl, plain (by decide) rfl,
    plain (by decide) rfl, plain (by decide) rfl, plain (by decide) rfl, plain (by decide) rfl, plain (by decide) rfl,
    fun j hj => exec_rdreg_illegal hready hk hj⟩
  · have hrest : k.record.opState.active = false := by
      simp only [List.mem_cons, List.not_mem_nil, or_false] at hst
      rcases hst with hst | hst | hst <;> rw [hst] <;> rfl
    exact ⟨_, (exec_rdreg_zero hready hk).trans (congrArg _ (readStatus_resting hrest)), statusWith_shown k _⟩
  · have hact : k.record.opState.active = true := by
      simp only [List.mem_cons, List.not_mem_nil, or_false] at hst
      rcases hst with hst | hst | hst | hst <;> rw [hst] <;> rfl
    exact ⟨_, (exec_rdreg_zero hready hk).trans (congrArg _ (readStatus_active hact)), statusWith_shown k _⟩
  · show some (k.record.cursor.setWidth 32) = some (0#16 ++ k.record.cursor)
    exact congrArg some ((BitVec.setWidth_eq_append (by decide)).trans rfl)

end Registers

end Sys2Proof.Machine
end

section
/-! PROOFS. The statements of spec/20_memory.md: the buffer memory and who writes it, accepting and answering, and a
whole write and a whole read on the bus. -/

namespace Sys2Proof.Machine

section Buffers

variable {s t : State} {r : Byte} {q : Requester} {c : Nat} {k : Ctrl}

/-! ## The buffer memory and its addresses (20_memory.md R60, R68) -/

theorem Memory.read_write_self (m : Memory) (a : Nat) (v : Byte) : Memory.read (m.write a v) a = v := by
  rw [Memory.read_write, if_pos rfl]

theorem Memory.read_write_ne (m : Memory) {a b : Nat} (v : Byte) (h : b ≠ a) :
    Memory.read (m.write a v) b = m.read b := by
  rw [Memory.read_write, if_neg h]

theorem rxAddr_inj {r r' : Byte} {i j : Nat} (hi : i < 2 ^ 16) (hj : j < 2 ^ 16) (h : rxAddr r i = rxAddr r' j) :
    r = r' ∧ i = j := by
  rw [rxAddr_eq r hi, rxAddr_eq r' hj] at h
  exact ⟨BitVec.eq_of_toNat_eq (by omega), by omega⟩

theorem txAddr_inj {r r' : Byte} {i j : Nat} (hi : i < 2 ^ 16) (hj : j < 2 ^ 16) (h : txAddr r i = txAddr r' j) :
    r = r' ∧ i = j := by
  rw [txAddr_eq r hi, txAddr_eq r' hj] at h
  exact ⟨BitVec.eq_of_toNat_eq (by omega), by omega⟩

theorem txAddr_ne_rxAddr (r r' : Byte) {i j : Nat} (hi : i < 2 ^ 16) (hj : j < 2 ^ 16) : txAddr r i ≠ rxAddr r' j := by
  rw [txAddr_eq r hi, rxAddr_eq r' hj]
  omega

/-- Settles O43: read after write and the canonical form are laws of the memory; an address of a location is a sum in
which the requester, the buffer and the index can be told apart. -/
theorem bufferMemory : Obligations.BufferMemory := by
  unfold Obligations.BufferMemory
  exact ⟨fun m a b v => Memory.read_write m b a v, fun _ a v h => Memory.wf_write h a v,
    fun r r' _ _ hi hj => ⟨txAddr_eq r hi, rxAddr_eq r hi, txAddr_ne_rxAddr r r' hi hj, txAddr_inj hi hj,
      rxAddr_inj hi hj⟩⟩

/-! ## A requester's own access (20_memory.md R60, R62) -/

/-- The addresses requester `r` owns are those of its two buffers: above bit 16 the requester, bit 16 the buffer, below
it the index. -/
theorem ownsAddress_iff (hbuf : s.params.bufBytes ≤ 65535) (hq : s.req? r = some q) (addr : Word) :
    s.ownsAddress r addr = true ↔
      ∃ i, i < s.params.bufBytes ∧ (addr.toNat = txAddr r i ∨ addr.toNat = rxAddr r i) := by
  have hown : s.ownsAddress r addr = true ↔
      addr.toNat / 2 ^ 17 = r.toNat ∧ addr.toNat % 2 ^ 16 < s.params.bufBytes := by
    simp [State.ownsAddress, State.inBuffers, hq, Nat.shiftRight_eq_div_pow]
  rw [hown]
  constructor
  · rintro ⟨hr, hi⟩
    refine ⟨addr.toNat % 2 ^ 16, hi, ?_⟩
    rw [txAddr_eq r (by omega), rxAddr_eq r (by omega)]
    omega
  · rintro ⟨i, hi, haddr⟩
    rw [txAddr_eq r (by omega), rxAddr_eq r (by omega)] at haddr
    omega

theorem mayAccess_iff (hq : s.req? r = some q) (addr : Word) :
    s.mayAccess r addr = true ↔ q.outstanding = false ∧ s.ownsAddress r addr = true := by
  simp [State.mayAccess, hq]

theorem step_bufWrite (s : State) (r : Byte) (addr : Word) (v : Byte) :
    step (s.withEvent (.bufWrite r addr v)) =
      if s.mayAccess r addr then .next { s with mem := s.mem.write addr.toNat v } else .refused .bufferAccess := rfl

theorem step_bufRead (s : State) (r : Byte) (addr : Word) :
    step (s.withEvent (.bufRead r addr)) = if s.mayAccess r addr then .next s else .refused .bufferAccess := rfl

/-- Settles O44: an access is allowed exactly to an own address with no command outstanding. -/
theorem requesterBufferAccess : Obligations.RequesterBufferAccess := by
  unfold Obligations.RequesterBufferAccess
  intro s r q addr v hbuf hq own
  have hmay : s.mayAccess r addr = true ↔ q.outstanding = false ∧ own :=
    (mayAccess_iff hq addr).trans (and_congr_right' (ownsAddress_iff hbuf hq addr))
  rw [step_bufWrite, step_bufRead]
  refine ⟨fun hidle hown => ?_, fun hbad => ?_⟩
  · have hm := hmay.2 ⟨hidle, hown⟩
    exact ⟨if_pos hm, if_pos hm⟩
  · have hm : ¬s.mayAccess r addr = true := by
      rw [hmay]
      rintro ⟨hidle, hown⟩
      rcases hbad with hout | hnot
      · simp [hidle] at hout
      · exact hnot hown
    exact ⟨if_neg hm, if_neg hm⟩

/-! ## What a step writes (20_memory.md R61, R69) -/

/-- A byte that differs after a write is the written one. -/
theorem Memory.read_write_changed {m : Memory} {a b : Nat} {v : Byte} (h : Memory.read (m.write a v) b ≠ m.read b) :
    b = a ∧ Memory.read (m.write a v) b = v := by
  by_cases hb : b = a
  · subst hb
    exact ⟨rfl, Memory.read_write_self m b v⟩
  · exact absurd (Memory.read_write_ne m v hb) h

/-- An event that changes a byte is a requester's write of it, or the sequencer's store of a received byte. -/
theorem EventDid.changed_byte {e : Event} {a : Nat} (h : EventDid s t e) (hne : t.mem.read a ≠ s.mem.read a) :
    (∃ c k, s.ctrl? c = some k ∧ e = .seq c ∧ k.record.opState = .read ∧
      k.record.cursor.toNat < k.record.rxLen.toNat ∧ a = rxAddr k.record.owner k.record.cursor.toNat ∧
      t.mem.read a = k.bus.data) ∨
    (∃ r addr v, e = .bufWrite r addr v ∧ a = addr.toNat ∧ t.mem.read a = v) := by
  have kept : t.mem ≠ s.mem := fun hm => hne (by rw [hm])
  cases h with
  | idle h => exact absurd (by rw [h]) kept
  | access r addr v he _ h =>
    subst h
    obtain ⟨ha, hv⟩ := Memory.read_write_changed hne
    exact .inr ⟨r, addr, v, he, ha, hv⟩
  | illegal r w _ h => exact absurd (by rw [h, respond_mem]) kept
  | command r w i _ _ _ h => exact absurd h.mem kept
  | agent c k _ _ h => exact absurd h.mem kept
  | seq c k m hc hk h _ hm =>
    have hmem : t.mem = m := h.mem
    obtain rfl | ⟨hst, hcur, rfl⟩ := hm
    · exact absurd hmem kept
    · rw [hmem] at hne ⊢
      obtain ⟨ha, hv⟩ := Memory.read_write_changed hne
      exact .inl ⟨c, k, hk, hc, hst, hcur, ha, hv⟩

/-- Settles O45: a step is its next event's, and every event's writes are known. -/
theorem stepWritesOneBufferByte : Obligations.StepWritesOneBufferByte := by
  unfold Obligations.StepWritesOneBufferByte
  intro s t a hst hne
  rcases step_next hst with ⟨_, ht⟩ | ⟨e, he, hrun⟩
  · exact absurd (by rw [ht, nextEvent_mem]) hne
  · have hch := (event_did hrun).changed_byte (a := a) (by rwa [nextEvent_mem])
    simp only [nextEvent_ctrl?] at hch
    rw [he]
    simpa only [Option.some.injEq] using hch

/-! ## Accepting and answering (40_commands.md R110, 20_memory.md R66) -/

theorem modifyReq_eq (s : State) (r : Byte) (f : Requester → Requester) :
    s.modifyReq r f = { s with reqs := (s.modifyReq r f).reqs } := by
  unfold State.modifyReq
  split <;> rfl

theorem req?_setOutstanding_self (hq : s.req? r = some q) :
    (s.setOutstanding r).req? r = some { q with outstanding := true } := by
  rw [req?_setOutstanding, if_pos rfl, hq, Option.map_some]

theorem req?_respond_self (hq : s.req? r = some q) (res : Kind) (d : Word) :
    (s.respond r res d).req? r = some { outstanding := false, responses := q.responses ++ [responseWord res d] } := by
  rw [req?_respond, if_pos rfl, hq, Option.map_some]

/-- Settles O6: accepting and answering change one requester; the response word and its bytes are laid out field by
field. -/
theorem acceptanceAndAnswer : Obligations.AcceptanceAndAnswer := by
  unfold Obligations.AcceptanceAndAnswer
  intro s r q res d hq
  obtain ⟨hres, hzero, hdata⟩ := responseWord_fields res d
  exact ⟨req?_setOutstanding_self hq, fun r' hr => (req?_setOutstanding s r r').trans (if_neg (Ne.symm hr)),
    modifyReq_eq .., req?_respond_self hq res d, fun r' hr => (req?_respond s r res d r').trans (if_neg (Ne.symm hr)),
    modifyReq_eq .., hres, hzero, hdata, rfl, fun w => ⟨rfl, fun _ hj => bytesOfWord_get w hj⟩,
    fun v => ⟨rfl, fun _ hj => bytesOfRegister_get v hj⟩, encodeResponse_eq res d⟩

end Buffers

section Runs

variable {s t : State} {ev : Event} {es : List Event}

/-! ## Runs of events (00_scope.md R8) -/

theorem runEvents_cons (h : step (s.withEvent ev) = .next t) : runEvents (ev :: es) s = runEvents es t := by
  rw [runEvents, h]

theorem runEvents_append (h : runEvents es s = some t) (es' : List Event) :
    runEvents (es ++ es') s = runEvents es' t := by
  induction es generalizing s with
  | nil => cases h; rfl
  | cons ev es ih =>
    cases hst : step (s.withEvent ev) with
    | next u =>
      rw [runEvents_cons hst] at h
      rw [List.cons_append, runEvents_cons hst, ih h]
    | fault f => rw [runEvents, hst] at h; cases h
    | refused w => rw [runEvents, hst] at h; cases h

theorem runEvents_trans {es' : List Event} {u : State} (h : runEvents es s = some t) (h' : runEvents es' t = some u) :
    runEvents (es ++ es') s = some u :=
  (runEvents_append h es').trans h'

/-- A loop: `n` rounds of the same events, where round `i` leads from state `f i` to state `f (i + 1)`. -/
theorem runEvents_replicate (f : Nat → State) {n : Nat} (h : ∀ i, i < n → runEvents es (f i) = some (f (i + 1))) :
    runEvents (List.replicate n es).flatten (f 0) = some (f n) := by
  induction n with
  | zero => rfl
  | succ n ih =>
    rw [List.replicate_succ', List.flatten_concat, runEvents_append (ih fun i hi => h i (by omega)), h n (by omega)]

end Runs

section Steps

variable {s : State} {c : Nat} {k : Ctrl}

/-! ## The agents of a ready controller (41_sequencer.md R160, R180) -/

theorem step_seq_start (hk : s.ctrl? c = some k) (h : k.SeqReady .start) :
    step (s.withEvent (.seq c)) = .next (s.setCtrl c k.rowAddress) := by
  simp [step_withEvent, runEvent, onAgent_some hk, seqReady_enabled h rfl, seqStep, h.noBusErr, h.noNack, h.state]

theorem step_seq_write (hk : s.ctrl? c = some k) (h : k.SeqReady .write) :
    step (s.withEvent (.seq c)) = seqWrite s c k := by
  simp [step_withEvent, runEvent, onAgent_some hk, seqReady_enabled h rfl, seqStep, h.noBusErr, h.noNack, h.state]

theorem step_seq_read (hk : s.ctrl? c = some k) (h : k.SeqReady .read) :
    step (s.withEvent (.seq c)) = seqRead s c k := by
  simp [step_withEvent, runEvent, onAgent_some hk, seqReady_enabled h rfl, seqStep, h.noBusErr, h.noNack, h.state]

theorem step_eng (hk : s.ctrl? c = some k) (h : k.EngReady) (hq : k.bus.eq ≠ [] ∨ k.bus.rxPending = true) :
    step (s.withEvent (.eng c)) = .next (engStep s c k) := by
  simp [step_withEvent, runEvent, onAgent_some hk, engReady_enabled h hq]

theorem engStep_start {rest : List BusAction} (h : k.bus.eq = .start :: rest) :
    engStep s c k = s.setCtrl c (k.engStart rest) := by
  rw [engStep, h]

theorem engStep_send {v : Byte} {rest : List BusAction} (h : k.bus.eq = .send v :: rest) :
    engStep s c k = s.draw.2.setCtrl c (k.engSend v rest (drawnAck s.draw.1)) := by
  rw [engStep, h]

theorem engStep_stop {rest : List BusAction} (h : k.bus.eq = .stop :: rest) :
    engStep s c k = s.setCtrl c (k.engStop rest) := by
  rw [engStep, h]

theorem engStep_receive (h : k.bus.eq = []) :
    engStep s c k = s.draw.2.setCtrl c (k.engReceive s.draw.1) := by
  rw [engStep, h]

/-- The orchestrator of a controller in no recovery, whose transfer has completed. -/
theorem step_orch_completed (hk : s.ctrl? c = some k) (hrec : k.orch.recPhase = .none) (hph : k.orch.phase = .wait)
    (hd : k.done = true) : step (s.withEvent (.orch c)) = .next (completion s c k) := by
  simp [step_withEvent, runEvent, onAgent_some hk, Ctrl.orchEnabled, hrec, Ctrl.completed, hph, hd, orchStep]

theorem completion_ok (h : k.record.errorCode = .ok) :
    completion s c k = release s c { k with done := false } .ok 0 := by
  simp [completion, h]

end Steps

section During

variable {s : State} {r : Byte} {q : Requester} {c : Nat} {m : Memory} {ds : List Byte} {k k' : Ctrl}

/-! ## The block while a transfer runs -/

/-- The block `s` while a command of requester `r` runs on controller `c`: what the run has changed by now are the
memory, the answers of Env still to come and that controller. -/
def State.during (s : State) (r : Byte) (c : Nat) (m : Memory) (ds : List Byte) (k : Ctrl) : State :=
  { s.setOutstanding r with mem := m, draws := ds, ctrls := s.ctrls.set c k }

theorem setOutstanding_setCtrl (s : State) (r : Byte) (c : Nat) (k : Ctrl) :
    (s.setOutstanding r).setCtrl c k = s.during r c s.mem s.draws k := by
  simp only [State.during, State.setCtrl, ← setOutstanding_mem s r, ← setOutstanding_draws s r, setOutstanding_ctrls]

@[simp] theorem during_setCtrl : (s.during r c m ds k).setCtrl c k' = s.during r c m ds k' := by
  simp [State.during, State.setCtrl]

theorem during_ctrl? (hk : s.ctrl? c = some k) : (s.during r c m ds k').ctrl? c = some k' :=
  (ctrl?_setCtrl s c k' hk c).trans (if_pos rfl)

@[simp] theorem during_mem : (s.during r c m ds k).mem = m := rfl
@[simp] theorem during_params : (s.during r c m ds k).params = s.params := setOutstanding_params ..
@[simp] theorem during_req? (r' : Byte) : (s.during r c m ds k).req? r' = (s.setOutstanding r).req? r' := rfl
@[simp] theorem during_draw (d : Byte) : (s.during r c m (d :: ds) k).draw = (d, s.during r c m ds k) := rfl

/-- The locations of the running requester are in the buffer space. -/
theorem during_inBuffers (h : s.Ready r q) {i : Nat} (hi : i < s.params.bufBytes) :
    (s.during r c m ds k).inBuffers r i = true := by
  simp [State.inBuffers, req?_setOutstanding, h.exists_, hi]

theorem during_txByte (h : s.Ready r q) {i : Nat} (hi : i < s.params.bufBytes) :
    (s.during r c m ds k).txByte r i = some (m.read (txAddr r i)) := by
  simp [State.txByte, during_inBuffers h hi]

theorem during_rxStore (h : s.Ready r q) {i : Nat} (hi : i < s.params.bufBytes) (v : Byte) :
    (s.during r c m ds k).rxStore r i v = some (s.during r c (m.write (rxAddr r i) v) ds k) := by
  simp only [State.rxStore, during_inBuffers h hi, if_true]
  rfl

/-! ## The end of a transfer that succeeds (40_commands.md R122, R125, 41_sequencer.md R184) -/

/-- A transfer of requester `r` has completed with Ok on controller `k`, and its STOP is in the queue. -/
structure Ctrl.Stopping (k : Ctrl) (r : Byte) : Prop where
  ready : k.EngReady
  queue : k.bus.eq = [.stop]
  busy : k.bus.busy = true
  state : k.record.opState = .idle
  ok : k.record.errorCode = .ok
  done : k.done = true
  phase : k.orch.phase = .wait
  noRecovery : k.orch.recPhase = .none
  curReq : k.orch.curReq = r

/-- The state after the STOP and the release. -/
def State.answered (s : State) (r : Byte) (c : Nat) (m : Memory) (ds : List Byte) (k : Ctrl) : State :=
  (s.during r c m ds { k.engStop [] with done := false }.released).respond r .ok 0

theorem Ctrl.Stopping.run (h : k.Stopping r) {k0 : Ctrl} (hk : s.ctrl? c = some k0) :
    runEvents [.eng c, .orch c] (s.during r c m ds k) = some (s.answered r c m ds k) := by
  have hrec : (k.engStop []).record = k.record := by simp [Ctrl.engStop, h.busy, Ctrl.emit]
  have horch : (k.engStop []).orch = k.orch := by simp [Ctrl.engStop, h.busy, Ctrl.emit]
  have hdone : (k.engStop []).done = k.done := by simp [Ctrl.engStop, h.busy, Ctrl.emit]
  rw [runEvents_cons (step_eng (during_ctrl? hk) h.ready (.inl (by simp [h.queue]))), engStep_stop h.queue,
    during_setCtrl,
    runEvents_cons (step_orch_completed (during_ctrl? hk) (by rw [horch, h.noRecovery]) (by rw [horch, h.phase])
      (by rw [hdone, h.done])), completion_ok (by rw [hrec, h.ok])]
  simp [runEvents, release, State.answered, Ctrl.released, horch, h.curReq]

/-- What a whole transfer shows at its end: the trace, the controller Idle, free and off the bus, and the answer. -/
theorem Ctrl.Stopping.answered (h : k.Stopping r) {k0 : Ctrl} (hk : s.ctrl? c = some k0) (hr : s.Ready r q) :
    ∃ k', (s.answered r c m ds k).ctrl? c = some k' ∧ k'.trace = k.trace ++ [.p] ∧ k'.record.opState = .idle ∧
      k'.record.owner = 0 ∧ k'.bus.busy = false ∧
      (s.answered r c m ds k).responsesOf r = s.responsesOf r ++ [responseWord .ok 0] := by
  refine ⟨_, (respond_ctrl? ..).trans (during_ctrl? hk), ?_, ?_, rfl, rfl, ?_⟩
  · simp [Ctrl.released, Ctrl.engStop, h.busy, Ctrl.emit]
  · simp [Ctrl.released, Ctrl.engStop, h.busy, Ctrl.emit, h.state]
  · simp [State.answered, State.responsesOf, req?_respond, req?_setOutstanding, hr.exists_]

end During

section Running

variable {k : Ctrl} {x : TransferArgs} {b : Bus} {st : OpState} {i : Nat} {tr : List TraceSym} {r : Byte}

/-! ## A controller that runs a transfer (40_commands.md R117, R118) -/

/-- Controller `k`, taken for transfer `x`, after arming: in state `st` with the cursor at `i`, its bus side `b`, and
`tr` put on the bus so far. -/
def Ctrl.running (k : Ctrl) (x : TransferArgs) (st : OpState) (i : Nat) (b : Bus) (tr : List TraceSym) : Ctrl :=
  { k with
    record :=
      { k.record with
        flagStart := x.fs, flagStop := x.fp, txLen := x.tx, rxLen := x.rx, targetAddress := x.addr, errorCode := .ok
        waitBudgetUs := k.record.timeoutUs, opState := st, cursor := BitVec.ofNat 16 i }
    ie := true
    done := false
    bus := b
    orch := { k.orch with timedOut := false, phase := .wait }
    trace := k.trace ++ tr }

/-- The same controller after its last byte: the transfer has completed. -/
def Ctrl.ended (k : Ctrl) (x : TransferArgs) (i : Nat) (b : Bus) (tr : List TraceSym) : Ctrl :=
  { k.running x .idle i b tr with ie := false, done := true }

theorem ended_trace : (k.ended x i b tr).trace = k.trace ++ tr := rfl

/-- The bus side `b` with the bus busy, the queue empty, no byte owed and a byte position ready. -/
def Bus.held (b : Bus) (afterStart : Bool) (mode : Mode) : Bus :=
  { b with eq := [], busy := true, rdy := true, rxPending := false, afterStart := afterStart, mode := mode }

/-- The bus side `b` with byte `v` to send in the queue. -/
def Bus.sending (b : Bus) (v : Byte) (afterStart : Bool) : Bus :=
  { b.held afterStart .tx with rdy := false, eq := [.send v] }

/-- The bus side `b` with a byte to receive, which is to be answered NACK where `armed`. -/
def Bus.awaiting (b : Bus) (armed : Bool) : Bus :=
  { b.held false .rx with rdy := false, rxPending := true, nackArmed := armed }

/-- The bus side `b` with byte `v` received. -/
def Bus.received (b : Bus) (v : Byte) : Bus := { b.held false .rx with nackArmed := false, data := v }

/-- The bus side `b` with a STOP in the queue. -/
def Bus.stopping (b : Bus) : Bus := { b with eq := [.stop], rdy := false }

/-- `b` is enabled and has no fault flag (41_sequencer.md R180). -/
structure Bus.Clear (b : Bus) : Prop where
  enabled : b.enabled = true
  noBusErr : b.busErr = false
  noNack : b.nackFlag = false

theorem Bus.Clear.held (h : b.Clear) (f md) : (b.held f md).Clear := ⟨h.enabled, h.noBusErr, h.noNack⟩
theorem Bus.Clear.arm (h : b.Clear) (n : Bool) : Bus.Clear { b with nackArmed := n } :=
  ⟨h.enabled, h.noBusErr, h.noNack⟩
theorem Bus.Clear.received (h : b.Clear) (v) : (b.received v).Clear := ⟨h.enabled, h.noBusErr, h.noNack⟩

theorem Bus.Clear.push (h : b.Clear) (a : BusAction) : b.push a = { b with eq := b.eq ++ [a] } :=
  push_clear b a h.enabled h.noBusErr h.noNack

theorem Bus.Clear.send (h : b.Clear) (v : Byte) : b.send v = { b with rdy := false, eq := b.eq ++ [.send v] } :=
  push_clear _ _ h.enabled h.noBusErr h.noNack

theorem seqReady_running (h : b.Clear) (hrdy : b.rdy = true) : (k.running x st i b tr).SeqReady st :=
  ⟨h.enabled, rfl, rfl, h.noBusErr, h.noNack, hrdy⟩

theorem stopping_ended (h : b.Clear) (hbusy : b.busy = true) (hrec : k.orch.recPhase = .none)
    (hcur : k.orch.curReq = r) : (k.ended x i b.stopping tr).Stopping r :=
  ⟨⟨h.enabled, h.noBusErr, h.noNack⟩, rfl, hbusy, rfl, rfl, rfl, rfl, hrec, hcur⟩

/-! ## The rows of the sequencer and the actions of the engine in a transfer -/

theorem load_pushStart_beginWait (h : k.bus.Clear) (hq : k.bus.eq = []) :
    (k.load x).pushStart.beginWait .start = k.running x .start 0 { k.bus with rdy := false, eq := [.start] } [] := by
  have hpush : ({ k.bus with rdy := false } : Bus).push .start = { k.bus with rdy := false, eq := [.start] } := by
    rw [push_clear _ _ (by exact h.enabled) (by exact h.noBusErr) (by exact h.noNack)]
    simp [hq]
  simp [Ctrl.load, Ctrl.pushStart, Ctrl.beginWait, Ctrl.running, hpush]

/-- START on an idle bus (41_sequencer.md R181). -/
theorem engStart_running (hbusy : b.busy = false) :
    (k.running x st i { b with rdy := false, eq := [.start] } tr).engStart [] =
      k.running x st i (b.held true .tx) (tr ++ [.s]) := by
  simp [Ctrl.engStart, Ctrl.emit, Ctrl.running, Bus.held, hbusy]

theorem Bus.Clear.held_send (h : b.Clear) (f : Bool) (v : Byte) : (b.held f .tx).send v = b.sending v f :=
  (h.held f .tx).send v

/-- The address byte of a write (41_sequencer.md R163). -/
theorem rowAddress_write (h : b.Clear) (htx : x.tx ≠ 0) :
    (k.running x .start i (b.held true .tx) tr).rowAddress =
      k.running x .write i (b.sending (addrWrite x.addr) true) tr := by
  have htx' : ¬(k.running x .start i (b.held true .tx) tr).record.txLen = 0 := htx
  rw [Ctrl.rowAddress, if_neg htx']
  simp [Ctrl.running, h.held_send]

/-- The address byte of a read; the NACK of a one-byte read is armed (41_sequencer.md R163). -/
theorem rowAddress_read (h : b.Clear) (harm : b.nackArmed = false) (htx : x.tx = 0) :
    (k.running x .start i (b.held true .tx) tr).rowAddress =
      k.running x .read i ({ b with nackArmed := decide (x.rx = 1) }.sending (addrRead x.addr) true) tr := by
  have htx' : (k.running x .start i (b.held true .tx) tr).record.txLen = 0 := htx
  have hsend : ∀ n, ({ b.held true .tx with nackArmed := n } : Bus).send (addrRead x.addr) =
      ({ b with nackArmed := n } : Bus).sending (addrRead x.addr) true := fun n =>
    (h.arm n).held_send true (addrRead x.addr)
  have harm' : (if x.rx = 1 then true else (b.held true .tx).nackArmed) = decide (x.rx = 1) := by
    simp [Bus.held, harm]
  rw [Ctrl.rowAddress, if_pos htx', ← harm']
  exact congrArg (fun b' => k.running x .read i b' tr) (hsend _)

/-- An acknowledged byte that is no read address (41_sequencer.md R182). -/
theorem engSendAck_write {v : Byte} {f : Bool} (hv : (f && v.getLsbD 0) = false) :
    (k.running x st i (b.sending v f) tr).engSendAck v [] =
      k.running x st i (b.held false .tx) (tr ++ [.w v .ack]) := by
  have hv' : ((k.running x st i (b.sending v f) tr).bus.afterStart && v.getLsbD 0) = false := hv
  rw [Ctrl.engSendAck, hv']
  simp [Ctrl.emit, Ctrl.running, Bus.sending, Bus.held]

/-- An acknowledged read address (41_sequencer.md R182). -/
theorem engSendAck_read {v : Byte} (hv : v.getLsbD 0 = true) :
    (k.running x st i (b.sending v true) tr).engSendAck v [] =
      k.running x st i (b.awaiting b.nackArmed) (tr ++ [.w v .ack]) := by
  rw [Ctrl.engSendAck, hv]
  simp [Ctrl.emit, Ctrl.running, Bus.sending, Bus.awaiting, Bus.held]

/-- A byte of the transmit buffer (41_sequencer.md R164). -/
theorem rowWriteByte_running (h : b.Clear) (v : Byte) :
    (k.running x .write i (b.held false .tx) tr).rowWriteByte v =
      k.running x .write (i + 1) (b.sending v false) tr := by
  simp [Ctrl.rowWriteByte, Ctrl.running, h.held_send, BitVec.ofNat_add]

/-- The end of a write with the STOP flag (41_sequencer.md R165). -/
theorem rowWriteEnd_running (h : b.Clear) (hfp : x.fp = true) (hq : b.eq = []) :
    (k.running x .write i b tr).rowWriteEnd = k.ended x i b.stopping tr := by
  simp [Ctrl.rowWriteEnd, Ctrl.running, Ctrl.ended, hfp, h.push, hq, Bus.stopping]

/-- A byte received (41_sequencer.md R183). -/
theorem engReceive_running (armed : Bool) (v : Byte) :
    (k.running x st i (b.awaiting armed) tr).engReceive v =
      k.running x st i (b.received v) (tr ++ [.r v (if armed then .nack else .ack)]) := by
  rw [Ctrl.engReceive, Ctrl.emit, Ctrl.running, List.append_assoc]
  rfl

/-- A cursor up to a length is the number it stands for. -/
theorem cursor_running {n : Half} (hi : i ≤ n.toNat) : (k.running x st i b tr).record.cursor.toNat = i := by
  have hn := n.isLt
  exact Nat.mod_eq_of_lt (by omega)

/-- Before a byte that is not the last, by a transfer with the STOP flag: the NACK of the last byte is armed at the byte
before it (41_sequencer.md R168). -/
theorem rowReadArm_next (hfp : x.fp = true) (hi : i + 1 < x.rx.toNat) :
    (k.running x .read i b tr).rowReadArm =
      k.running x .read i { b with nackArmed := decide (i + 2 = x.rx.toNat) || b.nackArmed } tr := by
  have hcur : (k.running x .read i b tr).record.cursor.toNat = i := cursor_running (n := x.rx) (by omega)
  have hrx : (k.running x .read i b tr).record.rxLen = x.rx := rfl
  have hflag : (k.running x .read i b tr).record.flagStop = true := hfp
  rw [Ctrl.rowReadArm, hcur, hrx, hflag, if_neg (by omega)]
  by_cases h2 : i + 2 = x.rx.toNat
  · simp [h2, Ctrl.running]
  · simp [h2]

/-- Before the last byte, by a transfer with the STOP flag: the STOP is queued (41_sequencer.md R167). -/
theorem rowReadArm_last (h : b.Clear) (hq : b.eq = []) (hfp : x.fp = true) (hi : i + 1 = x.rx.toNat) :
    (k.running x .read i b tr).rowReadArm = k.running x .read i { b with eq := [.stop] } tr := by
  have hcur : (k.running x .read i b tr).record.cursor.toNat = i := cursor_running (n := x.rx) (by omega)
  have hrx : (k.running x .read i b tr).record.rxLen = x.rx := rfl
  have hflag : (k.running x .read i b tr).record.flagStop = true := hfp
  rw [Ctrl.rowReadArm, hcur, hrx, hflag, if_pos hi, if_pos rfl]
  simp [Ctrl.running, h.push, hq]

theorem rowReadByte_running :
    (k.running x .read i b tr).rowReadByte = k.running x .read (i + 1) b.readData tr := by
  simp [Ctrl.rowReadByte, Ctrl.running, BitVec.ofNat_add]

/-- The cursor reaches the read length at its own number only. -/
theorem cursor_running_eq_rx (hi : i ≤ x.rx.toNat) :
    (k.running x st i b tr).record.cursor = (k.running x st i b tr).record.rxLen ↔ i = x.rx.toNat := by
  rw [← BitVec.toNat_inj, cursor_running hi]
  rfl

/-- A byte taken that is not the last, by a transfer with the STOP flag: the engine owes the next, and the NACK of the
last is armed before it (41_sequencer.md R168, R169, R186). -/
theorem rowRead_next (hfp : x.fp = true) (v : Byte) (hi : i + 1 < x.rx.toNat) :
    (k.running x .read i (b.received v) tr).rowRead =
      k.running x .read (i + 1) ({ b with data := v }.awaiting (decide (i + 2 = x.rx.toNat))) tr := by
  rw [Ctrl.rowRead, rowReadArm_next hfp hi, rowReadByte_running, Ctrl.rowReadEnd,
    if_neg (by rw [cursor_running_eq_rx (by omega)]; omega)]
  simp [Bus.received, Bus.readData, Bus.stopQueued, Bus.awaiting, Bus.held]

/-- The last byte taken, by a transfer with the STOP flag (41_sequencer.md R167, R169, R170). -/
theorem rowRead_last (h : b.Clear) (hfp : x.fp = true) (v : Byte) (hi : i + 1 = x.rx.toNat) :
    (k.running x .read i (b.received v) tr).rowRead = k.ended x (i + 1) (b.received v).stopping tr := by
  have hbus : ({ b.received v with eq := [.stop] } : Bus).readData = (b.received v).stopping := rfl
  rw [Ctrl.rowRead, rowReadArm_last (h.received v) rfl hfp hi, rowReadByte_running, hbus, Ctrl.rowReadEnd,
    if_pos ((cursor_running_eq_rx (by omega)).2 hi)]
  simp [Ctrl.running, Ctrl.ended, hfp]

end Running

section Start

variable {s : State} {r p a : Byte} {q : Requester} {c : Nat} {k : Ctrl} {e : PortEntry} {x : TransferArgs} {n m : Half}

/-! ## A transfer starts on a free and idle controller (40_commands.md R111 to R118, R130) -/

/-- The word of an XFER.SP decodes to it (30_encoding.md R81). -/
theorem decodeWord_encodeWord_xferSP (r p a : Byte) (n m : Half) :
    decodeWord (encodeWord (.xferSP r p a n m)) = .ok (.xferSP r p a n m) := by
  have hop : opField (packX .xferSP r p a n m) = Opcode.byte .xferSP := opField_packArg ..
  have hreq : reqField (packX .xferSP r p a n m) = r := reqField_packArg ..
  have hidx : idxField (packX .xferSP r p a n m) = p := idxField_packArg ..
  have haddr : addrField (packX .xferSP r p a n m) = a := addrField_packArg ..
  simp only [encodeWord, decodeWord, hop, ofByte_byte, reservedError, assemble, hreq, hidx, haddr, txLenField_packX,
    rxLenField_packX]

theorem step_xferSP (s : State) (r p a : Byte) (n m : Half) :
    step (s.withEvent (.command r (encodeWord (.xferSP r p a n m)))) = exec (.xferSP r p a n m) s :=
  acceptWord_of_decode (decodeWord_encodeWord_xferSP r p a n m) (reqField_packArg ..)

/-- Requester `r`, which is `q`, may send a transfer of `n` bytes out and `m` bytes in over port `p`, and in a sound
block finds controller `k` free and Idle and its bus idle. -/
structure State.Finds (s : State) (r : Byte) (q : Requester) (p : Byte) (e : PortEntry) (k : Ctrl) (n m : Half) :
    Prop where
  inv : s.Inv
  busInv : s.BusInv
  ready : s.Ready r q
  port : s.PortOn p e k
  lengths : s.LengthsOk n m
  free : k.record.owner = 0
  idle : k.record.opState = .idle
  notBusy : k.bus.busy = false
  noBusErr : k.bus.busErr = false
  empty : k.bus.eq = []
  lines : s.params.linesModel = .idleWhenNotBusy

/-- A free controller of a sound block is enabled, in no recovery and under no NACK. -/
theorem State.Finds.clear (h : s.Finds r q p e k n m) : k.bus.Clear ∧ k.orch.recPhase = .none := by
  obtain ⟨hph, hrec, hen, _⟩ := (h.inv.sound _ _ h.port.ctrl).free h.free
  refine ⟨⟨hen, h.noBusErr, ?_⟩, hrec⟩
  by_contra hn
  obtain ⟨hw, _⟩ := (h.busInv.sound _ _ h.port.ctrl).nacks (by simpa using hn)
  rw [hph] at hw
  cases hw

/-- Taking a controller writes the owner, the running command and the mux (40_commands.md R111, R114, R116). -/
theorem take_eq (k : Ctrl) (s : State) (r p : Byte) (x : TransferArgs) :
    ∃ pin, k.take s.params.portMap r p x =
      { k with
        record := { k.record with owner := r }
        pinSet := pin
        orch := { k.orch with curReq := r, curPort := p, cmd := .transfer x } } :=
  ⟨_, applyMux_eq _ s p⟩

theorem drawLines_idle (h : s.params.linesModel = .idleWhenNotBusy) :
    s.drawLines false = ({ sda := true, scl := true }, s) := by
  unfold State.drawLines
  rw [h]

/-- The bus-idle test passes on an idle bus (40_commands.md R115, 60_exceptions.md R275). -/
theorem preCheck_idle (hl : s.params.linesModel = .idleWhenNotBusy) (hbusy : k.bus.busy = false) :
    preCheck s c k x = stepB s c k x := by
  unfold preCheck
  rw [hbusy, drawLines_idle hl]
  split
  · exact if_neg (by simp [Lines.high])
  · rfl

theorem stepB_idle (hst : k.record.opState = .idle) :
    stepB s c k x = .next (s.setCtrl c ((k.load x).pushStart.beginWait .start)) := by
  simp only [stepB, Ctrl.arm, Ctrl.load, hst]

/-- XFER.SP takes the controller and arms it: `k1` is the controller taken. -/
theorem State.Finds.exec_xferSP (h : s.Finds r q p e k n m) (hx : x = ⟨true, true, n, m, a⟩) :
    ∃ k1 : Ctrl, exec (.xferSP r p a n m) s =
        .next (s.during r e.ctrl s.mem s.draws (k1.running x .start 0 { k.bus with rdy := false, eq := [.start] } [])) ∧
      k1.record.owner = r ∧ k1.orch.curReq = r ∧ k1.orch.recPhase = .none ∧ k1.trace = k.trace := by
  subst hx
  obtain ⟨hclear, hrec⟩ := h.clear
  obtain ⟨pin, htake⟩ := take_eq k s r p ⟨true, true, n, m, a⟩
  refine ⟨_, ?_, congrArg (·.record.owner) htake, congrArg (·.orch.curReq) htake,
    (congrArg (·.orch.recPhase) htake).trans hrec, congrArg (·.trace) htake⟩
  have hbus : (k.take s.params.portMap r p ⟨true, true, n, m, a⟩).bus = k.bus := congrArg (·.bus) htake
  have hst : (k.take s.params.portMap r p ⟨true, true, n, m, a⟩).record.opState = .idle :=
    (congrArg (·.record.opState) htake).trans h.idle
  rw [← hbus]
  rw [← hbus] at hclear
  calc exec (.xferSP r p a n m) s
      = preCheck (s.setOutstanding r) e.ctrl (k.take s.params.portMap r p ⟨true, true, n, m, a⟩)
          ⟨true, true, n, m, a⟩ := (transfer_ok h.ready h.port h.lengths).trans (if_neg (not_not_intro h.free))
    _ = stepB (s.setOutstanding r) e.ctrl (k.take s.params.portMap r p ⟨true, true, n, m, a⟩) ⟨true, true, n, m, a⟩ :=
        preCheck_idle (by rw [setOutstanding_params, h.lines]) (by rw [hbus, h.notBusy])
    _ = _ := by rw [stepB_idle hst, load_pushStart_beginWait hclear (by rw [hbus, h.empty]), setOutstanding_setCtrl]

end Start

section Rounds

variable {s : State} {r : Byte} {q : Requester} {c : Nat} {m : Memory} {ds : List Byte} {k0 k : Ctrl}
  {x : TransferArgs} {b : Bus} {st : OpState} {i : Nat} {tr : List TraceSym} {es : List Event}

/-! ## The steps of a transfer, in the block -/

theorem runEvents_engStart (hk : s.ctrl? c = some k0) (h : b.Clear) (hbusy : b.busy = false) :
    runEvents (.eng c :: es) (s.during r c m ds (k.running x st i { b with rdy := false, eq := [.start] } tr)) =
      runEvents es (s.during r c m ds (k.running x st i (b.held true .tx) (tr ++ [.s]))) := by
  rw [runEvents_cons (step_eng (during_ctrl? hk) ⟨h.enabled, h.noBusErr, h.noNack⟩ (.inl (List.cons_ne_nil _ _))),
    engStep_start (rest := []) rfl, during_setCtrl, engStart_running hbusy]

/-- XFER.SP is accepted and its START is on the bus: `k1` is the controller taken. -/
theorem State.Finds.runEvents_start {p a : Byte} {e : PortEntry} {n m : Half} (h : s.Finds r q p e k n m)
    (hx : x = ⟨true, true, n, m, a⟩) :
    ∃ k1 : Ctrl, runEvents [.command r (encodeWord (.xferSP r p a n m)), .eng e.ctrl] s =
        some (s.during r e.ctrl s.mem s.draws (k1.running x .start 0 (k.bus.held true .tx) [.s])) ∧
      k1.record.owner = r ∧ k1.orch.curReq = r ∧ k1.orch.recPhase = .none ∧ k1.trace = k.trace := by
  obtain ⟨k1, hexec, hk1⟩ := h.exec_xferSP hx
  obtain ⟨hclear, _⟩ := h.clear
  refine ⟨k1, ?_, hk1⟩
  rw [runEvents_cons ((step_xferSP ..).trans hexec), runEvents_engStart h.port.ctrl hclear h.notBusy]
  rfl

theorem drawnAck_zero : drawnAck 0 = .ack := by decide

/-- The engine sends a byte that the device acknowledges. -/
theorem runEvents_engSend (hk : s.ctrl? c = some k0) (h : b.Clear) (v : Byte) (f : Bool) :
    runEvents (.eng c :: es) (s.during r c m (0 :: ds) (k.running x st i (b.sending v f) tr)) =
      runEvents es (s.during r c m ds ((k.running x st i (b.sending v f) tr).engSendAck v [])) := by
  rw [runEvents_cons (step_eng (during_ctrl? hk) ⟨h.enabled, h.noBusErr, h.noNack⟩ (.inl (List.cons_ne_nil _ _))),
    engStep_send (v := v) (rest := []) rfl, during_draw, during_setCtrl]
  simp only [drawnAck_zero, Ctrl.engSend]

theorem runEvents_engReceive (hk : s.ctrl? c = some k0) (h : b.Clear) (armed : Bool) (v : Byte) :
    runEvents (.eng c :: es) (s.during r c m (v :: ds) (k.running x st i (b.awaiting armed) tr)) =
      runEvents es (s.during r c m ds
        (k.running x st i (b.received v) (tr ++ [.r v (if armed then .nack else .ack)]))) := by
  rw [runEvents_cons (step_eng (during_ctrl? hk) ⟨h.enabled, h.noBusErr, h.noNack⟩ (.inr rfl)),
    engStep_receive rfl, during_draw, during_setCtrl, engReceive_running]

/-- The address phase of a write. -/
theorem runEvents_addressWrite (hk : s.ctrl? c = some k0) (h : b.Clear) (htx : x.tx ≠ 0) :
    runEvents [.seq c, .eng c] (s.during r c m (0 :: ds) (k.running x .start 0 (b.held true .tx) tr)) =
      some (s.during r c m ds (k.running x .write 0 (b.held false .tx) (tr ++ [.w (addrWrite x.addr) .ack]))) := by
  rw [runEvents_cons (step_seq_start (during_ctrl? hk) (seqReady_running (h.held true .tx) rfl)), during_setCtrl,
    rowAddress_write h htx, runEvents_engSend hk h, engSendAck_write (by simp [addrWrite])]
  rfl

/-- One byte of a write. -/
theorem runEvents_writeByte (hk : s.ctrl? c = some k0) (hr : s.Ready r q) (ho : k.record.owner = r) (h : b.Clear)
    (hn : x.tx.toNat ≤ s.params.bufBytes) (hi : i < x.tx.toNat) :
    runEvents [.seq c, .eng c] (s.during r c m (0 :: ds) (k.running x .write i (b.held false .tx) tr)) =
      some (s.during r c m ds
        (k.running x .write (i + 1) (b.held false .tx) (tr ++ [.w (m.read (txAddr r i)) .ack]))) := by
  have hseq : seqWrite (s.during r c m (0 :: ds) (k.running x .write i (b.held false .tx) tr)) c
      (k.running x .write i (b.held false .tx) tr) =
        .next (s.during r c m (0 :: ds) (k.running x .write (i + 1) (b.sending (m.read (txAddr r i)) false) tr)) := by
    have hown : (k.running x .write i (b.held false .tx) tr).record.owner = r := ho
    have htx : (k.running x .write i (b.held false .tx) tr).record.txLen = x.tx := rfl
    rw [seqWrite, cursor_running hi.le, htx, if_pos hi, hown, during_txByte hr (by omega)]
    simp only [during_setCtrl, rowWriteByte_running h]
  rw [runEvents_cons ((step_seq_write (during_ctrl? hk) (seqReady_running (h.held false .tx) rfl)).trans hseq),
    runEvents_engSend hk h, engSendAck_write rfl]
  rfl

/-- The end of a write with the STOP flag and no read. -/
theorem runEvents_writeEnd (hk : s.ctrl? c = some k0) (h : b.Clear) (hfp : x.fp = true) (hrx : x.rx = 0) :
    runEvents [.seq c] (s.during r c m ds (k.running x .write x.tx.toNat (b.held false .tx) tr)) =
      some (s.during r c m ds (k.ended x x.tx.toNat (b.held false .tx).stopping tr)) := by
  have hseq : seqWrite (s.during r c m ds (k.running x .write x.tx.toNat (b.held false .tx) tr)) c
      (k.running x .write x.tx.toNat (b.held false .tx) tr) =
        .next (s.during r c m ds (k.ended x x.tx.toNat (b.held false .tx).stopping tr)) := by
    have htx : (k.running x .write x.tx.toNat (b.held false .tx) tr).record.txLen = x.tx := rfl
    have hrx' : (k.running x .write x.tx.toNat (b.held false .tx) tr).record.rxLen = 0 := hrx
    rw [seqWrite, cursor_running le_rfl, htx, if_neg (lt_irrefl _), if_neg (lt_irrefl _), if_pos hrx', during_setCtrl,
      rowWriteEnd_running (h.held false .tx) hfp rfl]
  rw [runEvents_cons ((step_seq_write (during_ctrl? hk) (seqReady_running (h.held false .tx) rfl)).trans hseq)]
  rfl

/-- The address phase of a read: the engine owes the first byte. -/
theorem runEvents_addressRead (hk : s.ctrl? c = some k0) (h : b.Clear) (harm : b.nackArmed = false) (htx : x.tx = 0) :
    runEvents [.seq c, .eng c] (s.during r c m (0 :: ds) (k.running x .start 0 (b.held true .tx) tr)) =
      some (s.during r c m ds
        (k.running x .read 0 (b.awaiting (decide (x.rx = 1))) (tr ++ [.w (addrRead x.addr) .ack]))) := by
  rw [runEvents_cons (step_seq_start (during_ctrl? hk) (seqReady_running (h.held true .tx) rfl)), during_setCtrl,
    rowAddress_read h harm htx, runEvents_engSend hk (h.arm _), engSendAck_read (by simp [addrRead])]
  rfl

theorem seqRead_running (hr : s.Ready r q) (ho : k.record.owner = r) (hi : i < x.rx.toNat)
    (hm : x.rx.toNat ≤ s.params.bufBytes) (v : Byte) :
    seqRead (s.during r c m ds (k.running x .read i (b.received v) tr)) c (k.running x .read i (b.received v) tr) =
      .next (s.during r c (m.write (rxAddr r i) v) ds (k.running x .read i (b.received v) tr).rowRead) := by
  have hown : (k.running x .read i (b.received v) tr).record.owner = r := ho
  have hrx : (k.running x .read i (b.received v) tr).record.rxLen = x.rx := rfl
  rw [seqRead, cursor_running hi.le, hrx, if_neg (by omega), hown, during_rxStore hr (by omega)]
  simp only [during_setCtrl]
  rfl

/-- One byte of a read that is not the last, and the next byte. -/
theorem runEvents_readByte (hk : s.ctrl? c = some k0) (hr : s.Ready r q) (ho : k.record.owner = r) (h : b.Clear)
    (hfp : x.fp = true) (hm : x.rx.toNat ≤ s.params.bufBytes) (hi : i + 1 < x.rx.toNat) (v v' : Byte) :
    runEvents [.seq c, .eng c] (s.during r c m (v' :: ds) (k.running x .read i (b.received v) tr)) =
      some (s.during r c (m.write (rxAddr r i) v) ds
        (k.running x .read (i + 1) (b.received v') (tr ++ [.r v' (if i + 2 = x.rx.toNat then .nack else .ack)]))) := by
  rw [runEvents_cons ((step_seq_read (during_ctrl? hk) (seqReady_running (h.received v) rfl)).trans
    (seqRead_running hr ho (by omega) hm v)), rowRead_next hfp v hi,
    runEvents_engReceive (b := { b with data := v }) hk ⟨h.enabled, h.noBusErr, h.noNack⟩]
  simp only [decide_eq_true_eq]
  rfl

/-- The last byte of a read with the STOP flag. -/
theorem runEvents_readLast (hk : s.ctrl? c = some k0) (hr : s.Ready r q) (ho : k.record.owner = r) (h : b.Clear)
    (hfp : x.fp = true) (hm : x.rx.toNat ≤ s.params.bufBytes) (hi : i + 1 = x.rx.toNat) (v : Byte) :
    runEvents [.seq c] (s.during r c m ds (k.running x .read i (b.received v) tr)) =
      some (s.during r c (m.write (rxAddr r i) v) ds (k.ended x (i + 1) (b.received v).stopping tr)) := by
  rw [runEvents_cons ((step_seq_read (during_ctrl? hk) (seqReady_running (h.received v) rfl)).trans
    (seqRead_running hr ho (by omega) hm v)), rowRead_last h hfp v hi]
  rfl

end Rounds

section Write

variable {s : State} {r : Byte} {q : Requester} {c : Nat} {m : Memory} {rest : List Byte} {k0 k : Ctrl}
  {x : TransferArgs} {b : Bus} {tr : List TraceSym}

/-! ## A whole write (40_commands.md R130, 41_sequencer.md R163 to R165) -/

/-- The block with `i` bytes of a write sent. -/
def State.writingAt (s : State) (r : Byte) (c : Nat) (m : Memory) (rest : List Byte) (k : Ctrl) (x : TransferArgs)
    (b : Bus) (tr : List TraceSym) (i : Nat) : State :=
  s.during r c m (List.replicate (x.tx.toNat - i) 0 ++ rest)
    (k.running x .write i (b.held false .tx)
      (tr ++ (List.range i).map (fun j => .w (m.read (txAddr r j)) .ack)))

/-- All bytes of a write: round `i` sends byte `i` of the transmit buffer. -/
theorem runEvents_writeBytes (hk : s.ctrl? c = some k0) (hr : s.Ready r q) (ho : k.record.owner = r) (h : b.Clear)
    (hn : x.tx.toNat ≤ s.params.bufBytes) :
    runEvents (List.replicate x.tx.toNat [Event.seq c, .eng c]).flatten
        (s.during r c m (List.replicate x.tx.toNat 0 ++ rest) (k.running x .write 0 (b.held false .tx) tr)) =
      some (s.during r c m rest (k.running x .write x.tx.toNat (b.held false .tx)
        (tr ++ (List.range x.tx.toNat).map (fun i => .w (m.read (txAddr r i)) .ack)))) := by
  have round : ∀ i, i < x.tx.toNat →
      runEvents [.seq c, .eng c] (s.writingAt r c m rest k x b tr i) =
        some (s.writingAt r c m rest k x b tr (i + 1)) := by
    intro i hi
    have hds : List.replicate (x.tx.toNat - i) (0 : Byte) = 0 :: List.replicate (x.tx.toNat - (i + 1)) 0 := by
      rw [← List.replicate_succ]
      congr 1
      omega
    rw [State.writingAt, hds, List.cons_append, runEvents_writeByte hk hr ho h hn hi, State.writingAt, List.range_succ,
      List.map_append, List.append_assoc]
    rfl
  simpa [State.writingAt] using runEvents_replicate _ round

/-- What a write of `x` puts on the bus before its STOP. -/
def TransferArgs.writeTrace (x : TransferArgs) (r : Byte) (m : Memory) : List TraceSym :=
  [.s, .w (addrWrite x.addr) .ack] ++ (List.range x.tx.toNat).map (fun i => .w (m.read (txAddr r i)) .ack)

/-- A write after its START: the address round, a round for each byte, the end. -/
theorem runEvents_write (hk : s.ctrl? c = some k0) (hr : s.Ready r q) (ho : k.record.owner = r) (h : b.Clear)
    (hfp : x.fp = true) (hrx : x.rx = 0) (htx : x.tx ≠ 0) (hn : x.tx.toNat ≤ s.params.bufBytes) :
    runEvents ((List.replicate (x.tx.toNat + 1) [Event.seq c, .eng c]).flatten ++ [.seq c])
        (s.during r c m (List.replicate (x.tx.toNat + 1) 0 ++ rest) (k.running x .start 0 (b.held true .tx) [.s])) =
      some (s.during r c m rest (k.ended x x.tx.toNat (b.held false .tx).stopping (x.writeTrace r m))) := by
  rw [List.replicate_succ, List.flatten_cons]
  exact runEvents_trans
    (runEvents_trans (runEvents_addressWrite hk h htx) (runEvents_writeBytes hk hr ho h hn))
    (runEvents_writeEnd hk h hfp hrx)

end Write

/-- Settles O59: acceptance and START, then the write up to its end, then STOP and the release. -/
theorem writeTransferOnTheBus : Obligations.WriteTransferOnTheBus := by
  unfold Obligations.WriteTransferOnTheBus
  intro s r q p a n e k rest hinv hbus hready hport hlen hfree hidle hbusy herr heq hlines hdraws
  have hf : s.Finds r q p e k n 0 := ⟨hinv, hbus, hready, hport, hlen, hfree, hidle, hbusy, herr, heq, hlines⟩
  obtain ⟨hclear, _⟩ := hf.clear
  obtain ⟨k1, hstart, hown, hcur, hrec, htrace⟩ := hf.runEvents_start (a := a) rfl
  rw [hdraws] at hstart
  have htx : n ≠ 0 := fun h0 => hlen.some_ ⟨h0, rfl⟩
  have hwrite := runEvents_write (x := ⟨true, true, n, 0, a⟩) (m := s.mem) (rest := rest) hport.ctrl hready hown hclear
    rfl rfl htx hlen.out
  have hstop := stopping_ended (x := ⟨true, true, n, 0, a⟩) (i := n.toNat)
    (tr := TransferArgs.writeTrace ⟨true, true, n, 0, a⟩ r s.mem) (hclear.held false .tx) rfl hrec hcur
  obtain ⟨k', hk', htr, hst, ho, hb, hans⟩ := hstop.answered (m := s.mem) (ds := rest) hport.ctrl hready
  refine ⟨_, k', ?_, hk', ?_, hst, ho, hb, respond_mem .., respond_draws .., hans⟩
  · have hrun := runEvents_trans hstart (runEvents_trans hwrite (hstop.run hport.ctrl))
    rw [List.append_assoc] at hrun ⊢
    exact hrun
  · rw [htr, ended_trace, htrace, TransferArgs.writeTrace, ← List.append_assoc]
    rfl

section Read

variable {s : State} {r : Byte} {q : Requester} {c : Nat} {m : Memory} {rest bs : List Byte} {k0 k : Ctrl}
  {x : TransferArgs} {b : Bus} {tr : List TraceSym}

/-! ## The receive buffer (20_memory.md R60, R61) -/

/-- The memory with the first `i` bytes of `bs` in the receive buffer of requester `r`. -/
def Memory.receive (m : Memory) (r : Byte) (bs : List Byte) : Nat → Memory
  | 0 => m
  | i + 1 => (m.receive r bs i).write (rxAddr r i) (bs.getD i 0)

/-- Every other byte reads as before. -/
theorem Memory.read_receive_other {i addr : Nat} (h : ∀ j, j < i → addr ≠ rxAddr r j) :
    Memory.read (m.receive r bs i) addr = m.read addr := by
  induction i with
  | zero => rfl
  | succ i ih =>
    rw [Memory.receive, Memory.read_write, if_neg (h i (by omega)), ih fun j hj => h j (by omega)]

/-- A byte received reads back, whatever is received after it. -/
theorem Memory.read_receive {i j : Nat} (hi : i ≤ 2 ^ 16) (hj : j < i) :
    Memory.read (m.receive r bs i) (rxAddr r j) = bs.getD j 0 := by
  induction i with
  | zero => omega
  | succ i ih =>
    rw [Memory.receive, Memory.read_write]
    by_cases hji : j = i
    · rw [hji, if_pos rfl]
    · have hne : rxAddr r j ≠ rxAddr r i := fun h => hji (rxAddr_inj (by omega) (by omega) h).2
      rw [if_neg hne, ih (by omega) (by omega)]

/-! ## A whole read (40_commands.md R130, 41_sequencer.md R163, R167 to R170) -/

/-- What the bus shows of byte `i` of a read of `bs`: the last byte is answered NACK (41_sequencer.md R183). -/
def receivedSym (bs : List Byte) (i : Nat) : TraceSym :=
  .r (bs.getD i 0) (if i + 1 = bs.length then .nack else .ack)

/-- What a read of `bs` by `x` puts on the bus before its STOP, up to byte `i`. -/
def TransferArgs.readTrace (x : TransferArgs) (bs : List Byte) (i : Nat) : List TraceSym :=
  [.s, .w (addrRead x.addr) .ack] ++ (List.range (i + 1)).map (receivedSym bs)

theorem readTrace_succ (x : TransferArgs) (bs : List Byte) (i : Nat) :
    x.readTrace bs (i + 1) = x.readTrace bs i ++ [receivedSym bs (i + 1)] := by
  rw [TransferArgs.readTrace, List.range_succ, List.map_append, ← List.append_assoc]
  rfl

/-- The bytes still to come after byte `i` begin with byte `i + 1`. -/
theorem drop_eq_getD_cons {i : Nat} (hi : i < bs.length) : bs.drop i = bs.getD i 0 :: bs.drop (i + 1) := by
  rw [List.drop_eq_getElem_cons hi, List.getD_eq_getElem _ _ hi]

/-- The block with byte `i` of a read received and not yet taken. -/
def State.readingAt (s : State) (r : Byte) (c : Nat) (m : Memory) (bs rest : List Byte) (k : Ctrl) (x : TransferArgs)
    (b : Bus) (i : Nat) : State :=
  s.during r c (m.receive r bs i) (bs.drop (i + 1) ++ rest)
    (k.running x .read i (b.received (bs.getD i 0)) (x.readTrace bs i))

/-- The address round of a read and its first byte. -/
theorem runEvents_readFirst (hk : s.ctrl? c = some k0) (h : b.Clear) (harm : b.nackArmed = false) (htx : x.tx = 0)
    (hlen : bs.length = x.rx.toNat) (hrx : 0 < bs.length) :
    runEvents [.seq c, .eng c, .eng c]
        (s.during r c m (0 :: (bs ++ rest)) (k.running x .start 0 (b.held true .tx) [.s])) =
      some (s.readingAt r c m bs rest k x b 0) := by
  have hds : bs ++ rest = bs.getD 0 0 :: (bs.drop 1 ++ rest) := by
    rw [← List.cons_append, ← drop_eq_getD_cons hrx, List.drop_zero]
  have hone : x.rx = 1 ↔ 0 + 1 = bs.length := by
    rw [hlen, ← BitVec.toNat_inj]
    exact eq_comm
  have haddr := runEvents_addressRead (r := r) (m := m) (ds := bs ++ rest) (k := k) (tr := [.s]) hk h harm htx
  refine (runEvents_append haddr [.eng c]).trans ?_
  rw [hds, runEvents_engReceive hk h]
  simp only [decide_eq_true_eq, hone]
  rfl

/-- The bytes of a read but the last: round `i` takes byte `i` and receives byte `i + 1`. -/
theorem runEvents_readBytes (hk : s.ctrl? c = some k0) (hr : s.Ready r q) (ho : k.record.owner = r) (h : b.Clear)
    (hfp : x.fp = true) (hm : x.rx.toNat ≤ s.params.bufBytes) (hlen : bs.length = x.rx.toNat) {j : Nat}
    (hj : j + 1 = x.rx.toNat) :
    runEvents (List.replicate j [Event.seq c, .eng c]).flatten (s.readingAt r c m bs rest k x b 0) =
      some (s.readingAt r c m bs rest k x b j) := by
  refine runEvents_replicate _ fun i hi => ?_
  rw [State.readingAt, drop_eq_getD_cons (by omega), List.cons_append,
    runEvents_readByte hk hr ho h hfp hm (by omega), ← hlen, State.readingAt, readTrace_succ]
  rfl

/-- A read after its START: the address round with the first byte, the rounds, the last byte taken. -/
theorem runEvents_read (hk : s.ctrl? c = some k0) (hr : s.Ready r q) (ho : k.record.owner = r) (h : b.Clear)
    (harm : b.nackArmed = false) (hfp : x.fp = true) (htx : x.tx = 0) (hm : x.rx.toNat ≤ s.params.bufBytes)
    (hlen : bs.length = x.rx.toNat) {j : Nat} (hj : j + 1 = x.rx.toNat) :
    runEvents ([.seq c, .eng c, .eng c] ++ (List.replicate j [Event.seq c, .eng c]).flatten ++ [.seq c])
        (s.during r c m (0 :: (bs ++ rest)) (k.running x .start 0 (b.held true .tx) [.s])) =
      some (s.during r c (m.receive r bs (j + 1)) rest
        (k.ended x (j + 1) (b.received (bs.getD j 0)).stopping (x.readTrace bs j))) := by
  have hdrop : bs.drop (j + 1) ++ rest = rest := by rw [List.drop_eq_nil_of_le (by omega), List.nil_append]
  have hlast := runEvents_readLast (m := m.receive r bs j) (ds := bs.drop (j + 1) ++ rest) (tr := x.readTrace bs j)
    hk hr ho h hfp hm hj (bs.getD j 0)
  rw [hdrop] at hlast
  refine runEvents_trans (runEvents_trans (runEvents_readFirst hk h harm htx hlen (by omega))
    (runEvents_readBytes hk hr ho h hfp hm hlen hj)) ?_
  rw [State.readingAt, hdrop, hlast]
  rfl

/-- The bytes of a read as the bus shows them. -/
theorem map_receivedSym (bs : List Byte) :
    (List.range bs.length).map (receivedSym bs) =
      bs.mapIdx (fun i b => TraceSym.r b (if i + 1 = bs.length then .nack else .ack)) := by
  refine List.ext_getElem (by simp) fun i hi _ => ?_
  have hi' : i < bs.length := by simpa using hi
  simp [receivedSym, hi']

end Read

/-- Settles O60: acceptance and START, then the read up to its last byte, then STOP and the release. -/
theorem readTransferOnTheBus : Obligations.ReadTransferOnTheBus := by
  unfold Obligations.ReadTransferOnTheBus
  intro s r q p a m e k bytes rest hinv hbus hready hport hlen hbuf hfree hidle hbusy herr heq harm hlines hbytes hdraws
  have hf : s.Finds r q p e k 0 m := ⟨hinv, hbus, hready, hport, hlen, hfree, hidle, hbusy, herr, heq, hlines⟩
  obtain ⟨hclear, _⟩ := hf.clear
  obtain ⟨k1, hstart, hown, hcur, hrec, htrace⟩ := hf.runEvents_start (a := a) rfl
  rw [hdraws] at hstart
  have hin := hlen.in_
  have hm : m.toNat ≠ 0 := fun h0 => hlen.some_ ⟨rfl, BitVec.eq_of_toNat_eq h0⟩
  obtain ⟨j, hj⟩ := Nat.exists_eq_add_one_of_ne_zero hm
  have hread := runEvents_read (x := ⟨true, true, 0, m, a⟩) (m := s.mem) (rest := rest) hport.ctrl hready hown hclear
    harm rfl rfl hin hbytes hj.symm
  have hstop := stopping_ended (x := ⟨true, true, 0, m, a⟩) (i := j + 1)
    (tr := TransferArgs.readTrace ⟨true, true, 0, m, a⟩ bytes j) (hclear.received (bytes.getD j 0)) rfl hrec hcur
  obtain ⟨k', hk', htr, hst, ho, hb, hans⟩ :=
    hstop.answered (m := s.mem.receive r bytes (j + 1)) (ds := rest) hport.ctrl hready
  refine ⟨_, k', ?_, hk', ?_, hst, ho, hb, fun i v hi => ?_, fun addr haddr => ?_, hans⟩
  · have hrun := runEvents_trans hstart (runEvents_trans hread (hstop.run hport.ctrl))
    rw [hj, List.replicate_succ', List.flatten_concat]
    simp only [List.append_assoc] at hrun ⊢
    exact hrun
  · rw [htr, ended_trace, htrace, TransferArgs.readTrace, ← List.append_assoc, ← hj, ← hbytes, map_receivedSym]
    rfl
  · obtain ⟨hlt, hget⟩ := List.getElem?_eq_some_iff.1 hi
    have hread := Memory.read_receive (m := s.mem) (r := r) (bs := bytes) (i := j + 1) (j := i) (by omega) (by omega)
    rw [List.getD_eq_getElem _ _ hlt, hget] at hread
    exact (congrArg (Memory.read · (rxAddr r i)) (respond_mem ..)).trans hread
  · refine (congrArg (Memory.read · addr) (respond_mem ..)).trans (Memory.read_receive_other fun i hi => haddr i ?_)
    omega

end Sys2Proof.Machine
end

section
/-! PROOFS. The statements of spec/30_encoding.md: decoding and encoding are inverse, what decoding rejects, what the
block does with a word that is illegal or refused, and the codes of bus actions and trace symbols. -/

namespace Sys2Proof

section Encoding

variable {w : Command} {op : Opcode} {i : Instr}

/-! ## The rows of the opcode map and their reserved fields (30_encoding.md R84, R85) -/

/-- The rows of the opcode map (R84). -/
def Opcode.rows : List Opcode :=
  [.xfer, .xferS, .xferP, .xferSP, .setto, .setfreq, .clkchg, .busbusy, .lines, .rdreg, .abort, .reset, .recover]

/-- The rows of formats C, P and G, in which ADDR is reserved (R85). -/
def Opcode.addrRows : List Opcode := [.setto, .setfreq, .clkchg, .busbusy, .lines, .rdreg, .abort, .reset, .recover]

/-- The rows in which ARG is reserved (R85). -/
def Opcode.argRows : List Opcode := [.busbusy, .lines, .abort, .reset, .recover]

/-- The rows of format C, whose IDX is a controller (R84, R86). -/
def Opcode.ctrlRows : List Opcode := [.setfreq, .busbusy, .rdreg, .abort, .reset, .recover]

/-- The row of a command. -/
def Instr.opcode : Instr → Opcode
  | .xfer .. => .xfer | .xferS .. => .xferS | .xferP .. => .xferP | .xferSP .. => .xferSP
  | .setto .. => .setto | .setfreq .. => .setfreq | .clkchg .. => .clkchg
  | .busbusy .. => .busbusy | .lines .. => .lines | .rdreg .. => .rdreg
  | .abort .. => .abort | .reset .. => .reset | .recover .. => .recover

theorem Opcode.mem_rows (op : Opcode) : op ∈ Opcode.rows := by cases op <;> decide

theorem Opcode.byte_injective : Function.Injective Opcode.byte := fun op op' h =>
  Option.some.inj ((ofByte_byte op).symm.trans (h ▸ ofByte_byte op'))

/-- The OP of a row is in a list of OPs exactly if the row is in the list of their rows. -/
theorem byte_mem_map (op : Opcode) (rows : List Opcode) : op.byte ∈ rows.map Opcode.byte ↔ op ∈ rows :=
  List.mem_map_of_injective Opcode.byte_injective

/-- A word passes the checks of its row exactly if every field the row reserves is 0, and an RDREG index is below 9. -/
theorem reservedError_eq_none_iff (op : Opcode) (w : Command) :
    reservedError op w = none ↔
      (op ∈ Opcode.addrRows → addrField w = 0) ∧ (op = .clkchg → idxField w = 0) ∧
        (op ∈ Opcode.argRows → argField w = 0) ∧ (op = .rdreg → (argField w).toNat < 9) := by
  cases op <;> simp [reservedError, Opcode.addrRows, Opcode.argRows, ite_eq_iff]

/-! ## Decoding by the row that OP selects (30_encoding.md R92) -/

theorem decodeWord_of_opField (hop : opField w = op.byte) :
    decodeWord w = (reservedError op w).elim (.ok (assemble op w)) .error := by
  simp only [decodeWord, hop, ofByte_byte]
  cases reservedError op w <;> rfl

theorem decodeWord_eq_ok_iff :
    decodeWord w = .ok i ↔ ∃ op, opField w = op.byte ∧ reservedError op w = none ∧ assemble op w = i := by
  constructor
  · intro h
    unfold decodeWord at h
    split at h
    · cases h
    next op hop =>
    split at h
    · cases h
    next hres => exact ⟨op, (ofByte_eq_some _ _).1 hop, hres, Except.ok.inj h⟩
  · rintro ⟨op, hop, hres, rfl⟩
    rw [decodeWord_of_opField hop, hres, Option.elim_none]

/-! ## Encoding after decoding (30_encoding.md R80 to R86) -/

/-- A word of a row is packed from its own fields. -/
theorem packArg_fields (hop : opField w = op.byte) :
    packArg op (reqField w) (idxField w) (addrField w) (argField w) = w := by
  unfold packArg
  rw [← hop, word_of_fields]

/-- Encoding what a row takes from a word writes each field back, and 0 where the row reserves the field. -/
theorem encodeWord_assemble (op : Opcode) (w : Command) :
    encodeWord (assemble op w) =
      packArg op (reqField w) (if op = .clkchg then 0 else idxField w)
        (if op ∈ Opcode.addrRows then 0 else addrField w) (if op ∈ Opcode.argRows then 0 else argField w) := by
  cases op <;> simp [assemble, encodeWord, packX, argField_eq, Opcode.addrRows, Opcode.argRows]

/-- What a row takes from a word is well-formed unless it is an RDREG index of 9 or more. -/
theorem wellFormed_assemble (op : Opcode) (w : Command) :
    (assemble op w).wellFormed = true ↔ (op = .rdreg → (argField w).toNat < 9) := by
  cases op <;> simp [assemble, Instr.wellFormed, Instr.indexNamed, Instr.registerIndex]

/-- Settles O2: a word that decodes has 0 in every field that its row reserves, and 0 is what encoding writes there. -/
theorem encodeOfDecode : Obligations.EncodeOfDecode := by
  unfold Obligations.EncodeOfDecode
  intro w i h
  obtain ⟨op, hop, hres, rfl⟩ := decodeWord_eq_ok_iff.1 h
  obtain ⟨haddr, hidx, harg, hindex⟩ := (reservedError_eq_none_iff op w).1 hres
  refine ⟨?_, (wellFormed_assemble op w).2 hindex⟩
  rw [encodeWord_assemble, ite_eq_right_iff.2 fun h => (hidx h).symm, ite_eq_right_iff.2 fun h => (haddr h).symm,
    ite_eq_right_iff.2 fun h => (harg h).symm, packArg_fields hop]

/-! ## Decoding after encoding (30_encoding.md R80 to R84, R96) -/

section Fields

variable (op : Opcode) (r x a : Byte) (n m : Half)

theorem opField_packX : opField (packX op r x a n m) = op.byte := opField_packArg ..
theorem reqField_packX : reqField (packX op r x a n m) = r := reqField_packArg ..
theorem idxField_packX : idxField (packX op r x a n m) = x := idxField_packArg ..
theorem addrField_packX : addrField (packX op r x a n m) = a := addrField_packArg ..

end Fields

theorem opField_encodeWord (i : Instr) : opField (encodeWord i) = i.opcode.byte := by
  cases i <;> exact opField_packArg ..

/-- The row of a command takes its operands back from its word. -/
theorem assemble_encodeWord (i : Instr) : assemble i.opcode (encodeWord i) = i := by
  cases i with
  | xfer | xferS | xferP | xferSP =>
    simp only [Instr.opcode, encodeWord, assemble, reqField_packX, idxField_packX, addrField_packX, txLenField_packX,
      rxLenField_packX]
  | setto | setfreq | clkchg | busbusy | lines | rdreg | abort | reset | recover =>
    simp only [Instr.opcode, encodeWord, assemble, reqField_packArg, idxField_packArg, argField_packArg]

/-- The word of a well-formed command has 0 in every field its row reserves. -/
theorem reservedError_encodeWord (h : i.wellFormed = true) : reservedError i.opcode (encodeWord i) = none := by
  have hindex := h
  rw [← assemble_encodeWord i, wellFormed_assemble] at hindex
  refine (reservedError_eq_none_iff _ _).2 ⟨?_, ?_, ?_, hindex⟩
  · cases i <;> simp [Instr.opcode, Opcode.addrRows, encodeWord, addrField_packArg]
  · cases i <;> simp [Instr.opcode, encodeWord, idxField_packArg]
  · cases i <;> simp [Instr.opcode, Opcode.argRows, encodeWord, argField_packArg]

theorem decodeWord_encodeWord (h : i.wellFormed = true) : decodeWord (encodeWord i) = .ok i :=
  decodeWord_eq_ok_iff.2
    ⟨i.opcode, opField_encodeWord i, reservedError_encodeWord h, assemble_encodeWord i⟩

/-- Decoding the bytes of a word decodes the word and leaves the bytes after it. -/
theorem decode_bytesOfWord_append (w : Command) (rest : List Byte) :
    decode (bytesOfWord w ++ rest) = (decodeWord w).map (·, rest) := by
  simp only [bytesOfWord, List.cons_append, List.nil_append, decode, wordOfBytes_byteOf]
  cases decodeWord w <;> rfl

/-- Settles O1: the eight bytes are the word again; its row finds its reserved fields 0 and takes the operands back. -/
theorem decodeOfEncode : Obligations.DecodeOfEncode := by
  unfold Obligations.DecodeOfEncode
  intro i rest h
  rw [encode, decode_bytesOfWord_append, decodeWord_encodeWord h]
  rfl

/-- Settles O4: each word is the encoding of its command, which is well-formed, so it decodes to it. -/
theorem workedEncodings : Obligations.WorkedEncodings := by
  unfold Obligations.WorkedEncodings
  intro x hx
  have h : encodeWord x.1 = x.2 ∧ x.1.wellFormed = true := by
    revert x
    decide
  exact ⟨h.1, h.1 ▸ decodeWord_encodeWord h.2⟩

end Encoding

end Sys2Proof
namespace Sys2Proof.Machine

section Illegal

variable {s : State} {r : Byte} {q : Requester} {w : Command} {i : Instr} {op : Opcode}

/-! ## The illegal words (30_encoding.md R84 to R86, R92) -/

/-- The OPs that R84 to R86 list are those of the rows. -/
theorem illegalWord_iff_rows (n : Nat) (w : Command) :
    IllegalWord n w ↔
      opField w ∉ Opcode.rows.map Opcode.byte ∨
      (opField w ∈ Opcode.addrRows.map Opcode.byte ∧ addrField w ≠ 0) ∨
      (opField w = Opcode.clkchg.byte ∧ idxField w ≠ 0) ∨
      (opField w ∈ Opcode.argRows.map Opcode.byte ∧ argField w ≠ 0) ∨
      (opField w ∈ Opcode.ctrlRows.map Opcode.byte ∧ n ≤ (idxField w).toNat) ∨
      (opField w = Opcode.rdreg.byte ∧ 9 ≤ (argField w).toNat) := Iff.rfl

/-- A word whose OP selects no row is illegal. -/
theorem illegalWord_of_ofByte_none (n : Nat) (h : Opcode.ofByte (opField w) = none) : IllegalWord n w := by
  refine (illegalWord_iff_rows n w).2 (.inl fun hmem => ?_)
  obtain ⟨op, _, hop⟩ := List.mem_map.1 hmem
  rw [← hop, ofByte_byte] at h
  cases h

/-- A word of a row is illegal exactly if the row's checks fail or it names a controller that the block has not. -/
theorem illegalWord_iff_of_opField (n : Nat) (hop : opField w = op.byte) :
    IllegalWord n w ↔ reservedError op w ≠ none ∨ (op ∈ Opcode.ctrlRows ∧ n ≤ (idxField w).toNat) := by
  rw [illegalWord_iff_rows, hop]
  simp only [ne_eq, reservedError_eq_none_iff, byte_mem_map, Opcode.byte_injective.eq_iff, Opcode.mem_rows,
    ← Nat.not_lt]
  tauto

/-- An illegal word is one that decoding rejects, or one whose row names a controller that the block has not. -/
theorem illegalWord_iff (n : Nat) (w : Command) :
    IllegalWord n w ↔ (∃ e, decodeWord w = .error e) ∨
      (opField w ∈ Opcode.ctrlRows.map Opcode.byte ∧ n ≤ (idxField w).toNat) := by
  cases hop : Opcode.ofByte (opField w) with
  | none =>
    have herr : decodeWord w = .error .unknownOpcode := by rw [decodeWord, hop]
    exact iff_of_true (illegalWord_of_ofByte_none n hop) (.inl ⟨_, herr⟩)
  | some op =>
    have hop := (ofByte_eq_some _ _).1 hop
    rw [illegalWord_iff_of_opField n hop, decodeWord_of_opField hop, hop, byte_mem_map]
    cases reservedError op w <;> simp

/-- Settles O3: with 256 controllers every IDX names one, so the illegal words are those that decoding rejects. -/
theorem decodeRejectsIllegalWords : Obligations.DecodeRejectsIllegalWords := by
  unfold Obligations.DecodeRejectsIllegalWords
  intro w
  have hidx : ¬256 ≤ (idxField w).toNat := Nat.not_le.2 (idxField w).isLt
  rw [illegalWord_iff]
  exact ⟨.inl, fun h => h.resolve_right fun hctrl => hidx hctrl.2⟩

/-! ## Refused words (10_state.md R47, 30_encoding.md R87) -/

theorem req?_none (h : r = 0 ∨ s.numReq < r.toNat) : s.req? r = none := by
  rcases h with rfl | h
  · rfl
  · have hlen : s.reqs.length ≤ r.toNat - 1 := Nat.le_sub_one_of_lt h
    rw [State.req?, List.getElem?_eq_none hlen, ite_self]

/-- A word that decoding rejects is answered as illegal once it is accepted. -/
theorem acceptWord_of_error {e : DecodeError} (hd : decodeWord w = .error e) (hr : reqField w = r) :
    acceptWord s r w = s.accept r (s.answerIllegal r) := by
  rw [acceptWord, if_neg (not_not_intro hr), hd]

/-- A word whose REQ is its sender goes through acceptance before anything else, whatever it decodes to. -/
theorem acceptWord_eq_accept (s : State) (hr : reqField w = r) : ∃ run, acceptWord s r w = s.accept r run := by
  cases hd : decodeWord w with
  | ok i =>
    rw [acceptWord_of_decode hd hr, ← hr, ← (decode_fields hd).1]
    exact exec_accept i s
  | error e => exact ⟨s.answerIllegal r, acceptWord_of_error hd hr⟩

/-- Settles O9: a word from another sender is refused before decoding; every other goes through acceptance, which
refuses a requester that does not exist and one with a command outstanding. -/
theorem refusedCommands : Obligations.RefusedCommands := by
  unfold Obligations.RefusedCommands
  refine ⟨fun s r w h => ?_, fun s r q w hq ho hr => ?_⟩
  · rw [step_withEvent, runEvent]
    by_cases hr : reqField w = r
    · obtain ⟨run, hrun⟩ := acceptWord_eq_accept s hr
      have hnone : s.req? r = none := req?_none (by rw [hr] at h; tauto)
      exact ⟨.badRequester, by rw [hrun, State.accept, hnone]⟩
    · exact ⟨.senderMismatch, if_pos hr⟩
  · obtain ⟨run, hrun⟩ := acceptWord_eq_accept s hr
    rw [step_withEvent, runEvent, hrun, State.accept, hq]
    exact if_pos ho

/-! ## Answers to illegal words (30_encoding.md R86) -/

/-- A command of format C looks its controller up once it is accepted. -/
theorem exec_eq_onCtrl {c : Byte} (h : i.formatC = some c) (s : State) :
    ∃ run, exec i s = s.accept i.requester (s.onCtrl i.requester c run) := by
  cases i with
  | setfreq | busbusy | rdreg | abort | reset | recover => cases h; exact ⟨_, rfl⟩
  | xfer | xferS | xferP | xferSP | setto | clkchg | lines => cases h

/-- Settles O8: a word that decoding rejects is answered at once; one that decodes is illegal for its controller index,
and its command answers that. -/
theorem illegalCommandsAnswered : Obligations.IllegalCommandsAnswered := by
  unfold Obligations.IllegalCommandsAnswered
  intro s r q w hready hr hill
  rw [step_withEvent, runEvent]
  cases hd : decodeWord w with
  | error e =>
    rw [acceptWord_of_error hd hr, accept_ready hready]
    rfl
  | ok i =>
    obtain ⟨e, he⟩ | ⟨hrow, hidx⟩ := (illegalWord_iff _ w).1 hill
    · rw [hd] at he
      cases he
    · obtain ⟨hreq, hctrl⟩ := decode_fields hd
      obtain ⟨run, hrun⟩ := exec_eq_onCtrl (hctrl hrow) s
      rw [acceptWord_of_decode hd hr, hrun, hreq, hr, accept_ready hready, onCtrl_none hidx]
      rfl

end Illegal

/-! ## Codes of bus actions and trace symbols (30_encoding.md R90, R91) -/

/-- The number of an append: the high part above the low part. -/
theorem toNat_append_eq {n m : Nat} (x : BitVec n) (y : BitVec m) : (x ++ y).toNat = x.toNat * 2 ^ m + y.toNat := by
  rw [BitVec.toNat_append, ← Nat.shiftLeft_add_eq_or_of_lt y.isLt, Nat.shiftLeft_eq]

/-- The number of a `W` or `R` symbol: its kind, its acknowledge bit, its byte. -/
theorem toNat_byteSym (kind : BitVec 4) (v : Byte) (a : Ack) :
    (kind ++ (0#3 ++ (a.bit ++ v))).toNat = kind.toNat * 0x1000 + (if a = .nack then 0x100 else 0) + v.toNat := by
  have hbit : a.bit.toNat * 2 ^ 8 = if a = .nack then 0x100 else 0 := by cases a <;> rfl
  have hzero : (0#3).toNat * 2 ^ (1 + 8) = 0 := rfl
  rw [toNat_append_eq, toNat_append_eq, toNat_append_eq, hbit, hzero, Nat.zero_add, Nat.add_assoc]
  rfl

/-- Settles O5: the fixed codes by evaluation, a SEND by its width, a `W` or `R` symbol field by field. -/
theorem actionAndTraceCodes : Obligations.ActionAndTraceCodes := by
  unfold Obligations.ActionAndTraceCodes
  exact ⟨rfl, rfl, fun v => BitVec.toNat_setWidth_of_le (by decide), rfl, rfl, rfl, rfl, rfl, toNat_byteSym 3,
    toNat_byteSym 4, rfl, rfl, rfl⟩

end Sys2Proof.Machine
end

section
/-! PROOFS. The statements of spec/40_commands.md: the transfers, the configuration commands and the queries, and the
recovery commands and recoveries, from their first step to their answer. -/

namespace Sys2Proof.Machine

section Transfers

variable {s : State} {r p a : Byte} {q : Requester} {c buf : Nat} {k k0 : Ctrl} {e : PortEntry} {x : TransferArgs}

/-! ## The checks before ownership (40_commands.md R112, R113) -/

theorem transfer_empty (hr : s.Ready r q) (h0 : x.tx = 0 ∧ x.rx = 0) :
    transfer r p x s = .next (s.respond r .ok 0) := by
  rw [transfer, accept_ready hr, if_pos h0]

/-- A transfer of some bytes looks its port up. -/
theorem transfer_eq_onPort (hr : s.Ready r q) (h0 : ¬(x.tx = 0 ∧ x.rx = 0)) :
    ∃ run, transfer r p x s = s.onPort r p run :=
  ⟨_, by rw [transfer, accept_ready hr, if_neg h0]⟩

theorem transfer_tooLong (hr : s.Ready r q) (hp : s.port? p = some e)
    (hl : s.params.bufBytes < x.tx.toNat ∨ s.params.bufBytes < x.rx.toNat) :
    transfer r p x s = .next (s.respond r .readOverflow 0) := by
  have h0 : ¬(x.tx = 0 ∧ x.rx = 0) := by
    rintro ⟨htx, hrx⟩
    simp [htx, hrx] at hl
  rw [transfer, accept_ready hr, if_neg h0]
  simp only [State.onPort, hp]
  exact if_pos hl

/-- Settles O10: the checks of a transfer in their order, each with the checks before it passed. -/
theorem checksBeforeOwnership : Obligations.ChecksBeforeOwnership := by
  unfold Obligations.ChecksBeforeOwnership
  intro s r q fs fp p a n m hr
  rw [exec_xferOf]
  refine ⟨fun hn hm => transfer_empty hr ⟨hn, hm⟩, fun h0 hp => ?_, fun hp hl => ?_⟩
  · obtain ⟨run, hrun⟩ := transfer_eq_onPort (p := p) (x := ⟨fs, fp, n, m, a⟩) hr h0
    exact hrun.trans (onPort_bad hp run)
  · obtain ⟨e, he⟩ := port?_some hp
    exact transfer_tooLong hr he hl

/-! ## Ownership (40_commands.md R114) -/

section Accepted

variable {fs fp : Bool} {n m : Half}

theorem exec_xferOf_occupied (hr : s.Ready r q) (hp : s.PortOn p e k) (hl : s.LengthsOk n m)
    (ho : k.record.owner ≠ 0) :
    exec (xferOf fs fp r p a n m) s = .next (s.respond r .channelOccupied 0) :=
  (exec_xferOf ..).trans ((transfer_ok hr hp hl).trans (if_pos ho))

/-- A transfer on an unowned controller takes it and goes on to the bus-idle test. -/
theorem exec_xferOf_free (hr : s.Ready r q) (hp : s.PortOn p e k) (hl : s.LengthsOk n m) (ho : k.record.owner = 0) :
    exec (xferOf fs fp r p a n m) s =
      preCheck (s.setOutstanding r) e.ctrl (k.take s.params.portMap r p ⟨fs, fp, n, m, a⟩) ⟨fs, fp, n, m, a⟩ :=
  (exec_xferOf ..).trans ((transfer_ok hr hp hl).trans (if_neg (not_not_intro ho)))

end Accepted

theorem ctrl?_setCtrl_self (hk : s.ctrl? c = some k0) (k : Ctrl) : (s.setCtrl c k).ctrl? c = some k :=
  (ctrl?_setCtrl s c k hk c).trans (if_pos rfl)

/-- A controller that was taken is armed, or starts a recovery, and keeps its owner; nobody is answered. -/
theorem Taken.preCheck_keeps_owner (ht : Taken buf x k) (hk : s.ctrl? c = some k0) :
    ∃ t k', preCheck s c k x = .next t ∧ t.ctrl? c = some k' ∧ k'.record.owner = k.record.owner ∧ t.reqs = s.reqs := by
  obtain ⟨k1, harm, _, ho⟩ := ht.arm
  have hstepB : ∀ u : State, stepB u c k x = .next (u.setCtrl c k1) := fun u => by rw [stepB, harm]
  have hdraw : (s.drawLines k.bus.busy).2.ctrl? c = some k0 := by rw [drawLines_ctrl?, hk]
  unfold preCheck
  split
  · split
    · exact ⟨_, k.preRecover, rfl, ctrl?_setCtrl_self hdraw _, rfl, by simp⟩
    · exact ⟨_, k1, hstepB _, ctrl?_setCtrl_self hdraw _, ho, by simp⟩
  · exact ⟨_, k1, hstepB _, ctrl?_setCtrl_self hk _, ho, rfl⟩

/-- Settles O11: in a sound block an unowned controller is taken, and arming or recovering keeps the owner. -/
theorem ownershipCheckAndSet : Obligations.OwnershipCheckAndSet := by
  unfold Obligations.OwnershipCheckAndSet
  intro s r q fs fp p a n m e k hr hp hl
  refine ⟨exec_xferOf_occupied hr hp hl, fun ho hinv => ?_⟩
  have htaken : Taken s.params.bufBytes ⟨fs, fp, n, m, a⟩ (k.take s.params.portMap r p ⟨fs, fp, n, m, a⟩) :=
    Taken.take (hinv.sound _ _ hp.ctrl) ho _ _ _ (req_ne_zero hr.exists_) ⟨hl.some_, hl.out, hl.in_⟩
  obtain ⟨t, k', hpre, hk', hown, hreqs⟩ :=
    htaken.preCheck_keeps_owner ((setOutstanding_ctrl? s e.ctrl r).trans hp.ctrl)
  refine ⟨t, k', (exec_xferOf_free hr hp hl ho).trans hpre, hk', hown.trans ?_, ?_⟩
  · rw [Ctrl.take, record_applyMux]
  · rw [req?_congr hreqs, req?_setOutstanding_self hr.exists_]

/-! ## The bus-idle test (40_commands.md R115) -/

theorem take_port (hp : s.port? p = some e) (k : Ctrl) (r : Byte) (x : TransferArgs) :
    k.take s.params.portMap r p x =
      { k with
        record := { k.record with owner := r }
        pinSet := if e.muxed then e.pinset else k.pinSet
        orch := { k.orch with curReq := r, curPort := p, cmd := .transfer x } } :=
  applyMux_port hp _

@[simp] theorem take_opState (k : Ctrl) (ps : List PortEntry) (r p : Byte) (x : TransferArgs) :
    (k.take ps r p x).record.opState = k.record.opState := by
  rw [Ctrl.take, record_applyMux]

@[simp] theorem take_bus (k : Ctrl) (ps : List PortEntry) (r p : Byte) (x : TransferArgs) :
    (k.take ps r p x).bus = k.bus := by
  rw [Ctrl.take, bus_applyMux]

/-- The test is made from Idle with START only. -/
theorem preCheck_skipped (h : ¬(k.record.opState = .idle ∧ x.fs = true)) : preCheck s c k x = stepB s c k x := if_neg h

theorem preCheck_passed (hi : k.record.opState = .idle) (hfs : x.fs = true) (hb : k.bus.busy = false)
    (hl : (s.drawLines k.bus.busy).1.high = true) :
    preCheck s c k x = stepB (s.drawLines k.bus.busy).2 c k x := by
  rw [preCheck, if_pos ⟨hi, hfs⟩, if_neg (by rw [hl, hb]; decide)]

theorem preCheck_failed (hi : k.record.opState = .idle) (hfs : x.fs = true)
    (h : k.bus.busy = true ∨ (s.drawLines k.bus.busy).1.high = false) :
    preCheck s c k x = .next ((s.drawLines k.bus.busy).2.setCtrl c k.preRecover) := by
  rw [preCheck, if_pos ⟨hi, hfs⟩, if_pos (by simpa using h)]

/-- The first step of a recover, on an enabled controller (43_recovery.md R230, R236). -/
theorem recoverStart_eq (h : k.bus.enabled = true) (prior : Kind) :
    k.recoverStart prior =
      { k with
        bus :=
          { k.bus with
            busErr := false, stretch := false, nackFlag := false, rxPending := false, rdy := false
            eq := if k.bus.busy then [.stop] else [] }
        orch := { k.orch with recPhase := .abortWait, recPrior := prior, abortSoftFail := false } } :=
  abortStart_eq _ h

/-- Settles O13: the test fails, and the recovery starts on the controller taken. -/
theorem busyBusIsRecoveredFirst : Obligations.BusyBusIsRecoveredFirst := by
  unfold Obligations.BusyBusIsRecoveredFirst
  intro s r q fp p a n m e k hr hp hl ho hi hen hbusy
  have hfail : k.bus.busy = true ∨ ((s.setOutstanding r).drawLines k.bus.busy).1.high = false := by
    rw [drawLines_setOutstanding]
    exact hbusy.imp_right fun hne => by simpa [← high_iff] using hne
  rw [exec_xferOf_free hr hp hl ho, preCheck_failed ((take_opState ..).trans hi) rfl (by rwa [take_bus]),
    take_port hp.entry, drawLines_setOutstanding, Ctrl.preRecover, recoverStart_eq (by exact hen)]
  rfl

/-! ## Arming (40_commands.md R117 to R120) -/

theorem pushStart_eq (h : k.bus.enabled = true) :
    k.pushStart =
      { k with
        bus :=
          { k.bus with
            rdy := false
            eq := if k.bus.busErr || k.bus.nackFlag then k.bus.eq else k.bus.eq ++ [.start] } } := by
  rw [Ctrl.pushStart, push_start_eq _ (by exact h)]

theorem stepB_armed {k1 : Ctrl} (h : (k.load x).arm = some k1) : stepB s c k x = .next (s.setCtrl c k1) := by
  rw [stepB, h]

theorem arm_writeSuspended_restart (h : k.record.opState = .writeSuspended) (h0 : k.record.txLen = 0) :
    k.arm = some (k.pushStart.beginWait .repeatStart) := by
  simp only [Ctrl.arm, h, h0, if_true]

theorem arm_writeSuspended (h : k.record.opState = .writeSuspended) (h0 : k.record.txLen ≠ 0) :
    k.arm = some (k.beginWait .write) := by
  simp only [Ctrl.arm, h, h0, if_false]

theorem arm_readSuspended (h : k.record.opState = .readSuspended) (h0 : ¬(k.record.rxLen = 1 ∨ k.record.txLen ≠ 0)) :
    k.arm = some (k.beginWait .read) := by
  simp only [Ctrl.arm, h, h0, if_false]

theorem arm_readSuspended_rejected (h : k.record.opState = .readSuspended)
    (h0 : k.record.rxLen = 1 ∨ k.record.txLen ≠ 0) : k.arm = some k.rejectResume := by
  simp only [Ctrl.arm, h, h0, if_true]

/-- Settles O12: without START the test is skipped, with the bus idle it passes; the controller taken is armed. -/
theorem transferArmsFromIdle : Obligations.TransferArmsFromIdle := by
  unfold Obligations.TransferArmsFromIdle
  intro s r q fs fp p a n m e k hr hp hl ho hi hen armed
  have harm : ∀ u : State,
      stepB u e.ctrl (k.take s.params.portMap r p ⟨fs, fp, n, m, a⟩) ⟨fs, fp, n, m, a⟩ =
        .next (u.setCtrl e.ctrl armed) := fun u => by
    rw [stepB_idle ((take_opState ..).trans hi), take_port hp.entry, pushStart_eq (by exact hen)]
    rfl
  rw [exec_xferOf_free hr hp hl ho]
  refine ⟨fun hfs => ?_, fun hfs hb hlines => ?_⟩
  · rw [preCheck_skipped (by simp [hfs]), harm]
  · have hbus : (k.take s.params.portMap r p ⟨fs, fp, n, m, a⟩).bus.busy = false := by rw [take_bus, hb]
    have hhigh : ((s.setOutstanding r).drawLines
        (k.take s.params.portMap r p ⟨fs, fp, n, m, a⟩).bus.busy).1.high = true := by
      rw [hbus, drawLines_setOutstanding, high_iff, hlines]
    rw [preCheck_passed ((take_opState ..).trans hi) hfs hbus hhigh, harm, hbus, drawLines_setOutstanding]

/-- From a suspended state a transfer is armed at once, whatever its START flag. -/
theorem exec_xferOf_resumes {fs fp : Bool} {n m : Half} {k1 : Ctrl} (hr : s.Ready r q) (hp : s.PortOn p e k)
    (hl : s.LengthsOk n m) (ho : k.record.owner = 0) (hi : k.record.opState ≠ .idle)
    (harm : ((k.take s.params.portMap r p ⟨fs, fp, n, m, a⟩).load ⟨fs, fp, n, m, a⟩).arm = some k1) :
    exec (xferOf fs fp r p a n m) s = .next ((s.setOutstanding r).setCtrl e.ctrl k1) := by
  rw [exec_xferOf_free hr hp hl ho, preCheck_skipped fun h => hi ((take_opState ..).symm.trans h.1), stepB_armed harm]

/-- Taking and loading leave the state that the arming goes by. -/
theorem load_take_opState (k : Ctrl) (ps : List PortEntry) (r p : Byte) (x : TransferArgs) :
    ((k.take ps r p x).load x).record.opState = k.record.opState := take_opState ..

/-- Settles O14: the suspended write is armed by whether the transfer writes bytes. -/
theorem transferResumesSuspendedWrite : Obligations.TransferResumesSuspendedWrite := by
  unfold Obligations.TransferResumesSuspendedWrite
  intro s r q fs fp p a n m e k hr hp hl ho hst hen
  have hst' : ((k.take s.params.portMap r p ⟨fs, fp, n, m, a⟩).load ⟨fs, fp, n, m, a⟩).record.opState =
      .writeSuspended := (load_take_opState ..).trans hst
  have hni : k.record.opState ≠ .idle := by rw [hst]; decide
  by_cases hn : n = 0
  · rw [exec_xferOf_resumes hr hp hl ho hni (arm_writeSuspended_restart hst' hn), take_port hp.entry,
      pushStart_eq (by exact hen)]
    simp only [hn, if_true]
    rfl
  · rw [exec_xferOf_resumes hr hp hl ho hni (arm_writeSuspended hst' hn), take_port hp.entry]
    simp only [hn, if_false]
    rfl

/-- Settles O15: the suspended read is armed, or the resume rejected, by the lengths of the transfer. -/
theorem transferResumesSuspendedRead : Obligations.TransferResumesSuspendedRead := by
  unfold Obligations.TransferResumesSuspendedRead
  intro s r q fs fp p a n m e k hr hp hl ho hst hen
  have hst' : ((k.take s.params.portMap r p ⟨fs, fp, n, m, a⟩).load ⟨fs, fp, n, m, a⟩).record.opState =
      .readSuspended := (load_take_opState ..).trans hst
  have hni : k.record.opState ≠ .idle := by rw [hst]; decide
  refine ⟨fun hn hm => ?_, fun h => ?_⟩
  · rw [exec_xferOf_resumes hr hp hl ho hni (arm_readSuspended hst' (by exact not_or.2 ⟨hm, not_not_intro hn⟩)),
      take_port hp.entry]
    rfl
  · rw [exec_xferOf_resumes hr hp hl ho hni (arm_readSuspended_rejected hst' (by exact h.symm)), take_port hp.entry,
      Ctrl.rejectResume, recoverStart_eq (by exact hen)]
    rfl

end Transfers

section Configuration

variable {s : State} {r p c : Byte} {q : Requester} {k : Ctrl} {e : PortEntry}

/-! ## The timeout (40_commands.md R131) -/

/-- A command on a port of PORT_MAP runs on the port's controller (00_scope.md R10). -/
theorem onPort_ctrl (hp : s.PortOn p e k) (run : PortEntry → Ctrl → Result) :
    (s.onPort r p fun e => s.onPortCtrl e (run e)) = run e k := by
  simp only [State.onPort, hp.entry, State.onPortCtrl, hp.ctrl]

/-- Settles O16: the port names a controller, or is out of range. -/
theorem settoWritesTimeout : Obligations.SettoWritesTimeout := by
  unfold Obligations.SettoWritesTimeout
  intro s r q p us hr
  simp only [exec, execSetto, accept_ready hr]
  refine ⟨fun e k hp => ?_, fun hp => onPort_bad hp _⟩
  rw [onPort_ctrl hp]
  rfl

/-! ## The timing fields (40_commands.md R132, R133, 42_timing.md R213 to R217) -/

theorem isOk_iff (res : TimingResult) : res.isOk = true ↔ res ≠ .invalid := by
  cases res <;> simp [TimingResult.isOk]

theorem exec_setfreq (hr : s.Ready r q) (hk : s.ctrl? c.toNat = some k) (hz : Word) :
    exec (.setfreq r c hz) s =
      .next ((s.setCtrl c.toNat (k.retarget s.params.fastCalTable s.clockHz hz)).respond r
        (programTiming s.params.fastCalTable s.clockHz hz).kind 0) := by
  simp only [exec, execSetfreq, accept_ready hr, State.onCtrl, hk]

/-- Settles O17: by the result of the programming. -/
theorem setfreqProgramsController : Obligations.SetfreqProgramsController := by
  unfold Obligations.SetfreqProgramsController
  intro s r q c hz k hr hk
  rw [exec_setfreq hr hk, Ctrl.retarget]
  cases programTiming s.params.fastCalTable s.clockHz hz with
  | invalid =>
    have hset : s.setCtrl c.toNat k = s := setCtrl_self hk
    simp [TimingResult.isOk, TimingResult.kind, hset]
  | calibrated tl th => rfl
  | divider d warn => rfl

theorem exec_clkchg (hr : s.Ready r q) (hz : Word) :
    exec (.clkchg r hz) s =
      .next ({ s with
          clockHz := hz
          ctrls := s.ctrls.map (fun k : Ctrl => k.reclock s.params.fastCalTable hz) }.respond r
        (clockResult s.params.fastCalTable hz s.ctrls) 0) := accept_ready hr _

theorem clockResult_eq_ok_iff (table : List CalEntry) (clock : Word) (ks : List Ctrl) :
    clockResult table clock ks = .ok ↔ ∀ k ∈ ks, programTiming table clock k.timing.targetHz ≠ .invalid := by
  simp [clockResult, isOk_iff]

theorem clockResult_cases (table : List CalEntry) (clock : Word) (ks : List Ctrl) :
    clockResult table clock ks = .ok ∨ clockResult table clock ks = .busFrequencyInvalid := by
  unfold clockResult
  split
  · exact .inl rfl
  · exact .inr rfl

/-- Settles O18: every controller is programmed with its own target, and the answer looks at every result. -/
theorem clkchgReprogramsAll : Obligations.ClkchgReprogramsAll := by
  unfold Obligations.ClkchgReprogramsAll
  intro s r q hz hr
  refine ⟨_, _, exec_clkchg hr hz, rfl, List.length_map _, clockResult_cases .., clockResult_eq_ok_iff ..,
    fun c k hk => ?_⟩
  have hmap : (s.ctrls.map fun k : Ctrl => k.reclock s.params.fastCalTable hz)[c]? =
      some (k.program (programTiming s.params.fastCalTable hz k.timing.targetHz)) := by
    rw [List.getElem?_map]
    exact congrArg (Option.map _) hk
  refine hmap.trans (congrArg some ?_)
  cases programTiming s.params.fastCalTable hz k.timing.targetHz with
  | invalid => rfl
  | calibrated tl th => rfl
  | divider d warn => rfl

/-! ## Queries (40_commands.md R134, R135, 60_exceptions.md R275) -/

theorem exec_busbusy (hr : s.Ready r q) (hk : s.ctrl? c.toNat = some k) :
    exec (.busbusy r c) s = .next (s.respond r .ok ((BitVec.ofBool k.bus.busy).setWidth 32)) := by
  simp only [exec, execBusbusy, accept_ready hr, State.onCtrl, hk]

theorem exec_lines (hr : s.Ready r q) (hp : s.PortOn p e k) :
    exec (.lines r p) s =
      .next ((s.drawLines k.bus.busy).2.respond r .ok (s.drawLines k.bus.busy).1.data) := by
  simp only [exec, execLines, accept_ready hr, onPort_ctrl hp]

theorem setWidth_ofBool (b : Bool) : (BitVec.ofBool b).setWidth 32 = if b then 1 else 0 := by
  cases b <;> rfl

theorem lines_data_eq (l : Lines) : l.data = (if l.sda then 1 else 0) + (if l.scl then 2 else 0) := by
  rcases l with ⟨sda, scl⟩
  cases sda <;> cases scl <;> rfl

/-- The lines are Env's under LINES_MODEL = FREE or on a busy bus. -/
theorem drawLines_free {busy : Bool} (h : s.params.linesModel = .free ∨ busy = true) :
    s.drawLines busy = ({ sda := s.draw.1.getLsbD 0, scl := s.draw.1.getLsbD 1 }, s.draw.2) := by
  obtain ⟨_, _, hbusy, hidle⟩ | ⟨hst, hlines⟩ := drawLines_cases s busy
  · simp [hbusy, hidle] at h
  · exact Prod.ext hlines hst

/-- Settles O21: the busy flag as a number; the levels as they are drawn. -/
theorem busAndLineQueries : Obligations.BusAndLineQueries := by
  unfold Obligations.BusAndLineQueries
  intro s r q hr
  refine ⟨fun c k hk => ?_, fun p e k hp => ⟨fun hmodel hbusy => ?_, fun hfree => ?_⟩, fun p hp => ?_⟩
  · rw [exec_busbusy hr hk, setWidth_ofBool]
  · rw [exec_lines hr hp, hbusy, drawLines_idle hmodel, lines_data_eq]
    rfl
  · refine ⟨s.draw.1.getLsbD 0, s.draw.1.getLsbD 1, ?_, fun d rest hd => ?_⟩
    · rw [exec_lines hr hp, drawLines_free hfree, lines_data_eq]
    · rw [draw_cons s d rest hd]
      exact ⟨rfl, rfl⟩
  · simp only [exec, execLines, accept_ready hr]
    exact onPort_bad hp _

end Configuration

section Recovery

variable {s : State} {c : Nat} {k : Ctrl} {x : TransferArgs}

/-! ## Recovery commands (40_commands.md R137 to R140) -/

theorem onFreeCtrl_occupied {r ci : Byte} {q : Requester} (hr : s.Ready r q) (hk : s.ctrl? ci.toNat = some k)
    (ho : k.record.owner ≠ 0) (start : Ctrl → State) :
    onFreeCtrl r ci s start = .next (s.respond r .channelOccupied 0) := by
  simp only [onFreeCtrl, accept_ready hr, State.onCtrl, hk]
  exact if_pos ho

/-- Settles O23: the three commands share the check of the owner. -/
theorem recoveryCommandsOccupied : Obligations.RecoveryCommandsOccupied := by
  unfold Obligations.RecoveryCommandsOccupied
  intro s r q c k hr hk ho i hi
  simp only [List.mem_cons, List.not_mem_nil, or_false] at hi
  rcases hi with rfl | rfl | rfl <;> exact onFreeCtrl_occupied hr hk ho _

/-- Settles O55: the frame of every command, at a controller that is owned. -/
theorem ownedControllerUndisturbed : Obligations.OwnedControllerUndisturbed := by
  unfold Obligations.OwnedControllerUndisturbed
  intro s t i c k hk ho ht
  obtain ⟨k', hk', hcmd⟩ := (framesCommand_exec i s t ht).ctrl c k hk
  exact ⟨k', hk', hcmd.owned ho⟩

/-! ## The steps that end an abort or a reset (43_recovery.md R231 to R236, 60_exceptions.md R274) -/

/-- With no STOP queued the orchestrator ends the abort. -/
theorem step_orch_abort (hk : s.ctrl? c = some k) (hr : k.orch.recPhase = .abortWait) (hq : BusAction.stop ∉ k.bus.eq) :
    step (s.withEvent (.orch c)) = abortFinished s c k := by
  have hen : k.orchEnabled = true := by simp [Ctrl.orchEnabled, hr, Bus.stopQueued, hq]
  rw [step_withEvent, runEvent, onAgent_some hk, if_pos hen, orchStep, hr]

/-- The window of an abort ends it where R274 lets it end. -/
theorem step_window_abort (hk : s.ctrl? c = some k) (hr : k.orch.recPhase = .abortWait)
    (hw : s.params.timeoutModel = .anyTime ∨ k.engEnabled = false) :
    step (s.withEvent (.windowExpiry c)) = abortFinished s c k.abortExpire := by
  have hen : k.expiryEnabled s.params.timeoutModel = true := by
    rcases hw with hm | heng
    · simp [Ctrl.expiryEnabled, hr, hm]
    · cases s.params.timeoutModel <;> simp [Ctrl.expiryEnabled, hr, heng]
  rw [step_withEvent, runEvent, onAgent_some hk, if_pos hen, expiryStep, hr]

/-- The step of a reset's poll, by the levels it draws. -/
theorem step_orch_reset (hk : s.ctrl? c = some k) (hr : k.orch.recPhase = .resetWait) :
    step (s.withEvent (.orch c)) =
      if (s.drawLines k.bus.busy).1.high then recoveryFinished (s.drawLines k.bus.busy).2 c k.resetFinish
      else .next (s.drawLines k.bus.busy).2 := by
  have hen : k.orchEnabled = true := by simp [Ctrl.orchEnabled, hr]
  rw [step_withEvent, runEvent, onAgent_some hk, if_pos hen, orchStep, hr]

theorem step_poll_high (hk : s.ctrl? c = some k) (hr : k.orch.recPhase = .resetWait)
    (hl : (s.drawLines k.bus.busy).1 = { sda := true, scl := true }) :
    step (s.withEvent (.orch c)) = recoveryFinished (s.drawLines k.bus.busy).2 c k.resetFinish :=
  (step_orch_reset hk hr).trans (if_pos ((high_iff _).2 hl))

theorem step_poll_low (hk : s.ctrl? c = some k) (hr : k.orch.recPhase = .resetWait)
    (hl : (s.drawLines k.bus.busy).1 ≠ { sda := true, scl := true }) :
    step (s.withEvent (.orch c)) = .next (s.drawLines k.bus.busy).2 :=
  (step_orch_reset hk hr).trans (if_neg (mt (high_iff _).1 hl))

theorem step_window_reset (hk : s.ctrl? c = some k) (hr : k.orch.recPhase = .resetWait)
    (hm : s.params.timeoutModel = .anyTime) :
    step (s.withEvent (.windowExpiry c)) = recoveryFinished s c k.resetExpire.resetFinish := by
  have hen : k.expiryEnabled s.params.timeoutModel = true := by simp [Ctrl.expiryEnabled, hr, hm]
  rw [step_withEvent, runEvent, onAgent_some hk, if_pos hen, expiryStep, hr]

/-! ## What follows an abort (40_commands.md R137, 43_recovery.md R236) -/

theorem resetFollows_iff (k : Ctrl) :
    k.resetFollows = true ↔ k.orch.cmd ≠ .abort ∧ k.orch.recPrior ≠ .noAddressMatch := by
  unfold Ctrl.resetFollows
  cases k.orch.cmd <;> simp

theorem abortFinished_reset (hc : k.orch.cmd ≠ .abort) (hp : k.orch.recPrior ≠ .noAddressMatch) :
    abortFinished s c k = .next (s.draw.2.setCtrl c (k.resetStart (drawnPin s.draw.1))) :=
  if_pos ((resetFollows_iff k).2 ⟨hc, hp⟩)

/-- Controller `k` after an abort that no reset follows. -/
def Ctrl.abortOver (k : Ctrl) : Ctrl := { k with orch := { k.orch with recPhase := .none } }

theorem abortFinished_over (h : k.orch.cmd = .abort ∨ k.orch.recPrior = .noAddressMatch) :
    abortFinished s c k = recoveryFinished s c k.abortOver :=
  if_neg (by rw [resetFollows_iff]; tauto)

theorem step_orch_abort_over (hk : s.ctrl? c = some k) (hr : k.orch.recPhase = .abortWait)
    (h : k.orch.cmd = .abort ∨ k.orch.recPrior = .noAddressMatch) (hq : BusAction.stop ∉ k.bus.eq) :
    step (s.withEvent (.orch c)) = recoveryFinished s c k.abortOver :=
  (step_orch_abort hk hr hq).trans (abortFinished_over h)

theorem step_window_abort_over (hk : s.ctrl? c = some k) (hr : k.orch.recPhase = .abortWait)
    (h : k.orch.cmd = .abort ∨ k.orch.recPrior = .noAddressMatch)
    (hw : s.params.timeoutModel = .anyTime ∨ k.engEnabled = false) :
    step (s.withEvent (.windowExpiry c)) = recoveryFinished s c k.abortExpire.abortOver :=
  (step_window_abort hk hr hw).trans (abortFinished_over (k := k.abortExpire) h)

/-! ## The end of a recovery command (40_commands.md R137 to R139) -/

theorem recoveryData_eq (lines soft : Bool) :
    recoveryData lines soft = (if lines then 2 else 0) + (if soft then 1 else 0) := by
  cases lines <;> cases soft <;> rfl

theorem recoveryFinished_abort (hp : k.orch.phase = .cmdRecover) (hc : k.orch.cmd = .abort) :
    recoveryFinished s c k =
      .next ((s.setCtrl c k.commandEnded.released).respond k.orch.curReq .ok
        (if k.orch.abortSoftFail then 1 else 0)) := by
  have hdata : recoveryData false k.orch.abortSoftFail = if k.orch.abortSoftFail then 1 else 0 := by
    cases k.orch.abortSoftFail <;> rfl
  rw [recoveryFinished, hp, hc, ← hdata]
  rfl

theorem recoveryFinished_recover (hp : k.orch.phase = .cmdRecover) (hc : k.orch.cmd = .recover) :
    recoveryFinished s c k =
      .next ((s.setCtrl c k.commandEnded.released).respond k.orch.curReq .ok
        ((if k.orch.linesNotIdle then 2 else 0) + if k.orch.abortSoftFail then 1 else 0)) := by
  rw [recoveryFinished, hp, hc, ← recoveryData_eq]
  rfl

/-- RESET and RECOVER report the lines, RECOVER the soft failure of its abort as well. -/
theorem recoveryFinished_reset (hp : k.orch.phase = .cmdRecover) (hc : k.orch.cmd = .reset ∨ k.orch.cmd = .recover) :
    recoveryFinished s c k =
      .next ((s.setCtrl c k.commandEnded.released).respond k.orch.curReq .ok
        ((if k.orch.linesNotIdle then 2 else 0) +
          if k.orch.cmd = .recover ∧ k.orch.abortSoftFail = true then 1 else 0)) := by
  rcases hc with hc | hc
  · have hdata := recoveryData_eq k.orch.linesNotIdle false
    simp only [recoveryFinished, hp, hc, hdata]
    rfl
  · simp only [recoveryFinished_recover hp hc, hc, true_and]

/-- Settles O26: an ABORT command ends with its abort, and no reset follows. -/
theorem abortCommandEnds : Obligations.AbortCommandEnds := by
  unfold Obligations.AbortCommandEnds
  intro s c k hk hp hc hr
  exact ⟨fun hq => (step_orch_abort_over hk hr (.inl hc) hq).trans (recoveryFinished_abort hp hc),
    fun hw => (step_window_abort_over hk hr (.inl hc) hw).trans (recoveryFinished_abort hp hc)⟩

/-- Settles O27: a poll or the end of the window ends the reset, and with it the command. -/
theorem resetPollEndsCommand : Obligations.ResetPollEndsCommand := by
  unfold Obligations.ResetPollEndsCommand
  intro s c k hk hp hc hr soft
  exact ⟨fun hl => (step_poll_high hk hr hl).trans (recoveryFinished_reset hp hc), step_poll_low hk hr,
    fun hm => (step_window_reset hk hr hm).trans (recoveryFinished_reset hp hc)⟩

/-- Settles O28: the abort of a recover ends in the first step of the reset, or in the answer to RECOVER. -/
theorem recoverAbortThenReset : Obligations.RecoverAbortThenReset := by
  unfold Obligations.RecoverAbortThenReset
  intro s c k hk hr hc expired resetting ended lines stopDone windowMayEnd
  refine ⟨fun hprior => ⟨fun hq => ?_, fun hw => ?_⟩, fun hprior hp hcmd => ⟨fun hq => ?_, fun hw => ?_⟩⟩
  · exact (step_orch_abort hk hr hq).trans (abortFinished_reset hc hprior)
  · exact (step_window_abort hk hr hw).trans (abortFinished_reset hc hprior)
  · exact (step_orch_abort_over hk hr (.inr hprior) hq).trans (recoveryFinished_recover hp hcmd)
  · exact (step_window_abort_over hk hr (.inr hprior) hw).trans (recoveryFinished_recover hp hcmd)

/-! ## Completion (40_commands.md R122, R125) -/

theorem completion_answers (hb : k.record.errorCode ≠ .busError) (hn : k.record.errorCode ≠ .noAddressMatch) :
    completion s c k =
      (s.setCtrl c { k.released with done := false }).respond k.orch.curReq k.record.errorCode 0 :=
  if_neg (not_or.2 ⟨hb, hn⟩)

theorem completion_recovers (h : k.record.errorCode = .busError ∨ k.record.errorCode = .noAddressMatch) :
    completion s c k =
      s.setCtrl c
        ({ k with done := false, orch := { k.orch with phase := .postRecover } }.recoverStart k.record.errorCode) :=
  if_pos h

/-- Settles O29: by the error in the record. -/
theorem completionAnswersOrRecovers : Obligations.CompletionAnswersOrRecovers := by
  unfold Obligations.CompletionAnswersOrRecovers
  intro s c k hk hr hp hd hen
  rw [step_orch_completed hk hr hp hd]
  refine ⟨fun hb hn => congrArg _ (completion_answers hb hn), fun h => ?_⟩
  rw [completion_recovers h, recoverStart_eq (by exact hen)]

/-! ## The end of the recovery of a transfer (40_commands.md R116 to R118, R124, R125, 43_recovery.md R238) -/

/-- Settles O31: every end of the recovery of a failed transfer answers its error. -/
theorem postRecoveryAnswersError : Obligations.PostRecoveryAnswersError := by
  unfold Obligations.PostRecoveryAnswersError
  intro s c k x hk hp hc error ended
  refine ⟨fun hr hprior => ⟨fun hq => ?_, fun hw => ?_⟩, fun hr => ⟨fun hl => ?_, step_poll_low hk hr, fun hm => ?_⟩⟩
  · exact (step_orch_abort_over hk hr (.inr hprior) hq).trans (recoveryFinished_post rfl c hp hc)
  · exact (step_window_abort_over hk hr (.inr hprior) hw).trans (recoveryFinished_post rfl c hp hc)
  · exact (step_poll_high hk hr hl).trans (recoveryFinished_post (drawLines_params ..) c hp hc)
  · exact (step_window_reset hk hr hm).trans (recoveryFinished_post rfl c hp hc)

/-- Settles O32: every end of the recovery before arming arms the transfer. -/
theorem preRecoveryArms : Obligations.PreRecoveryArms := by
  unfold Obligations.PreRecoveryArms
  intro s c k x hk hp hc hi armed
  refine ⟨fun hr hprior hen => ⟨fun hq => ?_, fun hw => ?_⟩,
    fun hr => ⟨fun hl => ?_, step_poll_low hk hr, fun hm => ?_⟩⟩
  · exact (step_orch_abort_over hk hr (.inr hprior) hq).trans (recoveryFinished_pre rfl c hp hc hi hen)
  · exact (step_window_abort_over hk hr (.inr hprior) hw).trans (recoveryFinished_pre rfl c hp hc hi hen)
  · exact (step_poll_high hk hr hl).trans (recoveryFinished_pre (drawLines_params ..) c hp hc hi rfl)
  · exact (step_window_reset hk hr hm).trans (recoveryFinished_pre rfl c hp hc hi rfl)

/-! ## The timeout and two windows (60_exceptions.md R273, R274, R280) -/

theorem step_timeout_anyTime (hk : s.ctrl? c = some k) (hm : s.params.timeoutModel = .anyTime)
    (hp : k.orch.phase = .wait) (hd : k.done = false) :
    step (s.withEvent (.timeout c)) = .next (s.setCtrl c k.timeoutFires) := by
  have hen : k.timeoutEnabled s.params.timeoutModel = true := by simp [Ctrl.timeoutEnabled, hp, hd, hm]
  rw [step_withEvent, runEvent, onAgent_some hk, if_pos hen]

/-- A controller in the wait runs a transfer. -/
theorem Ctrl.Sound.waits_for_transfer {buf : Nat} (hs : k.Sound buf) (hp : k.orch.phase = .wait) :
    ∃ x, k.orch.cmd = .transfer x := by
  have hrun := hs.running
  rw [hp] at hrun
  cases hc : k.orch.cmd with
  | transfer x => exact ⟨x, rfl⟩
  | none | abort | reset | recover => rw [hc] at hrun; exact hrun.elim

/-- The window of a timed-out transfer's abort ends in the first step of a reset (43_recovery.md R232, R233, R236). -/
theorem step_window_timedOut (hk : s.ctrl? c = some k.timeoutFires) (hm : s.params.timeoutModel = .anyTime)
    (hc : k.orch.cmd = .transfer x) (hok : k.record.errorCode = .ok) :
    ∃ pin, step (s.withEvent (.windowExpiry c)) =
      .next (s.draw.2.setCtrl c (k.timeoutFires.abortExpire.resetStart pin)) := by
  have hcmd : k.timeoutFires.abortExpire.orch.cmd ≠ .abort := fun h => by cases hc.symm.trans h
  have hprior : k.timeoutFires.abortExpire.orch.recPrior ≠ .noAddressMatch := fun h => by cases hok.symm.trans h
  exact ⟨_, (step_window_abort hk rfl (.inl hm)).trans (abortFinished_reset hcmd hprior)⟩

/-- The window of a reset ends the recovery of a timed-out transfer with the answer Timeout. -/
theorem step_window_answersTimeout {q : Requester} (hk : s.ctrl? c = some k) (hr : k.orch.recPhase = .resetWait)
    (hm : s.params.timeoutModel = .anyTime) (hp : k.orch.phase = .postRecover) (hc : k.orch.cmd = .transfer x)
    (htime : k.orch.timedOut = true) (hq : s.req? k.orch.curReq = some q) :
    ∃ t k', step (s.withEvent (.windowExpiry c)) = .next t ∧
      t.responsesOf k.orch.curReq = s.responsesOf k.orch.curReq ++ [responseWord .timeout 0] ∧
      t.ctrl? c = some k' ∧ k'.record.opState = .idle ∧ k'.record.owner = 0 ∧ k'.record.errorCode = .timeout ∧
      k'.bus.enabled = true ∧ k'.orch.phase = .free := by
  have herr : (if k.resetExpire.resetFinish.orch.timedOut then Kind.timeout
      else k.resetExpire.resetFinish.record.errorCode) = .timeout := if_pos htime
  have hend := (step_window_reset hk hr hm).trans
    (recoveryFinished_post (s := s) (k := k.resetExpire.resetFinish) rfl c hp hc)
  rw [herr] at hend
  exact ⟨_, _, hend, responsesOf_respond (s := s.setCtrl c _) hq _ _,
    (respond_ctrl? ..).trans (ctrl?_setCtrl_self hk _), rfl, rfl, rfl, rfl, rfl⟩

/-- Settles O58: the timeout starts a recovery for Ok, the first window its reset, the second the answer. -/
theorem timeoutAnswersWithinTwoWindows : Obligations.TimeoutAnswersWithinTwoWindows := by
  unfold Obligations.TimeoutAnswersWithinTwoWindows
  intro s c k hinv hm hk hp hd
  have hs := hinv.sound c k hk
  obtain ⟨x, hc⟩ := hs.waits_for_transfer hp
  have hcur : k.orch.curReq = k.record.owner := hs.curReq (by simp [hp])
  have hown : k.record.owner ≠ 0 := mt hs.owned.1 (by simp [hp])
  obtain ⟨q, hq, _⟩ := hinv.ownerWaits c k hk hown
  have hk1 := ctrl?_setCtrl_self hk k.timeoutFires
  obtain ⟨pin, hstep2⟩ := step_window_timedOut hk1 hm hc (hs.activeOk hp hd)
  have hk2 := ctrl?_setCtrl_self (s := (s.setCtrl c k.timeoutFires).draw.2) ((draw_ctrl? ..).trans hk1)
    (k.timeoutFires.abortExpire.resetStart pin)
  have hreqs : ((s.setCtrl c k.timeoutFires).draw.2.setCtrl c (k.timeoutFires.abortExpire.resetStart pin)).reqs =
      s.reqs := draw_reqs _
  have hm2 : ((s.setCtrl c k.timeoutFires).draw.2.setCtrl c
      (k.timeoutFires.abortExpire.resetStart pin)).params.timeoutModel = .anyTime := by
    rw [setCtrl_params, draw_params, setCtrl_params, hm]
  obtain ⟨t, k3, hstep3, hans, hend⟩ := step_window_answersTimeout hk2 rfl hm2 rfl hc rfl
    ((req?_congr hreqs _).trans (hcur ▸ hq))
  refine ⟨_, _, t, k3, step_timeout_anyTime hk hm hp hd, hstep2, hstep3, ?_, hend⟩
  rw [← responsesOf_congr hreqs, ← hcur]
  exact hans

end Recovery

end Sys2Proof.Machine
end

section
/-! PROOFS. The statements of spec/41_sequencer.md: the rows of the sequencer, the actions of the engine, the flags that
Env raises, and which agents have no step. -/

namespace Sys2Proof.Machine

section Agents

variable {s : State} {c : Nat} {k : Ctrl} {st : OpState}

/-! ## Agents without a step (41_sequencer.md R160, R180, R189, R190) -/

theorem onAgent_disabled {en : Ctrl → Bool} (hk : s.ctrl? c = some k) (hen : en k = false) (run : Ctrl → Result) :
    s.onAgent c en run = .next s := by
  rw [onAgent_some hk, hen, if_neg Bool.false_ne_true]

theorem active_iff : st.active = true ↔ st ∈ [OpState.start, .write, .read, .repeatStart] := by
  cases st <;> decide

theorem active_eq_false_iff : st.active = false ↔ st ∈ [OpState.idle, .writeSuspended, .readSuspended] := by
  cases st <;> decide

theorem seqEnabled_eq_false_iff (k : Ctrl) :
    k.seqEnabled = false ↔
      k.bus.enabled = false ∨ k.ie = false ∨ k.record.opState ∈ [OpState.idle, .writeSuspended, .readSuspended] ∨
        (k.bus.busErr = false ∧ k.bus.nackFlag = false ∧ k.bus.rdy = false) := by
  simp only [Ctrl.seqEnabled, Bool.and_eq_false_iff, Bool.or_eq_false_iff, active_eq_false_iff, or_assoc, and_assoc]

theorem engEnabled_eq_false_iff (k : Ctrl) :
    k.engEnabled = false ↔
      k.bus.enabled = false ∨ k.bus.busErr = true ∨ k.bus.nackFlag = true ∨
        (k.bus.eq = [] ∧ k.bus.rxPending = false) := by
  simp only [Ctrl.engEnabled, Bool.and_eq_false_iff, Bool.or_eq_false_iff, Bool.not_eq_false', List.isEmpty_iff,
    or_assoc]

/-- Settles O33: each of the agents is disabled. -/
theorem agentsWithoutStep : Obligations.AgentsWithoutStep := by
  unfold Obligations.AgentsWithoutStep
  intro s c k hk
  refine ⟨fun h => ?_, fun h => ?_, fun h => ⟨?_, ?_⟩⟩
  · exact onAgent_disabled hk ((seqEnabled_eq_false_iff k).2 h) _
  · exact onAgent_disabled hk ((engEnabled_eq_false_iff k).2 h) _
  · exact onAgent_disabled hk h _
  · exact onAgent_disabled hk h _

end Agents

section Sequencer

variable {s : State} {c i : Nat} {k : Ctrl} {r : Byte} {q : Requester} {st : OpState}

/-! ## The step of a sequencer (41_sequencer.md R160, R162) -/

theorem step_seq_enabled (hk : s.ctrl? c = some k) (hen : k.seqEnabled = true) :
    step (s.withEvent (.seq c)) = seqStep s c k := by
  rw [step_withEvent, runEvent, onAgent_some hk, if_pos hen]

theorem Ctrl.SeqReady.clear (h : k.SeqReady st) : k.bus.Clear := ⟨h.enabled, h.noBusErr, h.noNack⟩

/-- A flag that a row sets on a condition and else leaves. -/
theorem if_true_else_eq_or (p : Prop) [Decidable p] (b : Bool) : (if p then true else b) = (b || decide p) := by
  rw [Bool.if_true_left, Bool.or_comm]

/-! ## The address (41_sequencer.md R163) -/

theorem step_seq_address (hk : s.ctrl? c = some k) (hst : st = .start ∨ st = .repeatStart) (h : k.SeqReady st) :
    step (s.withEvent (.seq c)) = .next (s.setCtrl c k.rowAddress) := by
  have hen : k.seqEnabled = true := seqReady_enabled h (by rcases hst with rfl | rfl <;> rfl)
  rw [step_seq_enabled hk hen, seqStep, h.noBusErr, h.noNack, h.state]
  rcases hst with rfl | rfl <;> rfl

theorem rowAddress_eq (h : k.bus.Clear) :
    k.rowAddress =
      if k.record.txLen = 0 then
        { k with
          bus :=
            { k.bus with
              nackArmed := k.bus.nackArmed || decide (k.record.rxLen = 1), rdy := false
              eq := k.bus.eq ++ [.send (k.record.targetAddress ||| 0x01)] }
          record := { k.record with opState := .read } }
      else
        { k with
          bus := { k.bus with rdy := false, eq := k.bus.eq ++ [.send (k.record.targetAddress &&& 0xFE)] }
          record := { k.record with opState := .write } } := by
  rw [Ctrl.rowAddress, if_true_else_eq_or, (h.arm _).send, h.send]
  rfl

/-- Settles O34: the row of the address, its pushes queued. -/
theorem sequencerSendsAddress : Obligations.SequencerSendsAddress := by
  unfold Obligations.SequencerSendsAddress
  intro s c k st hk hst h
  rw [step_seq_address hk hst h, rowAddress_eq h.clear]

/-! ## The write phase (41_sequencer.md R164 to R166) -/

theorem inBuffers_eq_true (hq : s.req? r = some q) (hi : i < s.params.bufBytes) : s.inBuffers r i = true := by
  simp [State.inBuffers, hq, hi]

theorem txByte_eq_some (hq : s.req? r = some q) (hi : i < s.params.bufBytes) :
    s.txByte r i = some (s.mem.read (txAddr r i)) :=
  if_pos (inBuffers_eq_true hq hi)

theorem rxStore_eq_some (hq : s.req? r = some q) (hi : i < s.params.bufBytes) (v : Byte) :
    s.rxStore r i v = some { s with mem := s.mem.write (rxAddr r i) v } :=
  if_pos (inBuffers_eq_true hq hi)

/-- Settles O35: the row of a byte to write, its SEND queued. -/
theorem sequencerWritesByte : Obligations.SequencerWritesByte := by
  unfold Obligations.SequencerWritesByte
  intro s c k q hk h hcur hq hi
  rw [step_seq_write hk h, seqWrite, if_pos hcur, txByte_eq_some hq hi]
  dsimp only
  rw [Ctrl.rowWriteByte, h.clear.send]

theorem seqWrite_over (hcur : k.record.cursor = k.record.txLen) :
    seqWrite s c k =
      if k.record.rxLen = 0 then .next (s.setCtrl c k.rowWriteEnd) else .next (s.setCtrl c k.rowWriteToRead) := by
  rw [seqWrite, hcur, if_neg (Nat.lt_irrefl _), if_neg (Nat.lt_irrefl _)]

/-- Settles O36: the row that ends a write, its STOP queued. -/
theorem sequencerEndsWrite : Obligations.SequencerEndsWrite := by
  unfold Obligations.SequencerEndsWrite
  intro s c k hk h hcur hrx
  rw [step_seq_write hk h, seqWrite_over hcur, if_pos hrx, Ctrl.rowWriteEnd, h.clear.push]

theorem rowWriteToRead_eq (h : k.bus.Clear) :
    k.rowWriteToRead =
      { k with
        bus :=
          { k.bus with
            rdy := false
            nackArmed := k.bus.nackArmed || (decide (k.record.rxLen = 1) && k.record.flagStop)
            eq := k.bus.eq ++ [.start, .send (k.record.targetAddress ||| 0x01)] }
        record := { k.record with cursor := 0, opState := .read } } := by
  have hstart : ({ k.bus with rdy := false } : Bus).push .start =
      { k.bus with rdy := false, eq := k.bus.eq ++ [.start] } :=
    push_clear _ _ h.enabled h.noBusErr h.noNack
  have hsend (n : Bool) (v : Byte) :
      ({ k.bus with rdy := false, eq := k.bus.eq ++ [.start], nackArmed := n } : Bus).push (.send v) =
        { k.bus with rdy := false, eq := k.bus.eq ++ [.start] ++ [.send v], nackArmed := n } :=
    push_clear _ _ h.enabled h.noBusErr h.noNack
  simp only [Ctrl.rowWriteToRead, hstart, hsend, if_true_else_eq_or, Bool.decide_and, Bool.decide_eq_true,
    List.append_assoc, List.singleton_append, addrRead]
  rfl

/-- Settles O37: the row that turns to the read phase, its two pushes queued. -/
theorem sequencerTurnsToRead : Obligations.SequencerTurnsToRead := by
  unfold Obligations.SequencerTurnsToRead
  intro s c k hk h hcur hrx
  rw [step_seq_write hk h, seqWrite_over hcur, if_neg hrx, rowWriteToRead_eq h.clear]

/-! ## The read phase (41_sequencer.md R167 to R170, R186) -/

theorem readData_eq (b : Bus) :
    b.readData = { b with rdy := false, rxPending := if BusAction.stop ∈ b.eq then b.rxPending else true } := by
  simp [Bus.readData, Bus.stopQueued]

/-- After a final byte that is followed by a STOP the engine owes nothing more. -/
theorem readData_push_stop {b : Bus} (h : b.enabled = true) :
    (b.push .stop).readData = { b with rdy := false, eq := b.eq ++ [.stop] } := by
  simp [push_stop b h, readData_eq]

/-- The cursor reaches the read length where it does as a number. -/
theorem cursor_succ_eq_iff (h : k.record.cursor.toNat < k.record.rxLen.toNat) :
    k.record.cursor + 1 = k.record.rxLen ↔ k.record.cursor.toNat + 1 = k.record.rxLen.toNat := by
  bv_omega

theorem rowReadEnd_of_final (h : k.record.cursor + 1 = k.record.rxLen) :
    k.rowReadByte.rowReadEnd =
      { k with
        bus := k.bus.readData
        record :=
          { k.record with
            cursor := k.record.rxLen, errorCode := .ok, opState := if k.record.flagStop then .idle else .readSuspended }
        ie := false
        done := true } := by
  rw [Ctrl.rowReadEnd, Ctrl.rowReadByte, if_pos h, h]

theorem rowReadEnd_of_not_final (h : k.record.cursor + 1 ≠ k.record.rxLen) : k.rowReadByte.rowReadEnd = k.rowReadByte :=
  if_neg h

theorem rowReadArm_final (h : k.record.cursor.toNat + 1 = k.record.rxLen.toNat) :
    k.rowReadArm = if k.record.flagStop then { k with bus := k.bus.push .stop } else { k with ie := false } :=
  if_pos h

theorem rowReadArm_not_final (h : k.record.cursor.toNat + 1 ≠ k.record.rxLen.toNat) :
    k.rowReadArm =
      { k with
        bus :=
          { k.bus with
            nackArmed := k.bus.nackArmed ||
              (decide (k.record.cursor.toNat + 2 = k.record.rxLen.toNat) && k.record.flagStop) } } := by
  rw [Ctrl.rowReadArm, if_neg h]
  split
  next harm => simp [harm]
  next hkeep =>
    have hno : (decide (k.record.cursor.toNat + 2 = k.record.rxLen.toNat) && k.record.flagStop) = false := by
      simpa using hkeep
    rw [hno, Bool.or_false]

/-- The final byte of a read with the STOP flag (41_sequencer.md R167, R169, R170). -/
theorem rowRead_stops (hen : k.bus.enabled = true) (h : k.record.cursor.toNat + 1 = k.record.rxLen.toNat)
    (hf : k.record.flagStop = true) :
    k.rowRead =
      { k with
        bus := { k.bus with rdy := false, eq := k.bus.eq ++ [.stop] }
        record := { k.record with cursor := k.record.rxLen, errorCode := .ok, opState := .idle }
        ie := false
        done := true } := by
  have hcur := (cursor_succ_eq_iff (k := k) (by omega)).2 h
  rw [Ctrl.rowRead, rowReadArm_final h, if_pos hf, rowReadEnd_of_final (by exact hcur), readData_push_stop hen]
  simp [hf]

/-- The final byte of a read without the STOP flag (41_sequencer.md R167, R169, R170, R186). -/
theorem rowRead_suspends (h : k.record.cursor.toNat + 1 = k.record.rxLen.toNat) (hf : k.record.flagStop = false) :
    k.rowRead =
      { k with
        bus := { k.bus with rdy := false, rxPending := if BusAction.stop ∈ k.bus.eq then k.bus.rxPending else true }
        record := { k.record with cursor := k.record.rxLen, errorCode := .ok, opState := .readSuspended }
        ie := false
        done := true } := by
  have hcur := (cursor_succ_eq_iff (k := k) (by omega)).2 h
  rw [Ctrl.rowRead, rowReadArm_final h, hf, if_neg Bool.false_ne_true, rowReadEnd_of_final (by exact hcur), readData_eq]
  simp [hf]

/-- A byte before the final one (41_sequencer.md R168, R169, R186). -/
theorem rowRead_continues (h : k.record.cursor.toNat + 1 < k.record.rxLen.toNat) :
    k.rowRead =
      { k with
        bus :=
          { k.bus with
            rdy := false, rxPending := if BusAction.stop ∈ k.bus.eq then k.bus.rxPending else true
            nackArmed := k.bus.nackArmed ||
              (decide (k.record.cursor.toNat + 2 = k.record.rxLen.toNat) && k.record.flagStop) }
        record := { k.record with cursor := k.record.cursor + 1 } } := by
  have hcur := mt (cursor_succ_eq_iff (k := k) (by omega)).1 h.ne
  rw [Ctrl.rowRead, rowReadArm_not_final h.ne, rowReadEnd_of_not_final (by exact hcur), Ctrl.rowReadByte, readData_eq]

/-- Settles O38: the byte is stored, and the rows are those of the final byte, with STOP or without, or of a byte before
it. -/
theorem sequencerReadsByte : Obligations.SequencerReadsByte := by
  unfold Obligations.SequencerReadsByte
  intro s c k q hk h hcur hq hi
  have hread : step (s.withEvent (.seq c)) =
      .next (State.setCtrl
        { s with mem := s.mem.write (rxAddr k.record.owner k.record.cursor.toNat) k.bus.data } c k.rowRead) := by
    rw [step_seq_read hk h, seqRead, if_neg (Nat.not_le.2 hcur), rxStore_eq_some hq hi]
  rw [hread]
  refine ⟨fun hlast hf => ?_, fun hlast hf => ?_, fun hlt => ?_⟩
  · rw [rowRead_stops h.enabled hlast hf]
  · rw [rowRead_suspends hlast hf]
  · rw [rowRead_continues hlt]

/-! ## The fault rows (41_sequencer.md R162, R171, R172) -/

theorem rowBusError_eq (h : k.bus.enabled = true) :
    k.rowBusError =
      { k with
        bus := { k.bus with busErr := false, rdy := false, eq := k.bus.eq ++ [.stop] }
        record := { k.record with errorCode := .busError, opState := .idle }
        ie := false
        done := true } := by
  rw [Ctrl.rowBusError, push_stop _ h, Ctrl.endWithError]

theorem rowNack_eq (h : k.bus.enabled = true) :
    k.rowNack =
      { k with
        bus := { k.bus with nackFlag := false, rdy := false, eq := k.bus.eq ++ [.stop] }
        record := { k.record with errorCode := .noAddressMatch, opState := .idle }
        ie := false
        done := true } := by
  rw [Ctrl.rowNack, push_stop _ h, Ctrl.endWithError]

/-- A fault flag alone is a condition for a step (41_sequencer.md R160). -/
theorem seqEnabled_of_fault (hen : k.bus.enabled = true) (hie : k.ie = true)
    (hst : k.record.opState ∈ [OpState.start, .write, .read, .repeatStart])
    (hf : k.bus.busErr = true ∨ k.bus.nackFlag = true) : k.seqEnabled = true := by
  have hact : k.record.opState.active = true := active_iff.2 hst
  rcases hf with hf | hf <;> simp [Ctrl.seqEnabled, hen, hie, hact, hf]

/-- Settles O39: by the flag that is set, the bus error first. -/
theorem sequencerTakesFault : Obligations.SequencerTakesFault := by
  unfold Obligations.SequencerTakesFault
  intro s c k hk hen hie hst
  refine ⟨fun hb => ?_, fun hb hn => ?_⟩
  · rw [step_seq_enabled hk (seqEnabled_of_fault hen hie hst (.inl hb)), seqStep, if_pos hb, rowBusError_eq hen]
  · rw [step_seq_enabled hk (seqEnabled_of_fault hen hie hst (.inr hn)), seqStep, hb, if_neg Bool.false_ne_true,
      if_pos hn, rowNack_eq hen]

end Sequencer

section Engine

variable {s : State} {c : Nat} {k : Ctrl} {v : Byte} {rest : List BusAction}

/-! ## The actions of the engine (41_sequencer.md R181 to R184) -/

/-- Settles O40: by the action at the front of the queue, or the byte owed behind an empty one. -/
theorem engineStartStopReceive : Obligations.EngineStartStopReceive := by
  unfold Obligations.EngineStartStopReceive
  intro s c k rest hk h
  refine ⟨fun hq => ?_, fun hq => ?_, fun hq hrx => ?_⟩
  · rw [step_eng hk h (.inl (by simp [hq])), engStep_start hq]
    simp [Ctrl.engStart, Ctrl.emit]
  · rw [step_eng hk h (.inl (by simp [hq])), engStep_stop hq]
    cases hb : k.bus.busy <;> simp [Ctrl.engStop, Ctrl.emit, hb]
  · rw [step_eng hk h (.inr hrx), engStep_receive hq]
    rfl

theorem engSend_nack (ha : s.draw.1.getLsbD 0 = true) :
    k.engSend v rest (drawnAck s.draw.1) = k.engSendNack v := by
  rw [drawnAck, if_pos ha, Ctrl.engSend]

theorem engSend_ack (ha : s.draw.1.getLsbD 0 = false) :
    k.engSend v rest (drawnAck s.draw.1) = k.engSendAck v rest := by
  rw [drawnAck, ha, if_neg Bool.false_ne_true, Ctrl.engSend]

/-- Settles O41: by the acknowledge, and where it is an ACK by whether the byte is a read address. -/
theorem engineSendsByte : Obligations.EngineSendsByte := by
  unfold Obligations.EngineSendsByte
  intro s c k v rest hk h hq
  rw [step_eng hk h (.inl (by simp [hq])), engStep_send hq]
  refine ⟨fun ha => ?_, fun ha hs hv => ?_, fun ha hw => ?_⟩
  · rw [engSend_nack ha]
    rfl
  · rw [engSend_ack ha, Ctrl.engSendAck, if_pos (Bool.and_eq_true_iff.2 ⟨hs, hv⟩)]
    rfl
  · rw [engSend_ack ha, Ctrl.engSendAck, Bool.and_eq_false_iff.2 hw, if_neg Bool.false_ne_true]
    simp [Ctrl.emit]

/-- Settles O42: both events are enabled with the controller. -/
theorem envRaisesFlags : Obligations.EnvRaisesFlags := by
  unfold Obligations.EnvRaisesFlags
  intro s c k hk hen
  exact ⟨(onAgent_some hk _ _).trans (if_pos hen), (onAgent_some hk _ _).trans (if_pos hen)⟩

end Engine

end Sys2Proof.Machine
end

section
/-! PROOFS. The statements of spec/42_timing.md: `program_timing` path by path, and the worked values. -/

namespace Sys2Proof.Machine

section Timing

variable {table : List CalEntry} {clock target : Word} {e : CalEntry}

/-! ## The paths of `program_timing` (42_timing.md R211 to R217) -/

theorem programTiming_zero (table : List CalEntry) (clock : Word) : programTiming table clock 0 = .invalid :=
  if_pos rfl

theorem isFast_eq_false (hs : target.toNat ≤ 100000) : isFast target = false :=
  decide_eq_false hs.not_gt

theorem programTiming_calibrated (h0 : target ≠ 0) (hf : 100000 < target.toNat)
    (he : calibration table clock target = some e) :
    programTiming table clock target = .calibrated e.tLow e.tHigh := by
  rw [programTiming, if_neg h0, isFast, if_pos (decide_eq_true hf), he]

/-- The divider path is taken by a standard target (R213) and by a fast one that the table does not hold (R215). -/
theorem programTiming_eq_programDivider (h0 : target ≠ 0)
    (h : target.toNat ≤ 100000 ∨ calibration table clock target = none) :
    programTiming table clock target = programDivider clock target := by
  rw [programTiming, if_neg h0]
  obtain hs | hn := h
  · rw [isFast_eq_false hs, if_neg Bool.false_ne_true]
  · rw [hn, ite_self]

theorem programDivider_invalid (hd : dividerValue clock target = 0 ∨ 0xFFFF < dividerValue clock target) :
    programDivider clock target = .invalid :=
  if_pos hd

/-- A divider value from 1 to 0xFFFF is a half word, so no bit of it is lost. -/
theorem programDivider_divider (h1 : 0 < dividerValue clock target) (h2 : dividerValue clock target ≤ 0xFFFF) :
    ∃ v : Half, v.toNat = dividerValue clock target ∧ programDivider clock target = .divider v (isFast target) :=
  ⟨BitVec.ofNat 16 (dividerValue clock target), (BitVec.toNat_ofNat ..).trans (Nat.mod_eq_of_lt (Nat.lt_succ_of_le h2)),
    if_neg (by omega)⟩

end Timing

/-- Settles O19: by the path that the target and the table choose. -/
theorem programTimingRule : Obligations.ProgramTimingRule := by
  unfold Obligations.ProgramTimingRule
  intro table clock target
  refine ⟨fun h0 => ?_, fun e h0 hf he => programTiming_calibrated h0 hf he, fun h0 hpath => ?_⟩
  · rw [h0, programTiming_zero]
  · rw [programTiming_eq_programDivider h0 hpath]
    exact ⟨programDivider_invalid, programDivider_divider⟩

/-- Settles O20: the worked values are evaluated, and a target of 0 is invalid at every clock. -/
theorem workedTimingValues : Obligations.WorkedTimingValues := by
  unfold Obligations.WorkedTimingValues
  have hzero : ∀ clock, programTiming [] clock 0 = .invalid := programTiming_zero []
  simp only [hzero, implies_true, and_true]
  decide

end Sys2Proof.Machine
end

section
/-! PROOFS. The statements of spec/43_recovery.md: the first step of ABORT, RECOVER and RESET, and that a recovery writes
no field of the record. -/

namespace Sys2Proof.Machine

section RecoveryStart

variable {s : State} {r c : Byte} {q : Requester} {k : Ctrl}

/-! ## The first step of a recovery command (40_commands.md R137 to R139, 43_recovery.md R230, R233) -/

theorem onFreeCtrl_free (hr : s.Ready r q) (hk : s.ctrl? c.toNat = some k) (ho : k.record.owner = 0)
    (start : Ctrl → State) : onFreeCtrl r c s start = .next (start k) := by
  simp only [onFreeCtrl, accept_ready hr, State.onCtrl, hk]
  exact if_neg (not_not.2 ho)

/-- Settles O24: the controller is taken, and its abort starts on an enabled controller. -/
theorem abortAndRecoverStart : Obligations.AbortAndRecoverStart := by
  unfold Obligations.AbortAndRecoverStart
  intro s r q c k hr hk ho hen aborting
  constructor
  · rw [exec, execAbort, onFreeCtrl_free hr hk ho, abortStart_eq _ (by exact hen)]
    rfl
  · rw [exec, execRecover, onFreeCtrl_free hr hk ho, recoverStart_eq (by exact hen)]
    rfl

/-- Settles O25: the controller is taken, and its reset starts with the `pin_set` drawn. -/
theorem resetStart : Obligations.ResetStart := by
  unfold Obligations.ResetStart
  intro s r q c k hr hk ho
  rw [exec, execReset, onFreeCtrl_free hr hk ho]
  rfl

end RecoveryStart

section Silence

variable {s t u : State} {c buf : Nat} {k k' k0 : Ctrl}

/-! ## What is masked during a recovery (43_recovery.md R239) -/

theorem Ctrl.Sound.ie_of_recovering (hs : k.Sound buf) (hr : k.orch.recPhase ≠ .none) : k.ie = false := by
  by_contra hie
  obtain ⟨_, _, _, hnone, _⟩ := hs.waiting (Bool.eq_true_of_not_eq_false hie)
  exact hr hnone

theorem Ctrl.Sound.seqEnabled_of_recovering (hs : k.Sound buf) (hr : k.orch.recPhase ≠ .none) : k.seqEnabled = false :=
  (seqEnabled_eq_false_iff k).2 (.inr (.inl (hs.ie_of_recovering hr)))

theorem Ctrl.Sound.timeoutEnabled_of_recovering (hs : k.Sound buf) (hr : k.orch.recPhase ≠ .none) (m : TimeoutModel) :
    k.timeoutEnabled m = false := by
  have hwait : k.orch.phase ≠ .wait := fun h => hr (hs.recovering.2 (.inr h))
  simp [Ctrl.timeoutEnabled, hwait]

/-! ## What a recovery leaves of the record (43_recovery.md R240) -/

/-- After a step to `t`, the recovery of controller `c` is over or the record is that of `k`. -/
def KeepsRecord (c : Nat) (k : Ctrl) (t : State) : Prop :=
  ∃ k', t.ctrl? c = some k' ∧ (k'.orch.recPhase = .none ∨ k'.record = k.record)

theorem KeepsRecord.set (hk : u.ctrl? c = some k0) (h : k'.orch.recPhase = .none ∨ k'.record = k.record) :
    KeepsRecord c k (u.setCtrl c k') :=
  ⟨k', ctrl?_setCtrl_self hk k', h⟩

theorem KeepsRecord.release (hk : u.ctrl? c = some k0) (h : k'.orch.recPhase = .none) (res : Kind) (d : Word) :
    KeepsRecord c k (Machine.release u c k' res d) :=
  ⟨_, (respond_ctrl? ..).trans (ctrl?_setCtrl_self hk _), .inl h⟩

/-- The arming of an Idle controller starts no recovery: only a resume can be rejected (40_commands.md R118, R120). -/
theorem keepsRecord_stepB {x : TransferArgs} (hk : u.ctrl? c = some k0) (hi : k'.record.opState = .idle)
    (hr : k'.orch.recPhase = .none) (ht : stepB u c k' x = .next t) : KeepsRecord c k t := by
  have harm : (k'.load x).arm = some ((k'.load x).pushStart.beginWait .start) := by rw [Ctrl.arm, Ctrl.load, hi]
  rw [stepB_armed harm] at ht
  cases ht
  exact .set hk (.inl hr)

/-- The phase of the orchestrator goes on with no recovery; the one before arming goes on from Idle. -/
theorem keepsRecord_recoveryFinished (hk : u.ctrl? c = some k0) (hr : k'.orch.recPhase = .none)
    (hi : k'.orch.phase = .preRecover → k'.record.opState = .idle) (ht : recoveryFinished u c k' = .next t) :
    KeepsRecord c k t := by
  unfold recoveryFinished at ht
  split at ht
  next hp _ => exact keepsRecord_stepB hk (by rw [record_applyMux, hi hp]) (by rw [orch_applyMux, hr]) ht
  next => cases ht; exact .release hk (by simp [Ctrl.postRecovered, hr]) _ _
  next => cases ht; exact .release (k' := k'.commandEnded) hk hr _ _
  next => cases ht; exact .release (k' := k'.commandEnded) hk hr _ _
  next => cases ht; exact .release (k' := k'.commandEnded) hk hr _ _
  next => cases ht

/-- A finished abort goes on to the reset, which writes no field of the record, or the recovery is over. -/
theorem keepsRecord_abortFinished (hk : s.ctrl? c = some k0) (hrec : k'.record = k.record)
    (hi : k'.orch.phase = .preRecover → k'.record.opState = .idle) (ht : abortFinished s c k' = .next t) :
    KeepsRecord c k t := by
  unfold abortFinished at ht
  split at ht
  · cases ht
    exact .set ((draw_ctrl? ..).trans hk) (.inr hrec)
  · exact keepsRecord_recoveryFinished (k' := k'.abortOver) hk rfl hi ht

theorem keepsRecord_orchStep (hs : k.Sound buf) (hk : s.ctrl? c = some k) (hr : k.orch.recPhase ≠ .none)
    (ht : orchStep s c k = .next t) : KeepsRecord c k t := by
  have hlines : (s.drawLines k.bus.busy).2.ctrl? c = some k := (drawLines_ctrl? ..).trans hk
  unfold orchStep at ht
  split at ht
  next hnone => exact absurd hnone hr
  next => exact keepsRecord_abortFinished hk rfl hs.preIdle ht
  next =>
    split at ht
    · exact keepsRecord_recoveryFinished (k' := k.resetFinish) hlines rfl hs.preIdle ht
    · cases ht
      exact ⟨k, hlines, .inr rfl⟩

theorem keepsRecord_expiryStep (hs : k.Sound buf) (hk : s.ctrl? c = some k) (ht : expiryStep s c k = .next t) :
    KeepsRecord c k t := by
  unfold expiryStep at ht
  split at ht
  next => cases ht; exact ⟨k, hk, .inr rfl⟩
  next => exact keepsRecord_abortFinished (k' := k.abortExpire) hk rfl hs.preIdle ht
  next => exact keepsRecord_recoveryFinished (k' := k.resetExpire.resetFinish) hk rfl hs.preIdle ht

@[simp] theorem engSend_record (k : Ctrl) (v : Byte) (rest : List BusAction) (a : Ack) :
    (k.engSend v rest a).record = k.record := by
  cases a with
  | ack => rw [Ctrl.engSend, Ctrl.engSendAck]; split <;> rfl
  | nack => rfl

@[simp] theorem engStop_record (k : Ctrl) (rest : List BusAction) : (k.engStop rest).record = k.record := by
  unfold Ctrl.engStop
  split <;> rfl

/-- The engine writes no field of the record, in a recovery or outside one. -/
theorem keepsRecord_engStep (hk : s.ctrl? c = some k) : KeepsRecord c k (engStep s c k) := by
  have hdraw : s.draw.2.ctrl? c = some k := (draw_ctrl? ..).trans hk
  unfold engStep
  split
  · exact .set hk (.inr rfl)
  · exact .set hdraw (.inr (engSend_record ..))
  · exact .set hk (.inr (engStop_record ..))
  · exact .set hdraw (.inr rfl)

theorem keepsRecord_onAgent {en : Ctrl → Bool} {run : Ctrl → Result} (hk : s.ctrl? c = some k)
    (hrun : en k = true → run k = .next t → KeepsRecord c k t) (ht : s.onAgent c en run = .next t) :
    KeepsRecord c k t := by
  rw [onAgent_some hk] at ht
  split at ht
  · exact hrun ‹_› ht
  · cases ht
    exact ⟨k, hk, .inr rfl⟩

/-- Of the agents of a controller in recovery the sequencer and the timeout are masked, and no other writes the record. -/
theorem keepsRecord_runEvent (hs : k.Sound buf) (hk : s.ctrl? c = some k) (hr : k.orch.recPhase ≠ .none) {e : Event}
    (he : e ∈ [Event.orch c, .timeout c, .windowExpiry c, .seq c, .eng c, .busError c, .setStretch c])
    (ht : runEvent s e = .next t) : KeepsRecord c k t := by
  simp only [List.mem_cons, List.not_mem_nil, or_false] at he
  rcases he with rfl | rfl | rfl | rfl | rfl | rfl | rfl
  · exact keepsRecord_onAgent hk (fun _ h => keepsRecord_orchStep hs hk hr h) ht
  · exact keepsRecord_onAgent hk (fun hen _ => by simp [hs.timeoutEnabled_of_recovering hr] at hen) ht
  · exact keepsRecord_onAgent hk (fun _ h => keepsRecord_expiryStep hs hk h) ht
  · exact keepsRecord_onAgent hk (fun hen _ => by simp [hs.seqEnabled_of_recovering hr] at hen) ht
  · exact keepsRecord_onAgent hk (fun _ h => by cases h; exact keepsRecord_engStep hk) ht
  · exact keepsRecord_onAgent hk (fun _ h => by cases h; exact .set hk (.inr rfl)) ht
  · exact keepsRecord_onAgent hk (fun _ h => by cases h; exact .set hk (.inr rfl)) ht

/-- Settles O52: the sequencer is masked, and the step of any agent keeps the record while the recovery runs. -/
theorem recoveryIsSilent : Obligations.RecoveryIsSilent := by
  unfold Obligations.RecoveryIsSilent
  refine ⟨fun s c k hinv hk hr => ?_, fun s t c k k' hinv hk hr e he ht hk' hr' => ?_⟩
  · have hs := hinv.sound c k hk
    exact ⟨hs.ie_of_recovering hr, onAgent_disabled hk (hs.seqEnabled_of_recovering hr) _⟩
  · obtain ⟨k1, hk1, hkeep⟩ := keepsRecord_runEvent (hinv.sound c k hk) hk hr he ht
    cases hk'.symm.trans hk1
    exact hkeep.resolve_left hr'

end Silence

end Sys2Proof.Machine
end

section
/-! PROOFS. The statements of spec/60_exceptions.md: the independence of the controllers, and the transfer timeout. -/

namespace Sys2Proof

section Agents

variable {e : Event} {c : Nat}

/-- The controller an event's agent belongs to; none for a requester's event (00_scope.md R8). -/
def Event.agentCtrl? : Event → Option Nat
  | .command .. | .bufRead .. | .bufWrite .. => none
  | .orch c | .timeout c | .windowExpiry c | .seq c | .eng c | .busError c | .setStretch c => some c

theorem agentCtrl?_of_mem
    (he : e ∈ [Event.orch c, .timeout c, .windowExpiry c, .seq c, .eng c, .busError c, .setStretch c]) :
    e.agentCtrl? = some c := by
  simp only [List.mem_cons, List.not_mem_nil, or_false] at he
  obtain rfl | rfl | rfl | rfl | rfl | rfl | rfl := he <;> rfl

end Agents

end Sys2Proof

namespace Sys2Proof.Machine

section Independence

variable {s t : State} {e : Event} {c : Nat}

/-! ## The agents of one controller (60_exceptions.md R265, R276) -/

/-- The frame of an agent's event is at its own controller; the memory beside it is what the sequencer may write. -/
theorem EventDid.agentFrame (h : EventDid s t e) (he : e.agentCtrl? = some c) :
    ∃ m, AgentFrame c { s with mem := m } t := by
  cases h with
  | idle h => exact ⟨s.mem, h ▸ .refl c s⟩
  | access r a v heq => subst heq; cases he
  | illegal r w heq => subst heq; cases he
  | command r w i heq => subst heq; cases he
  | agent c0 k hmem hk h =>
    have hc : e.agentCtrl? = some c0 := agentCtrl?_of_mem (List.subset_def.1 (by simp) hmem)
    cases he.symm.trans hc
    exact ⟨s.mem, h⟩
  | seq c0 k m heq hk h => subst heq; cases he; exact ⟨m, h⟩

end Independence

/-- Settles O54: an agent's event has the frame of its own controller, which holds every other one and the clock. -/
theorem controllersAreIndependent : Obligations.ControllersAreIndependent := by
  unfold Obligations.ControllersAreIndependent
  intro s t c c' e he hne hst
  rw [step_withEvent] at hst
  obtain ⟨m, hframe⟩ := (event_did hst).agentFrame (agentCtrl?_of_mem he)
  exact ⟨hframe.others c' hne, hframe.clock⟩

section Timeout

variable {s : State} {c : Nat} {k : Ctrl}

/-! ## The transfer timeout (40_commands.md R121, R123, 60_exceptions.md R273) -/

theorem timeoutEnabled_iff (m : TimeoutModel) (k : Ctrl) :
    k.timeoutEnabled m = true ↔
      k.orch.phase = .wait ∧ k.done = false ∧ (m = .anyTime ∨ (k.seqEnabled = false ∧ k.engEnabled = false)) := by
  cases m <;> simp [Ctrl.timeoutEnabled, and_assoc]

theorem timeoutEnabled_eq_false {m : TimeoutModel}
    (h : k.orch.phase ≠ .wait ∨ k.done = true ∨
      (m = .stuckOnly ∧ (k.seqEnabled = true ∨ k.engEnabled = true))) : k.timeoutEnabled m = false := by
  rw [Bool.eq_false_iff, ne_eq, timeoutEnabled_iff]
  rintro ⟨hwait, hdone, hm⟩
  obtain hp | hd | ⟨rfl, hs | he⟩ := h
  · exact hp hwait
  · simp [hd] at hdone
  · simp [hs] at hm
  · simp [he] at hm

theorem step_timeout_enabled (hk : s.ctrl? c = some k) (hen : k.timeoutEnabled s.params.timeoutModel = true) :
    step (s.withEvent (.timeout c)) = .next (s.setCtrl c k.timeoutFires) := by
  rw [step_withEvent, runEvent, onAgent_some hk, if_pos hen]

/-- Settles O30: where the timeout is not enabled the step is idle; where it is, a recovery starts on the masked
controller. -/
theorem timeoutStartsRecovery : Obligations.TimeoutStartsRecovery := by
  unfold Obligations.TimeoutStartsRecovery
  intro s c k hk
  refine ⟨fun h => onAgent_disabled hk (timeoutEnabled_eq_false h) _, fun hp hd hen hm => ?_⟩
  rw [step_timeout_enabled hk ((timeoutEnabled_iff _ k).2 ⟨hp, hd, hm⟩), Ctrl.timeoutFires,
    recoverStart_eq (by exact hen)]

end Timeout

end Sys2Proof.Machine
end

section
/-! PROOFS. The statement of spec/70_reset_and_hazards.md: the block after reset and initialisation, field by field. -/

namespace Sys2Proof.Machine

section Reset

variable {p : Params} {mem : Memory} {events : List Event} {draws : List Byte} {count : Nat} {c : Nat} {r : Byte}
  {hz : Word}

/-! ## What is found at an index after reset (70_reset_and_hazards.md R290, R291) -/

theorem numCtrl_resetWith : (State.resetWith p mem events draws count).numCtrl = p.targetHzReset.length :=
  List.length_map _

theorem req?_resetWith_eq_some (h0 : r ≠ 0) (hr : r.toNat ≤ p.numReq) :
    (State.resetWith p mem events draws count).req? r = some { outstanding := false, responses := [] } := by
  have hpos : 0 < r.toNat := Nat.pos_of_ne_zero fun h => h0 (BitVec.eq_of_toNat_eq h)
  exact (if_neg h0).trans (List.getElem?_replicate_of_lt (by omega))

theorem ctrl?_resetWith_eq_some (h : p.targetHzReset[c]? = some hz) :
    (State.resetWith p mem events draws count).ctrl? c = some (Ctrl.resetFor p hz) :=
  List.getElem?_map.trans (congrArg _ h)

/-- What initialisation writes is read off the result of the programming (R291, 42_timing.md R220). -/
theorem resetFor_programmed {res : TimingResult} (h : programTiming p.fastCalTable p.clockHzReset hz = res) :
    (Ctrl.resetFor p hz).trace = (if res.logs then [.log .timingFallback] else []) ∧
      (Ctrl.resetFor p hz).timing = res.write (Timing.unprogrammed hz) :=
  h ▸ ⟨rfl, rfl⟩

end Reset

/-- Settles O46: the requesters and controllers are looked up in the lists that reset fills; the timing registers and
the trace are read off the three results of the programming. -/
theorem resetState : Obligations.ResetState := by
  unfold Obligations.ResetState
  intro p mem events draws count
  refine ⟨rfl, numCtrl_resetWith, fun r h0 hr => req?_resetWith_eq_some h0 hr, fun c hz hc => ?_⟩
  refine ⟨Ctrl.resetFor p hz, ctrl?_resetWith_eq_some hc, rfl, rfl, rfl, rfl, rfl, rfl, ?_⟩
  cases hres : programTiming p.fastCalTable p.clockHzReset hz with
  | invalid => exact resetFor_programmed hres
  | calibrated tl th => exact resetFor_programmed hres
  | divider d warn => exact resetFor_programmed hres

end Sys2Proof.Machine
end
